-- ==== Sys2Proof/Word.lean ====
section
/-! DEFINITION. The unit of the two buffers and the pixel (00_scope.md R8, 10_state.md R21, R33). -/

namespace Sys2Proof

/-- `u8` of 00_scope.md R8: a colour component, a register of 8 bits, a unit of a buffer. -/
abbrev Byte := BitVec 8

/-- A Pixel held in state: a 4-tuple of `u8`, equal when all four components are equal
(10_state.md R21, 00_scope.md R8). How a tuple lies in an SRAM word is not architectural. -/
structure Pixel where
  r : Byte
  g : Byte
  b : Byte
  a : Byte
  deriving DecidableEq, Repr

end Sys2Proof
end

