-- ==== Sys2Proof/Syntax.lean ====
section
/-! DEFINITION. The instructions: one constructor per row of spec/opcode_table.json. Operands are the fields
of 30_encoding.md R74 to R79 as stored (biased, R80); the header's are the assembled numbers of R71. -/

namespace Sys2Proof

inductive Instr where
  /-- `QOI_OP_RGB` (30_encoding.md R78). -/
  | rgb (r g b : Byte)
  /-- `QOI_OP_RGBA` (30_encoding.md R79). -/
  | rgba (r g b a : Byte)
  /-- `QOI_OP_INDEX` (30_encoding.md R74): a cache slot number. -/
  | index (idx : BitVec 6)
  /-- `QOI_OP_DIFF` (30_encoding.md R75): each field is the difference plus 2. -/
  | diff (dr2 dg2 db2 : BitVec 2)
  /-- `QOI_OP_LUMA` (30_encoding.md R76): green plus 32, red and blue against green plus 8. -/
  | luma (dg32 : BitVec 6) (drdg8 dbdg8 : BitVec 4)
  /-- `QOI_OP_RUN` (30_encoding.md R77): run length minus 1; 62 and 63 are no run fields (WellFormed). -/
  | run (len1 : BitVec 6)
  /-- `HEADER` (30_encoding.md R71). -/
  | header (width height : BitVec 32) (channels colorspace : Byte)
  /-- `END` (30_encoding.md R83). -/
  | endMarker
  /-- `START_ENCODE`: `CMD` written with 1 (44_commands.md R200). -/
  | startEncode
  /-- `START_DECODE`: `CMD` written with 2 (44_commands.md R201). -/
  | startDecode
  deriving DecidableEq, Repr

end Sys2Proof
end

