-- ==== Sys2Proof/WellFormed.lean ====
section
/-! DEFINITION. Which terms of Instr are instructions of the hardware (30_encoding.md R80: no field value is
illegal except `len1` = 62 and 63, which do not exist as run fields). -/

namespace Sys2Proof

/-- 30_encoding.md R77, R80: a run field is 0..61; every other field may hold any pattern. The header carries any
`channels` and `colorspace` byte: what they do is 40_header_and_marker.md R102, not a matter of form. -/
def Instr.wf : Instr → Bool
  | .run len1 => decide (len1.toNat ≤ 61)
  | .rgb _ _ _ => true
  | .rgba _ _ _ _ => true
  | .index _ => true
  | .diff _ _ _ => true
  | .luma _ _ _ => true
  | .header _ _ _ _ => true
  | .endMarker => true
  | .startEncode => true
  | .startDecode => true

end Sys2Proof
end

