-- ==== Sys2Proof/Decode.lean ====
section
/-! DEFINITION. The decoder, total on any bytes and rejecting by name, and after it the encoder
(30_encoding.md). Frames and commands are told by POSITION (R83, R204), chunks by their tag (R73). -/

namespace Sys2Proof

/-- Where the unit to be decoded stands: the header frame (stream offset 0), a chunk, the end-marker frame
(where `px = npx`), or a value written to register `CMD`. -/
inductive Place where
  | header
  | chunk
  | marker
  | command
  deriving DecidableEq, Repr

/-- Why the decoder rejects a byte list. -/
inductive DecodeError where
  /-- Fewer bytes than the unit has (40_header_and_marker.md R101, R105; 43_chunk_decoder.md R171). -/
  | truncated
  /-- Four bytes exist and are not "qoif" (40_header_and_marker.md R101). -/
  | badMagic
  /-- Eight bytes exist and are not the end marker (40_header_and_marker.md R105). -/
  | badMarker
  /-- No command: `CMD` values 0 and 3 have no effect (44_commands.md R202); a larger number is no `CMD` value. -/
  | unusedCommand
  deriving DecidableEq, Repr

/-- The six kinds of chunk (30_encoding.md R70). -/
inductive ChunkKind where
  | rgb
  | rgba
  | index
  | diff
  | luma
  | run
  deriving DecidableEq, Repr

/-- `ascii("qoif")` (00_scope.md R8). -/
def magicBytes : List Byte := [0x71, 0x6F, 0x69, 0x66]

/-- `end_marker` (40_header_and_marker.md R103). -/
def endMarkerBytes : List Byte := [0, 0, 0, 0, 0, 0, 0, 1]

/-- `be32` (00_scope.md R8): most significant byte first. -/
def be32 (v : BitVec 32) : List Byte :=
  [v.extractLsb' 24 8, v.extractLsb' 16 8, v.extractLsb' 8 8, v.extractLsb' 0 8]

/-- `unbe32` (00_scope.md R8). -/
def unbe32 (b0 b1 b2 b3 : Byte) : BitVec 32 := b0 ++ b1 ++ b2 ++ b3

/-- `kind(t)` (30_encoding.md R73): the two 8-bit tags are tested before the 2-bit tags. -/
def tagKind (t : Byte) : ChunkKind :=
  if t = 0xFE then .rgb
  else if t = 0xFF then .rgba
  else if t.extractLsb' 6 2 = 0b00 then .index
  else if t.extractLsb' 6 2 = 0b01 then .diff
  else if t.extractLsb' 6 2 = 0b10 then .luma
  else .run

/-- Total length in bytes by kind (30_encoding.md R72). -/
def kindLength : ChunkKind → Nat
  | .rgb => 4
  | .rgba => 5
  | .index => 1
  | .diff => 1
  | .luma => 2
  | .run => 1

/-- The length of a chunk is a function of its tag alone (30_encoding.md R72). -/
def chunkLength (t : Byte) : Nat := kindLength (tagKind t)

/-- One chunk off the front of a byte list (30_encoding.md R73 to R79). -/
def decodeChunk : List Byte → Except DecodeError (Instr × List Byte)
  | [] => .error .truncated
  | t :: rest =>
    match tagKind t, rest with
    | .rgb, r :: g :: b :: rest' => .ok (.rgb r g b, rest')
    | .rgb, _ => .error .truncated
    | .rgba, r :: g :: b :: a :: rest' => .ok (.rgba r g b a, rest')
    | .rgba, _ => .error .truncated
    | .index, _ => .ok (.index (t.extractLsb' 0 6), rest)
    | .diff, _ => .ok (.diff (t.extractLsb' 4 2) (t.extractLsb' 2 2) (t.extractLsb' 0 2), rest)
    | .luma, b2 :: rest' => .ok (.luma (t.extractLsb' 0 6) (b2.extractLsb' 4 4) (b2.extractLsb' 0 4), rest')
    | .luma, [] => .error .truncated
    | .run, _ => .ok (.run (t.extractLsb' 0 6), rest)

/-- `decode_header` on a byte list (40_header_and_marker.md R101): the magic is tested first whenever four bytes
exist. -/
def decodeHeader : List Byte → Except DecodeError (Instr × List Byte)
  | m0 :: m1 :: m2 :: m3 :: rest =>
    if [m0, m1, m2, m3] ≠ magicBytes then .error .badMagic
    else
      match rest with
      | w0 :: w1 :: w2 :: w3 :: h0 :: h1 :: h2 :: h3 :: c :: s :: rest' =>
        .ok (.header (unbe32 w0 w1 w2 w3) (unbe32 h0 h1 h2 h3) c s, rest')
      | _ => .error .truncated
  | _ => .error .truncated

/-- The end marker on a byte list (40_header_and_marker.md R105): a marker cannot be compared before its eight
bytes exist. -/
def decodeMarker : List Byte → Except DecodeError (Instr × List Byte)
  | b0 :: b1 :: b2 :: b3 :: b4 :: b5 :: b6 :: b7 :: rest =>
    if [b0, b1, b2, b3, b4, b5, b6, b7] = endMarkerBytes then .ok (.endMarker, rest) else .error .badMarker
  | _ => .error .truncated

/-- The 2-bit value written to `CMD` (10_state.md R34): 1 and 2 are commands, 0 and 3 are none. -/
def decodeCommand (v : BitVec 2) : Option Instr :=
  if v = 1 then some .startEncode
  else if v = 2 then some .startDecode
  else none

/-- A `CMD` value as one byte of a list (the table's command rows). -/
def decodeCommandByte : List Byte → Except DecodeError (Instr × List Byte)
  | [] => .error .truncated
  | b :: rest =>
    if b.toNat < 4 then
      match decodeCommand (b.setWidth 2) with
      | some i => .ok (i, rest)
      | none => .error .unusedCommand
    else .error .unusedCommand

/-- The decoder: one instruction off the front of `bytes`, told by where the unit stands. -/
def decodeAt (place : Place) (bytes : List Byte) : Except DecodeError (Instr × List Byte) :=
  match place with
  | .header => decodeHeader bytes
  | .chunk => decodeChunk bytes
  | .marker => decodeMarker bytes
  | .command => decodeCommandByte bytes

/-- Where an instruction stands in its stream or port. -/
def Instr.place : Instr → Place
  | .rgb _ _ _ => .chunk
  | .rgba _ _ _ _ => .chunk
  | .index _ => .chunk
  | .diff _ _ _ => .chunk
  | .luma _ _ _ => .chunk
  | .run _ => .chunk
  | .header _ _ _ _ => .header
  | .endMarker => .marker
  | .startEncode => .command
  | .startDecode => .command

/-- The encoder: the bytes of an instruction (30_encoding.md R71, R74 to R79, R83; 10_state.md R34 for commands). -/
def encode : Instr → List Byte
  | .rgb r g b => [0xFE, r, g, b]
  | .rgba r g b a => [0xFF, r, g, b, a]
  | .index idx => [0b00#2 ++ idx]
  | .diff dr2 dg2 db2 => [0b01#2 ++ dr2 ++ dg2 ++ db2]
  | .luma dg32 drdg8 dbdg8 => [0b10#2 ++ dg32, drdg8 ++ dbdg8]
  | .run len1 => [0b11#2 ++ len1]
  | .header w h c s => magicBytes ++ be32 w ++ be32 h ++ [c] ++ [s]
  | .endMarker => endMarkerBytes
  | .startEncode => [1]
  | .startDecode => [2]

/-- The `n` low bytes of `w`, bits 7..0 first: how spec/opcode_table.json numbers a row of bytes. -/
def lowBytes : Nat → Nat → List Byte
  | 0, _ => []
  | n + 1, w => BitVec.ofNat 8 w :: lowBytes n (w / 256)

/-- The HEADER row's 32 fixed bits as spec/opcode_table.json numbers them: bytes 0..3 read as ONE big-endian
number ("match_applies_to" of the row). -/
def headerMatch : Nat := 0x716F6966

/-- Which kind of row the bits of a table word belong to. The command rows and two `QOI_OP_INDEX` bytes (01 and 02)
are the same number; the command is taken (DESIGN CHOICE, notes/assumptions/15.md). -/
def tablePlace (nbits w : Nat) : Place :=
  if nbits < 8 then .command
  else if nbits = 8 then
    if w = 1 ∨ w = 2 then .command else .chunk
  else if nbits = 64 then
    if w = 1 ∨ lowBytes 8 w = endMarkerBytes then .marker else .chunk
  else if nbits = 32 ∨ nbits = 112 then
    if w % 2 ^ 32 = headerMatch ∨ lowBytes 4 w = magicBytes ∨ w / 2 ^ 80 = headerMatch then .header else .chunk
  else .chunk

/-- The bytes of a table word, as the hardware stores them, zeros above the row's bits (fourteen bytes, the longest
instruction; a command is one byte). -/
def tableBytes (nbits w : Nat) : List Byte :=
  match tablePlace nbits w with
  | .command => lowBytes 1 w
  | .marker => if w = 1 then endMarkerBytes else lowBytes 8 w
  | .header =>
    if w % 2 ^ 32 = headerMatch then magicBytes ++ lowBytes 10 (w / 2 ^ 32)
    else if lowBytes 4 w = magicBytes then lowBytes 14 w
    else (lowBytes 14 w).reverse
  | .chunk => lowBytes 14 w

/-- The instruction the decoder reads from a word numbered as spec/opcode_table.json numbers it. -/
def decodeTableWord (nbits w : Nat) : Option Instr :=
  match decodeAt (tablePlace nbits (w % 2 ^ nbits)) (tableBytes nbits (w % 2 ^ nbits)) with
  | .ok (i, _) => some i
  | .error _ => none

end Sys2Proof
end

