-- ==== Sys2Proof/Config.lean ====
section
/-! DEFINITION. What an implementation fixes (00_scope.md R7) and the values the spec leaves open
(93_implementation_defined.md U8, U9, U13). The free values have no body: nothing can evaluate them. -/

namespace Sys2Proof

/-- `OVERSHOOT_POLICY` of 00_scope.md R7: what the decoder does with a run that would pass the pixel total
(43_chunk_decoder.md R177). -/
inductive Overshoot where
  | fail
  | truncate
  deriving DecidableEq, Repr

/-- The three OPEN parameters of 00_scope.md R7, arguments of the step relation (R11, 10_state.md R44).
`bufMax = none` is a block whose buffers the model does not bound (20_memory.md R51).
DESIGN CHOICE (notes/assumptions/1.md): they are carried in State, which no step changes there. -/
structure Params where
  strict : Bool
  overshoot : Overshoot
  bufMax : Option Nat
  deriving DecidableEq, Repr

/-- The recommended values collected in 92_eei_decisions.md: `STRICT = true`, `OVERSHOOT_POLICY = fail`,
buffers unbounded. -/
def Params.recommended : Params :=
  { strict := true, overshoot := .fail, bufMax := none }

/-- An unconstrained byte: what a host read of `OUT` returns where nothing is surfaced, and what a host write of
`IN` during a transaction leaves there (93_implementation_defined.md U8, U13; notes/assumptions/7.md, 8.md). -/
opaque Config.freeByte : Nat → Byte

/-- The unspecified content of `WIDTH` after a failed decode (60_exceptions.md R232; notes/assumptions/4.md). -/
opaque Config.freeWidth : Nat → BitVec 32

/-- The unspecified content of `HEIGHT` after a failed decode (60_exceptions.md R232; notes/assumptions/4.md). -/
opaque Config.freeHeight : Nat → BitVec 32

/-- The unspecified content of `CHANNELS` after a failed decode (60_exceptions.md R232; notes/assumptions/4.md). -/
opaque Config.freeChannels : Nat → Byte

/-- The unspecified content of `COLORSPACE` after a failed decode (60_exceptions.md R232; notes/assumptions/4.md). -/
opaque Config.freeColorspace : Nat → Byte

end Sys2Proof
end

