-- ==== Sys2Proof/Machine/State.lean ====
section
/-! DEFINITION. The state of the block (10_state.md R20: the table there is complete), the host's pending moves,
the reasons a step can stop, and the machine right after reset. Plain data only. -/

namespace Sys2Proof.Machine

open Sys2Proof

/-- `mode` (10_state.md R30). -/
inductive Mode where
  | enc
  | dec
  deriving DecidableEq, Repr

/-- `ph` (10_state.md R31). -/
inductive Phase where
  | idle
  | hdr
  | body
  | done
  | error
  deriving DecidableEq, Repr

/-- The typed errors (60_exceptions.md R221). -/
inductive Err where
  | invalidMagic
  | truncatedHeader
  | truncatedStream
  | pixelOverflow
  | pixelCountMismatch
  | unsupportedChannelCount
  | unsupportedColorspace
  | badEndMarker
  deriving DecidableEq, Repr

/-- How a step of the engine can end other than by completing. `raise` is 60_exceptions.md R232, `refuse` is R243,
`noStep` says that no step of the engine is the one asked for (10_state.md R31). -/
inductive Stop where
  | raise (e : Err)
  | refuse
  | noStep
  deriving DecidableEq, Repr

/-- The nine registers (10_state.md R34 to R42). -/
inductive Reg where
  | cmd
  | status
  | err
  | width
  | height
  | channels
  | colorspace
  | inLen
  | outLen
  deriving DecidableEq, Repr

/-- One move of the host (44_commands.md R206, R207; 70_reset_and_hazards.md R250). A register write carries a
value of the register's own width. `engine` is the host standing aside for one engine step.
DESIGN CHOICE (notes/assumptions/5.md): the spec fixes what each move does and not how the host comes to make it. -/
inductive HostOp where
  | writeCmd (v : BitVec 2)
  | writeStatus (v : BitVec 2)
  | writeErr (v : BitVec 4)
  | writeWidth (v : BitVec 32)
  | writeHeight (v : BitVec 32)
  | writeChannels (v : Byte)
  | writeColorspace (v : Byte)
  | writeInLen (n : Nat)
  | writeOutLen (n : Nat)
  | writeIn (addr : Nat) (v : Byte)
  | readReg (reg : Reg)
  | readIn (addr : Nat)
  | readOut (addr : Nat)
  | engine
  | reset
  deriving DecidableEq, Repr

/-- A buffer: the bytes something has written, addresses strictly rising (Ops: Mem.wf). An unlisted address has no
value (70_reset_and_hazards.md R250; notes/assumptions/3.md). -/
abbrev Mem := List Host.Cell

/-- Which of the host-owned registers something has written since reset. The others hold the model's reset value
(notes/assumptions/2.md), where 10_state.md R20 and R47 specify none: a step of the engine that reads one sets the mark
`refused` and is the transaction's last (60_exceptions.md R243 case 2; notes/assumptions/22.md). -/
structure Written where
  width : Bool
  height : Bool
  channels : Bool
  colorspace : Bool
  inLen : Bool
  deriving DecidableEq, Repr

/-- Right after reset: no register written (70_reset_and_hazards.md R250). -/
def Written.nothing : Written :=
  { width := false, height := false, channels := false, colorspace := false, inLen := false }

/-- The five registers written, as R251 of 70_reset_and_hazards.md has the host do before a START_ENCODE. -/
def Written.everything : Written :=
  { width := true, height := true, channels := true, colorspace := true, inLen := true }

/-- Why the machine stops with a fault. -/
inductive Fault where
  /-- Raised by a HOST move that writes a byte of `IN` or reads a byte of `IN` or `OUT` at or beyond
  `BUF_BYTES_MAX` (20_memory.md R51): no such byte exists. Safe: the model stops where the spec says nothing. -/
  | noSuchByte (addr : Nat)
  deriving DecidableEq, Repr

/-- Why a step has no meaning. -/
inductive Refusal where
  /-- Raised by exec for an instruction whose meaning is not written yet. Safe. -/
  | notModelled (mnemonic : String)
  /-- Raised by exec for an instruction no enabled step of the engine performs in this state: another phase or mode,
  or an encoder that selects another chunk (10_state.md R31, 42_chunk_encoder.md R152). Safe: the engine
  never takes such a step. -/
  | notEnabled
  deriving DecidableEq, Repr

/-- 10_state.md R20, and the model's own fields after it. -/
structure State where
  /-- The 64 pixel-history slots (R22). -/
  cache : Vector Pixel 64
  /-- The previous pixel (R23). -/
  prev : Pixel
  /-- The encoder's run counter (R24). -/
  run : BitVec 6
  /-- Read pointer into `IN`, the program counter (R26). -/
  pc : Nat
  /-- Write pointer into `OUT` (R27). -/
  wp : Nat
  /-- Pixels consumed (encode) or produced (decode) (R28). -/
  px : Nat
  /-- Pixel total (R29). -/
  npx : Nat
  mode : Mode
  ph : Phase
  /-- The mark of 60_exceptions.md R243 (R32). -/
  refused : Bool
  /-- Register `ERR` (R36). -/
  err : BitVec 4
  width : BitVec 32
  height : BitVec 32
  channels : Byte
  colorspace : Byte
  inLen : Nat
  outLen : Nat
  /-- `IN` (20_memory.md R50). -/
  inBuf : Mem
  /-- `OUT` (20_memory.md R50). -/
  outBuf : Mem
  /-- The model's own: which registers hold a value the host or a step gave them (notes/assumptions/22.md). -/
  written : Written
  /-- The model's own: the transaction has been refused and has no further steps (60_exceptions.md R243;
  notes/assumptions/13.md). -/
  halted : Bool
  /-- The model's own: the parameters of 00_scope.md R7, constant (notes/assumptions/1.md). -/
  cfg : Params
  /-- The model's own: the host's pending moves, next first (notes/assumptions/5.md). -/
  host : List HostOp
  /-- The model's own: what the host's last read returned (notes/assumptions/6.md). -/
  rdata : Nat
  /-- The model's own: free values drawn so far (notes/assumptions/9.md). -/
  fresh : Nat
  deriving DecidableEq, Repr

/-- A pixel of four zero components: the stream-start content of every slot (10_state.md R46). -/
def Pixel.zero : Pixel := { r := 0, g := 0, b := 0, a := 0 }

/-- The state right after hardware reset (10_state.md R47): `ph`, `err`, `outLen`, `refused` as the rule says, both
buffers without any value, no register written. The zeros of the other registers and `mode` are a DESIGN CHOICE
(notes/assumptions/2.md): the rule gives them no value. -/
def State.reset : State :=
  { cache := Vector.replicate 64 Pixel.zero
    prev := Pixel.zero
    run := 0
    pc := 0
    wp := 0
    px := 0
    npx := 0
    mode := .enc
    ph := .idle
    refused := false
    err := 0
    width := 0
    height := 0
    channels := 0
    colorspace := 0
    inLen := 0
    outLen := 0
    inBuf := []
    outBuf := []
    written := Written.nothing
    halted := false
    cfg := Params.recommended
    host := []
    rdata := 0
    fresh := 0 }

end Sys2Proof.Machine
end

