-- ==== Sys2Proof/Machine/Ops.lean ====
section
/-! DEFINITION. The named operations over buffers, pointers and the pixel history; taking an error (the block's
exception entry, 60_exceptions.md R232) and the only ways out of one (R233): a START and hardware reset. -/

namespace Sys2Proof.Machine

open Sys2Proof

/-! Buffers (20_memory.md R50 to R53). -/

/-- One byte; `none` where nothing has written. -/
def Mem.read : Mem → Nat → Option Byte
  | [], _ => none
  | (b, v) :: m, a => if b = a then some v else Mem.read m a

/-- Write one byte, keeping the addresses strictly rising. -/
def Mem.write : Mem → Nat → Byte → Mem
  | [], a, v => [(a, v)]
  | (b, w) :: m, a, v =>
    if a < b then (a, v) :: (b, w) :: m
    else if a = b then (a, v) :: m
    else (b, w) :: Mem.write m a v

/-- The canonical form: addresses strictly rising. An unlisted byte has no value, so no entry can repeat it. -/
def Mem.wf : Mem → Bool
  | [] => true
  | (a, _) :: m => m.all (fun c => decide (a < c.1)) && Mem.wf m

/-- `n` bytes from address `a` up, lowest address first (20_memory.md R52). -/
def Mem.readBytes (m : Mem) (a : Nat) : Nat → Option (List Byte)
  | 0 => some []
  | n + 1 =>
    match m.read a, Mem.readBytes m (a + 1) n with
    | some b, some bs => some (b :: bs)
    | _, _ => none

/-- A byte string from address `a` up (20_memory.md R53). -/
def Mem.writeBytes (m : Mem) (a : Nat) : List Byte → Mem
  | [] => m
  | b :: bs => Mem.writeBytes (m.write a b) (a + 1) bs

/-- Whether `n` bytes of a buffer exist under `BUF_BYTES_MAX` (20_memory.md R51). -/
def fits (p : Params) (n : Nat) : Bool :=
  match p.bufMax with
  | none => true
  | some m => decide (n ≤ m)

/-- The truncation error of the phase (20_memory.md R52). -/
def truncationError (ph : Phase) : Err :=
  match ph with
  | .hdr => .truncatedHeader
  | .body => .truncatedStream
  | .idle => .truncatedStream
  | .done => .truncatedStream
  | .error => .truncatedStream

/-- `MemRead(addr, n)` (20_memory.md R52). A byte nothing has written, or beyond the capacity, is refused
(60_exceptions.md R243 cases 2 and 3). -/
def memRead (s : State) (addr n : Nat) : Except Stop (List Byte) :=
  if addr + n ≤ s.inLen then
    if fits s.cfg (addr + n) then
      match s.inBuf.readBytes addr n with
      | some bs => .ok bs
      | none => .error .refuse
    else .error .refuse
  else .error (.raise (truncationError s.ph))

/-- `MemWrite(addr, len(v), v)` (20_memory.md R53), refused beyond the capacity (R51, 60_exceptions.md R243 case 3). -/
def memWrite (addr : Nat) (v : List Byte) (s : State) : Except Stop State :=
  if fits s.cfg (addr + v.length) then .ok { s with outBuf := s.outBuf.writeBytes addr v }
  else .error .refuse

/-- `emit(v)` (00_scope.md R9). -/
def emit (v : List Byte) (s : State) : Except Stop State :=
  match memWrite s.wp v s with
  | .ok t => .ok { t with wp := t.wp + v.length }
  | .error x => .error x

/-! The pixel history (41_pixel_history.md). -/

/-- `index(p)` (41_pixel_history.md R120). -/
def hashIndex (p : Pixel) : BitVec 6 :=
  BitVec.ofNat 6 ((p.r.toNat * 3 + p.g.toNat * 5 + p.b.toNat * 7 + p.a.toNat * 11) % 64)

/-- `cache[i]` (00_scope.md R9). -/
def readSlot (s : State) (i : BitVec 6) : Pixel := s.cache[i.toNat]'i.isLt

/-- `cache[i] <- p` (00_scope.md R9). -/
def writeSlot (i : BitVec 6) (p : Pixel) (s : State) : State :=
  { s with cache := s.cache.set i.toNat p i.isLt }

/-- `update(p)` (41_pixel_history.md R122). -/
def update (p : Pixel) (s : State) : State := writeSlot (hashIndex p) p s

/-- `commit(p)` (41_pixel_history.md R123). -/
def commit (p : Pixel) (s : State) : State := { update p s with prev := p }

/-- `advance_run()` (41_pixel_history.md R126). -/
def advanceRun (s : State) : State := { s with run := s.run + 1 }

/-- `flush_run()` (41_pixel_history.md R126): the chunk `RUN run` when a run is open, else nothing. -/
def flushRun (s : State) : Except Stop State :=
  if s.run = 0 then .ok s
  else
    match emit (encode (.run (s.run - 1))) s with
    | .ok t => .ok { t with run := 0 }
    | .error x => .error x

/-! Errors, refusals and the ways out of them (60_exceptions.md). -/

/-- `code(E)` (60_exceptions.md R221). -/
def errCode : Err → BitVec 4
  | .invalidMagic => 1
  | .truncatedHeader => 2
  | .truncatedStream => 3
  | .pixelOverflow => 4
  | .pixelCountMismatch => 5
  | .unsupportedChannelCount => 6
  | .unsupportedColorspace => 7
  | .badEndMarker => 8

/-- `raise E` (60_exceptions.md R232), applied to the state BEFORE the failing step, so that what the step had done is
discarded. In decode mode the geometry registers then hold no specified value: free values, drawn at `fresh`
(93_implementation_defined.md U9; DESIGN CHOICE, notes/assumptions/4.md). What has been written stays as it was
before the step (notes/assumptions/22.md). -/
def takeError (e : Err) (s : State) : State :=
  { s with
    err := errCode e
    outLen := 0
    ph := .error
    width := if s.mode = .dec then Config.freeWidth s.fresh else s.width
    height := if s.mode = .dec then Config.freeHeight s.fresh else s.height
    channels := if s.mode = .dec then Config.freeChannels s.fresh else s.channels
    colorspace := if s.mode = .dec then Config.freeColorspace s.fresh else s.colorspace
    fresh := if s.mode = .dec then s.fresh + 1 else s.fresh }

/-- `refuse(reason)` (00_scope.md R9, 10_state.md R32): the sticky mark, no further steps for the transaction
(60_exceptions.md R243), and nothing else of the step. -/
def markRefused (s : State) : State := { s with refused := true, halted := true }

/-- Stream-start initialisation with the mode of the command (10_state.md R46, 44_commands.md R200, R201). It is also
the way out of `ERROR` (60_exceptions.md R233): there is no return from an error. The mark `refused` stays (10_state.md
R32); the new transaction has its own steps (notes/assumptions/13.md). -/
def startTransaction (m : Mode) (s : State) : State :=
  { s with
    mode := m
    cache := Vector.replicate 64 Pixel.zero
    prev := { r := 0, g := 0, b := 0, a := 255 }
    run := 0
    pc := 0
    wp := 0
    px := 0
    err := 0
    outLen := 0
    ph := .hdr
    halted := false }

/-- Hardware reset (70_reset_and_hazards.md R250): the state right after reset, with what is not the block's kept (the
parameters, the host's moves, the host's last read, the free values drawn so far). -/
def hardReset (s : State) : State :=
  { State.reset with cfg := s.cfg, host := s.host, rdata := s.rdata, fresh := s.fresh }

/-- `WIDTH`, `HEIGHT`, `CHANNELS` and `COLORSPACE` have all been written since reset. -/
def Written.geometry (w : Written) : Bool := w.width && w.height && w.channels && w.colorspace

/-- The four geometry registers, all written. -/
def Written.withGeometry (w : Written) : Written :=
  { w with width := true, height := true, channels := true, colorspace := true }

/-- The header step of the state's mode has its operands: every register it reads has been written since reset
(42_chunk_encoder.md R140 and 43_chunk_decoder.md R170, Reads; 70_reset_and_hazards.md R251). -/
def operandsWritten (s : State) : Bool :=
  match s.mode with
  | .enc => s.written.geometry && s.written.inLen
  | .dec => s.written.inLen

/-- The step the engine has next in `s` reads a register nothing has written since reset (60_exceptions.md R243 case 2).
Only the header step can: the steps of BODY read what it has read or written. -/
def readsUnwritten (s : State) : Bool := decide (s.ph = .hdr) && !operandsWritten s

/-- `t`, where the step from `s` ends, with the mark and no further steps when that step read a register nothing has
written (60_exceptions.md R243 case 2). The step itself reads the register's value at reset and takes its effect
(notes/assumptions/2.md, 22.md). -/
def noteReads (s t : State) : State :=
  { t with refused := t.refused || readsUnwritten s, halted := t.halted || readsUnwritten s }

/-- How a step of the engine that began in `s` ends: atomically (00_scope.md R6, R9). -/
def conclude (s : State) (r : Except Stop State) : Host.Outcome State Fault Refusal :=
  match r with
  | .ok t => .next (noteReads s t)
  | .error (.raise e) => .next (noteReads s (takeError e s))
  | .error .refuse => .next (markRefused s)
  | .error .noStep => .refused .notEnabled

end Sys2Proof.Machine
end

