-- ==== Sys2Proof/Machine/Operands.lean ====
section
/-! DEFINITION. The operand forms: modulo-256 channel arithmetic (41_pixel_history.md R128 to R130), the biased
fields (30_encoding.md R80), the pixel a chunk denotes (43_chunk_decoder.md R172 to R176), the fields a pixel is
encoded with (42_chunk_encoder.md R146 to R150), and pixels to and from the raw buffer (20_memory.md R59). -/

namespace Sys2Proof.Machine

open Sys2Proof

/-- `wrap8` (00_scope.md R8). -/
def wrap8 (x : Int) : Byte := BitVec.ofInt 8 x

/-- `s8` (00_scope.md R8): the residue mod 256 read as signed 8-bit. -/
def s8 (x : Int) : Int := if x % 256 < 128 then x % 256 else x % 256 - 256

/-- The difference of two components (41_pixel_history.md R128). -/
def componentDiff (x y : Byte) : Int := s8 ((x.toNat : Int) - (y.toNat : Int))

/-- `prev` plus a difference, each component wrapping, alpha kept (43_chunk_decoder.md R175, R176). -/
def shiftPixel (prev : Pixel) (dr dg db : Int) : Pixel :=
  { r := wrap8 (prev.r.toNat + dr), g := wrap8 (prev.g.toNat + dg), b := wrap8 (prev.b.toNat + db), a := prev.a }

/-- The decoded value of a biased field (30_encoding.md R80). -/
def unbias {w : Nat} (field : BitVec w) (bias : Int) : Int := (field.toNat : Int) - bias

/-- The field that carries a value with a bias (30_encoding.md R80). -/
def withBias (w : Nat) (value bias : Int) : BitVec w := BitVec.ofInt w (value + bias)

/-- The pixel of `QOI_OP_RGB`: alpha is inherited (43_chunk_decoder.md R172). -/
def pixelOfRgb (r g b : Byte) (prev : Pixel) : Pixel := { r := r, g := g, b := b, a := prev.a }

/-- The pixel of `QOI_OP_RGBA` (43_chunk_decoder.md R173). -/
def pixelOfRgba (r g b a : Byte) : Pixel := { r := r, g := g, b := b, a := a }

/-- The pixel of `QOI_OP_DIFF` (43_chunk_decoder.md R175). -/
def pixelOfDiff (dr2 dg2 db2 : BitVec 2) (prev : Pixel) : Pixel :=
  shiftPixel prev (unbias dr2 2) (unbias dg2 2) (unbias db2 2)

/-- The pixel of `QOI_OP_LUMA` (43_chunk_decoder.md R176): red and blue are carried against green. -/
def pixelOfLuma (dg32 : BitVec 6) (drdg8 dbdg8 : BitVec 4) (prev : Pixel) : Pixel :=
  shiftPixel prev (unbias dg32 32 + unbias drdg8 8) (unbias dg32 32) (unbias dg32 32 + unbias dbdg8 8)

/-- The length of a run (30_encoding.md R77, R80). -/
def runLength (len1 : BitVec 6) : Nat := len1.toNat + 1

/-- `enc_DIFF` as an instruction (42_chunk_encoder.md R147). -/
def diffOf (p prev : Pixel) : Instr :=
  .diff (withBias 2 (componentDiff p.r prev.r) 2) (withBias 2 (componentDiff p.g prev.g) 2)
    (withBias 2 (componentDiff p.b prev.b) 2)

/-- `enc_LUMA` as an instruction (42_chunk_encoder.md R148). -/
def lumaOf (p prev : Pixel) : Instr :=
  .luma (withBias 6 (componentDiff p.g prev.g) 32)
    (withBias 4 (componentDiff p.r prev.r - componentDiff p.g prev.g) 8)
    (withBias 4 (componentDiff p.b prev.b - componentDiff p.g prev.g) 8)

/-- A pixel of the raw buffer from its bytes, `c` of them (42_chunk_encoder.md R141): with three channels alpha is
implicitly 255. Another number of channels has no meaning (60_exceptions.md R243 case 1). -/
def pixelOfBytes (c : Byte) (bs : List Byte) : Option Pixel :=
  match bs with
  | [r, g, b, a] => if c = 4 then some { r := r, g := g, b := b, a := a } else none
  | [r, g, b] => if c = 3 then some { r := r, g := g, b := b, a := 255 } else none
  | _ => none

/-- `fetch_pixel()` (42_chunk_encoder.md R141). -/
def fetchPixel (s : State) : Except Stop Pixel :=
  match memRead s s.pc s.channels.toNat with
  | .ok bs =>
    match pixelOfBytes s.channels bs with
    | some p => .ok p
    | none => .error .refuse
  | .error x => .error x

/-- A pixel's bytes in the raw buffer (43_chunk_decoder.md R179). -/
def pixelBytes (c : Byte) (p : Pixel) : List Byte :=
  if c = 4 then [p.r, p.g, p.b, p.a] else [p.r, p.g, p.b]

/-- `out_pixel(p)` (43_chunk_decoder.md R179). -/
def outPixel (p : Pixel) (s : State) : Except Stop State := emit (pixelBytes s.channels p) s

/-- `repeat n times: out_pixel(p)` (43_chunk_decoder.md R177). -/
def outPixels : Nat → Pixel → State → Except Stop State
  | 0, _, s => .ok s
  | n + 1, p, s =>
    match outPixel p s with
    | .ok t => outPixels n p t
    | .error x => .error x

end Sys2Proof.Machine
end

