-- ==== Sys2Proof/Machine/Flags.lean ====
section
/-! DEFINITION. The block has no flags or condition codes (10_state.md R33). What other machines keep in flags it
evaluates and consumes inside one step: the comparisons of the encoder (42_chunk_encoder.md R146 to R149), the
header's field check (40_header_and_marker.md R102), and which step is enabled (10_state.md R31). -/

namespace Sys2Proof.Machine

open Sys2Proof

/-- `lookup(p)` (41_pixel_history.md R121). -/
def lookup (p : Pixel) (s : State) : Bool := decide (readSlot s (hashIndex p) = p)

/-- `lo <= x <= hi` on integers. -/
def within (lo hi x : Int) : Bool := decide (lo ≤ x) && decide (x ≤ hi)

/-- `fits_DIFF(p, prev)` (42_chunk_encoder.md R147). -/
def fitsDiff (p prev : Pixel) : Bool :=
  decide (p.a = prev.a) && within (-2) 1 (componentDiff p.r prev.r) && within (-2) 1 (componentDiff p.g prev.g)
    && within (-2) 1 (componentDiff p.b prev.b)

/-- `fits_LUMA(p, prev)` (42_chunk_encoder.md R148); the second-order differences do not wrap
(41_pixel_history.md R130). -/
def fitsLuma (p prev : Pixel) : Bool :=
  decide (p.a = prev.a) && within (-32) 31 (componentDiff p.g prev.g)
    && within (-8) 7 (componentDiff p.r prev.r - componentDiff p.g prev.g)
    && within (-8) 7 (componentDiff p.b prev.b - componentDiff p.g prev.g)

/-- `check_fields(c, s)` (40_header_and_marker.md R102): channels before colorspace. -/
def checkFields (p : Params) (c s : Byte) : Except Stop Unit :=
  if c ≠ 3 ∧ c ≠ 4 then
    if p.strict then .error (.raise .unsupportedChannelCount) else .error .refuse
  else if s ≠ 0 ∧ s ≠ 1 then
    if p.strict then .error (.raise .unsupportedColorspace) else .ok ()
  else .ok ()

/-- `STATUS = BUSY` (10_state.md R35). -/
def busy (s : State) : Bool :=
  match s.ph with
  | .idle => false
  | .hdr => true
  | .body => true
  | .done => false
  | .error => false

/-- Register `STATUS`, a function of `ph` (10_state.md R35). -/
def State.status (s : State) : BitVec 2 :=
  match s.ph with
  | .idle => 0
  | .hdr => 1
  | .body => 1
  | .done => 2
  | .error => 3

/-- The header step is the enabled one (10_state.md R31). -/
def headerEnabled (s : State) : Bool := decide (s.ph = .hdr)

/-- The pixel or chunk step is the enabled one (10_state.md R31). -/
def bodyEnabled (s : State) : Bool := decide (s.ph = .body) && decide (s.px < s.npx)

/-- The tail step is the enabled one (10_state.md R31). -/
def tailEnabled (s : State) : Bool := decide (s.ph = .body) && decide (s.px = s.npx)

end Sys2Proof.Machine
end

