-- ==== Sys2Proof/Machine/Encoder.lean ====
section
/-! DEFINITION. The encoder side of the chunks, shared by the six chunk meanings: which chunk a pixel step stands for
(42_chunk_encoder.md R142, R152) and what the step does with it (R143 to R151). -/

namespace Sys2Proof.Machine

open Sys2Proof

/-- The chunk a pixel step stands for, options tried strictly in order (42_chunk_encoder.md R142, R152). For a pixel
equal to `prev` it is the run that is pending after the step: one longer, or a new run of one when 62 are pending
(R143, R145). DESIGN CHOICE (notes/assumptions/11.md): the run's field names that pending run. -/
def selectChunk (p : Pixel) (s : State) : Instr :=
  if p = s.prev then .run (if s.run < 62 then s.run else 0)
  else if lookup p s then .index (hashIndex p)
  else if fitsDiff p s.prev then diffOf p s.prev
  else if fitsLuma p s.prev then lumaOf p s.prev
  else if p.a = s.prev.a then .rgb p.r p.g p.b
  else .rgba p.r p.g p.b p.a

/-- The end of every pixel step (42_chunk_encoder.md R142): `pc <- pc + CHANNELS; px <- px + 1`. -/
def advancePixel (s : State) : State := { s with pc := s.pc + s.channels.toNat, px := s.px + 1 }

/-- The pixel step that emits chunk `i`: flush, emit, commit (42_chunk_encoder.md R144, R146 to R151). It is the
engine's step only when `i` is the chunk the pixel is encoded with. -/
def encodeChunk (i : Instr) (s : State) : Except Stop State :=
  match fetchPixel s with
  | .error x => .error x
  | .ok p =>
    if selectChunk p s = i then
      match flushRun s with
      | .error x => .error x
      | .ok s1 =>
        match emit (encode i) s1 with
        | .error x => .error x
        | .ok s2 => .ok (advancePixel (commit p s2))
    else .error .noStep

/-- The pixel step of a pixel equal to `prev` (42_chunk_encoder.md R143, R145): continuation emits nothing; at 62 the
byte `FD` is emitted and the pixel opens the next run. Neither commits (R125, R151). -/
def encodeRun (len1 : BitVec 6) (s : State) : Except Stop State :=
  match fetchPixel s with
  | .error x => .error x
  | .ok p =>
    if selectChunk p s = .run len1 then
      if s.run < 62 then .ok (advancePixel (advanceRun s))
      else
        match emit [0xFD] s with
        | .error x => .error x
        | .ok s1 => .ok (advancePixel { s1 with run := 1 })
    else .error .noStep

end Sys2Proof.Machine
end

