-- ==== Sys2Proof/Machine/Chunks.lean ====
section
/-! DEFINITION. The meanings of the six chunks. Decode mode: 43_chunk_decoder.md R171 to R179. Encode mode:
42_chunk_encoder.md R142 to R151. -/

namespace Sys2Proof.Machine

open Sys2Proof

/-- `finish(p, n)` (43_chunk_decoder.md R178). -/
def finish (p : Pixel) (n : Nat) (s : State) : Except Stop State :=
  match outPixel p (commit p s) with
  | .ok t => .ok { t with px := t.px + 1, pc := t.pc + n }
  | .error x => .error x

/-- The output of `n` repeats of `prev` and the counters after it; no cache update, `prev` unchanged
(43_chunk_decoder.md R177). -/
def repeatPrev (n : Nat) (s : State) : Except Stop State :=
  match outPixels n s.prev s with
  | .ok t => .ok { t with px := t.px + n, pc := t.pc + 1 }
  | .error x => .error x

/-- `dec_RUN` (43_chunk_decoder.md R177): the overshoot check comes before any output. -/
def decodeRun (len1 : BitVec 6) (s : State) : Except Stop State :=
  if s.px + runLength len1 > s.npx then
    match s.cfg.overshoot with
    | .fail => .error (.raise .pixelOverflow)
    | .truncate => repeatPrev (s.npx - s.px) s
  else repeatPrev (runLength len1) s

/-- A step of phase BODY with pixels left, in the transaction's mode (10_state.md R30, R31). -/
def bodyStep (s : State) (decoder encoder : Except Stop State) : Host.Outcome State Fault Refusal :=
  if bodyEnabled s then
    match s.mode with
    | .dec => conclude s decoder
    | .enc => conclude s encoder
  else .refused .notEnabled

/-- `QOI_OP_RGB`: 43_chunk_decoder.md R172, 42_chunk_encoder.md R149. -/
def execRgb (r g b : Byte) (s : State) : Host.Outcome State Fault Refusal :=
  bodyStep s (finish (pixelOfRgb r g b s.prev) 4 s) (encodeChunk (.rgb r g b) s)

/-- `QOI_OP_RGBA`: 43_chunk_decoder.md R173, 42_chunk_encoder.md R150. -/
def execRgba (r g b a : Byte) (s : State) : Host.Outcome State Fault Refusal :=
  bodyStep s (finish (pixelOfRgba r g b a) 5 s) (encodeChunk (.rgba r g b a) s)

/-- `QOI_OP_INDEX`: 43_chunk_decoder.md R174 (the update goes to slot `index(p)`, not to slot `idx`),
42_chunk_encoder.md R146. -/
def execIndex (idx : BitVec 6) (s : State) : Host.Outcome State Fault Refusal :=
  bodyStep s (finish (readSlot s idx) 1 s) (encodeChunk (.index idx) s)

/-- `QOI_OP_DIFF`: 43_chunk_decoder.md R175, 42_chunk_encoder.md R147. -/
def execDiff (dr2 dg2 db2 : BitVec 2) (s : State) : Host.Outcome State Fault Refusal :=
  bodyStep s (finish (pixelOfDiff dr2 dg2 db2 s.prev) 1 s) (encodeChunk (.diff dr2 dg2 db2) s)

/-- `QOI_OP_LUMA`: 43_chunk_decoder.md R176, 42_chunk_encoder.md R148. -/
def execLuma (dg32 : BitVec 6) (drdg8 dbdg8 : BitVec 4) (s : State) : Host.Outcome State Fault Refusal :=
  bodyStep s (finish (pixelOfLuma dg32 drdg8 dbdg8 s.prev) 2 s) (encodeChunk (.luma dg32 drdg8 dbdg8) s)

/-- `QOI_OP_RUN`: 43_chunk_decoder.md R177, 42_chunk_encoder.md R143, R145. -/
def execRun (len1 : BitVec 6) (s : State) : Host.Outcome State Fault Refusal :=
  bodyStep s (decodeRun len1 s) (encodeRun len1 s)

end Sys2Proof.Machine
end

