-- ==== Sys2Proof/Machine/Commands.lean ====
section
/-! DEFINITION. The meanings of the two host commands (44_commands.md R200, R201, R203). -/

namespace Sys2Proof.Machine

open Sys2Proof

/-- A START takes effect in IDLE, DONE and ERROR and is ignored while BUSY (10_state.md R34, 44_commands.md R203). -/
def startCommand (m : Mode) (s : State) : Host.Outcome State Fault Refusal :=
  if busy s then .next s else .next (startTransaction m s)

/-- `START_ENCODE` (44_commands.md R200). -/
def execStartEncode (s : State) : Host.Outcome State Fault Refusal := startCommand .enc s

/-- `START_DECODE` (44_commands.md R201). -/
def execStartDecode (s : State) : Host.Outcome State Fault Refusal := startCommand .dec s

end Sys2Proof.Machine
end

