-- ==== Sys2Proof/Machine/Frames.lean ====
section
/-! DEFINITION. The meanings of the two fixed frames. HEADER: 40_header_and_marker.md R100 to R102,
42_chunk_encoder.md R140, 43_chunk_decoder.md R170. END: 40_header_and_marker.md R103 to R105,
42_chunk_encoder.md R156, 43_chunk_decoder.md R182. -/

namespace Sys2Proof.Machine

open Sys2Proof

/-- `width * height`, exact (10_state.md R29). -/
def pixelTotal (w h : BitVec 32) : Nat := w.toNat * h.toNat

/-- `D-HDR` once the header's fields are read (43_chunk_decoder.md R170). -/
def decodeHeaderStep (w h : BitVec 32) (c cs : Byte) (s : State) : Except Stop State :=
  match checkFields s.cfg c cs with
  | .error x => .error x
  | .ok () =>
    .ok { s with
      width := w, height := h, channels := c, colorspace := cs, written := s.written.withGeometry
      npx := pixelTotal w h, pc := 14, ph := .body }

/-- `E-HDR` (42_chunk_encoder.md R140): the fields are the registers', checked before the length. -/
def encodeHeaderStep (w h : BitVec 32) (c cs : Byte) (s : State) : Except Stop State :=
  if w = s.width ∧ h = s.height ∧ c = s.channels ∧ cs = s.colorspace then
    match checkFields s.cfg c cs with
    | .error x => .error x
    | .ok () =>
      if s.inLen ≠ pixelTotal w h * c.toNat then .error (.raise .pixelCountMismatch)
      else
        match emit (encode (.header w h c cs)) { s with npx := pixelTotal w h } with
        | .error x => .error x
        | .ok t => .ok { t with ph := .body }
  else .error .noStep

/-- `D-TAIL` once the marker is read and verified (43_chunk_decoder.md R182). -/
def decodeTail (s : State) : Except Stop State :=
  .ok { s with pc := s.pc + 8, outLen := s.wp, ph := .done }

/-- `E-TAIL` (42_chunk_encoder.md R156). -/
def encodeTail (s : State) : Except Stop State :=
  match flushRun s with
  | .error x => .error x
  | .ok s1 =>
    match emit (encode .endMarker) s1 with
    | .error x => .error x
    | .ok s2 => .ok { s2 with outLen := s2.wp, ph := .done }

/-- `HEADER`: 43_chunk_decoder.md R170 in decode mode, 42_chunk_encoder.md R140 in encode mode. -/
def execHeader (w h : BitVec 32) (c cs : Byte) (s : State) : Host.Outcome State Fault Refusal :=
  if headerEnabled s then
    match s.mode with
    | .dec => conclude s (decodeHeaderStep w h c cs s)
    | .enc => conclude s (encodeHeaderStep w h c cs s)
  else .refused .notEnabled

/-- `END`: 43_chunk_decoder.md R182 in decode mode, 42_chunk_encoder.md R156 in encode mode. -/
def execEnd (s : State) : Host.Outcome State Fault Refusal :=
  if tailEnabled s then
    match s.mode with
    | .dec => conclude s (decodeTail s)
    | .enc => conclude s (encodeTail s)
  else .refused .notEnabled

end Sys2Proof.Machine
end

