-- ==== Sys2Proof/Machine/Dispatch.lean ====
section
/-! DEFINITION. One arm per constructor of Instr, one call of its meaning each. -/

namespace Sys2Proof.Machine

open Sys2Proof

def exec (i : Instr) (s : State) : Host.Outcome State Fault Refusal :=
  match i with
  | .rgb r g b => Sys2Proof.Machine.execRgb r g b s
  | .rgba r g b a => Sys2Proof.Machine.execRgba r g b a s
  | .index idx => Sys2Proof.Machine.execIndex idx s
  | .diff dr2 dg2 db2 => Sys2Proof.Machine.execDiff dr2 dg2 db2 s
  | .luma dg32 drdg8 dbdg8 => Sys2Proof.Machine.execLuma dg32 drdg8 dbdg8 s
  | .run len1 => Sys2Proof.Machine.execRun len1 s
  | .header w h c cs => Sys2Proof.Machine.execHeader w h c cs s
  | .endMarker => Sys2Proof.Machine.execEnd s
  | .startEncode => Sys2Proof.Machine.execStartEncode s
  | .startDecode => Sys2Proof.Machine.execStartDecode s

end Sys2Proof.Machine
end

