-- ==== Sys2Proof/Machine/Fetch.lean ====
section
/-! DEFINITION. Which instruction the engine's next step performs. Decode mode: the unit at `pc`, read by `MemRead`
and decoded by position (40_header_and_marker.md R101, 43_chunk_decoder.md R171, R182). Encode mode: the frame or
chunk the step emits (42_chunk_encoder.md R140, R142, R156). -/

namespace Sys2Proof.Machine

open Sys2Proof

/-- What the engine makes of a rejected unit (60_exceptions.md R222 to R224, R229). -/
def decodeStop (place : Place) (e : DecodeError) : Stop :=
  match e with
  | .truncated => .raise (if place = .header then .truncatedHeader else .truncatedStream)
  | .badMagic => .raise .invalidMagic
  | .badMarker => .raise .badEndMarker
  | .unusedCommand => .noStep

/-- Decode one unit from exactly the bytes read for it. -/
def decodeUnit (place : Place) (bytes : List Byte) : Except Stop Instr :=
  match decodeAt place bytes with
  | .ok (i, _) => .ok i
  | .error e => .error (decodeStop place e)

/-- The magic is tested first whenever four bytes exist (40_header_and_marker.md R101). -/
def checkMagic (s : State) : Except Stop Unit :=
  if s.inLen < 4 then .ok ()
  else
    match memRead s 0 4 with
    | .error x => .error x
    | .ok m => if m = magicBytes then .ok () else .error (.raise .invalidMagic)

/-- `decode_header()` (40_header_and_marker.md R101). -/
def fetchHeader (s : State) : Except Stop Instr :=
  match checkMagic s with
  | .error x => .error x
  | .ok () =>
    if s.inLen < 14 then .error (.raise .truncatedHeader)
    else
      match memRead s 0 14 with
      | .error x => .error x
      | .ok bytes => decodeUnit .header bytes

/-- The tag, then the whole chunk its tag announces (43_chunk_decoder.md R171, 30_encoding.md R72). -/
def fetchChunk (s : State) : Except Stop Instr :=
  match memRead s s.pc 1 with
  | .error x => .error x
  | .ok [] => .error .noStep
  | .ok (t :: _) =>
    match memRead s s.pc (chunkLength t) with
    | .error x => .error x
    | .ok bytes => decodeUnit .chunk bytes

/-- The eight bytes at `pc`, compared with the marker (43_chunk_decoder.md R182). -/
def fetchMarker (s : State) : Except Stop Instr :=
  match memRead s s.pc 8 with
  | .error x => .error x
  | .ok bytes => decodeUnit .marker bytes

/-- The pixel step's chunk (42_chunk_encoder.md R142). -/
def fetchSelected (s : State) : Except Stop Instr :=
  match fetchPixel s with
  | .error x => .error x
  | .ok p => .ok (selectChunk p s)

/-- The instruction of the one enabled step (10_state.md R31, 44_commands.md R204). -/
def currentInstr (s : State) : Except Stop Instr :=
  if headerEnabled s then
    match s.mode with
    | .dec => fetchHeader s
    | .enc => .ok (.header s.width s.height s.channels s.colorspace)
  else if bodyEnabled s then
    match s.mode with
    | .dec => fetchChunk s
    | .enc => fetchSelected s
  else if tailEnabled s then
    match s.mode with
    | .dec => fetchMarker s
    | .enc => .ok .endMarker
  else .error .noStep

end Sys2Proof.Machine
end

