-- ==== Sys2Proof/Machine/HostPort.lean ====
section
/-! DEFINITION. What the host can do to the block: register reads and writes (10_state.md R43), the buffers
(20_memory.md R50, R63), hardware reset (70_reset_and_hazards.md R250). Commands are instructions
(Machine/Commands.lean). -/

namespace Sys2Proof.Machine

open Sys2Proof

/-- Register numbers (10_state.md R34 to R42). -/
def regNumber : Reg → Nat
  | .cmd => 0
  | .status => 1
  | .err => 2
  | .width => 3
  | .height => 4
  | .channels => 5
  | .colorspace => 6
  | .inLen => 7
  | .outLen => 8

/-- A host read of a register; it has no side effect, and `CMD` reads 0 (10_state.md R34, R43). -/
def readReg (reg : Reg) (s : State) : Nat :=
  match reg with
  | .cmd => 0
  | .status => s.status.toNat
  | .err => s.err.toNat
  | .width => s.width.toNat
  | .height => s.height.toNat
  | .channels => s.channels.toNat
  | .colorspace => s.colorspace.toNat
  | .inLen => s.inLen
  | .outLen => s.outLen

/-- A host write of a host-owned register that leaves `after`: ignored while BUSY (10_state.md R43). -/
def hostWrite (s after : State) : State := if busy s then s else after

/-- A host write of one byte of `IN` (20_memory.md R50). At or beyond `IN_LEN`, which R50 leaves open, the byte is stored
all the same: DESIGN CHOICE, notes/assumptions/23.md. While BUSY the host must not write (R63); if it does, what the engine
reads there is unconstrained (93_implementation_defined.md U13; notes/assumptions/8.md). -/
def hostWriteIn (addr : Nat) (v : Byte) (s : State) : State :=
  if busy s then { s with inBuf := s.inBuf.write addr (Config.freeByte s.fresh), fresh := s.fresh + 1 }
  else { s with inBuf := s.inBuf.write addr v }

/-- The host's last read returned `n`. -/
def hostReturns (n : Nat) (s : State) : State := { s with rdata := n }

/-- The host's last read returned an unconstrained byte (93_implementation_defined.md U8). -/
def hostReturnsFree (s : State) : State :=
  { s with rdata := (Config.freeByte s.fresh).toNat, fresh := s.fresh + 1 }

/-- A host read of one byte of `IN`: no value where nothing has written (notes/assumptions/7.md). At or beyond `IN_LEN`,
which 20_memory.md R50 leaves open, it returns what was written there: DESIGN CHOICE, notes/assumptions/23.md. -/
def hostReadIn (addr : Nat) (s : State) : State :=
  match s.inBuf.read addr with
  | some v => hostReturns v.toNat s
  | none => hostReturnsFree s

/-- A host read of one byte of `OUT`: defined when `STATUS = DONE` and below `OUT_LEN` (44_commands.md R205); elsewhere
unconstrained (93_implementation_defined.md U8; notes/assumptions/7.md). -/
def hostReadOut (addr : Nat) (s : State) : State :=
  if s.ph = .done ∧ addr < s.outLen then
    match s.outBuf.read addr with
    | some v => hostReturns v.toNat s
    | none => hostReturnsFree s
  else hostReturnsFree s

/-- A host access to one byte of a buffer: the byte exists below `BUF_BYTES_MAX` (20_memory.md R51). -/
def bufferAccess (addr : Nat) (s t : State) : Host.Outcome State Fault Refusal :=
  if fits s.cfg (addr + 1) then .next t else .fault (.noSuchByte addr)

end Sys2Proof.Machine
end

