-- ==== Sys2Proof/Machine/Engine.lean ====
section
/-! DEFINITION. Whose turn it is and what it does: the host's next move, or the engine's one enabled step
(10_state.md R31, 44_commands.md R204, R206, R207). Step.lean only calls it. -/

namespace Sys2Proof.Machine

open Sys2Proof

/-- One step of the engine (10_state.md R31). In IDLE, DONE and ERROR it has no step and every register keeps its
value (60_exceptions.md R242; notes/assumptions/10.md), and a refused transaction has no further steps (R243;
notes/assumptions/13.md). -/
def engineStep (s : State) : Host.Outcome State Fault Refusal :=
  if busy s && !s.halted then
    match currentInstr s with
    | .ok i => exec i s
    | .error x => conclude s (.error x)
  else .next s

/-- One move of the host in `s`, the move already taken off the list. `CMD` values 0 and 3 and writes of read-only
registers have no effect (44_commands.md R202, 10_state.md R43). -/
def hostMove (op : HostOp) (s : State) : Host.Outcome State Fault Refusal :=
  match op with
  | .writeCmd v =>
    match decodeCommand v with
    | some i => exec i s
    | none => .next s
  | .writeStatus _ => .next s
  | .writeErr _ => .next s
  | .writeOutLen _ => .next s
  | .writeWidth v => .next (hostWrite s { s with width := v, written := { s.written with width := true } })
  | .writeHeight v => .next (hostWrite s { s with height := v, written := { s.written with height := true } })
  | .writeChannels v => .next (hostWrite s { s with channels := v, written := { s.written with channels := true } })
  | .writeColorspace v => .next (hostWrite s { s with colorspace := v, written := { s.written with colorspace := true } })
  | .writeInLen n => .next (hostWrite s { s with inLen := n, written := { s.written with inLen := true } })
  | .writeIn addr v => bufferAccess addr s (hostWriteIn addr v s)
  | .readReg reg => .next (hostReturns (readReg reg s) s)
  | .readIn addr => bufferAccess addr s (hostReadIn addr s)
  | .readOut addr => bufferAccess addr s (hostReadOut addr s)
  | .engine => engineStep s
  | .reset => .next (hardReset s)

/-- One step of the whole machine: the host's next move if it has one listed, else the engine's step
(DESIGN CHOICE, notes/assumptions/5.md). -/
def turn (s : State) : Host.Outcome State Fault Refusal :=
  match s.host with
  | [] => engineStep s
  | op :: rest => hostMove op { s with host := rest }

/-- A state in which the very next step runs the instruction whose bytes are given, standing at `place`
(notes/assumptions/14.md). For a chunk at least 62 pixels are left, the longest run. -/
def placeInstr (s : State) (place : Place) (bytes : List Byte) : State :=
  match place with
  | .command => { s with host := .writeCmd (BitVec.setWidth 2 (bytes.headD 0)) :: s.host }
  | .header =>
    { s with
      mode := .dec, ph := .hdr, pc := 0
      inBuf := s.inBuf.writeBytes 0 bytes, inLen := bytes.length, written := { s.written with inLen := true }
      halted := false, host := .engine :: s.host }
  | .chunk =>
    { s with
      mode := .dec, ph := .body, npx := s.px + 62
      channels := if s.channels = 3 then 3 else 4
      inBuf := s.inBuf.writeBytes s.pc bytes, inLen := s.pc + bytes.length, written := Written.everything
      halted := false, host := .engine :: s.host }
  | .marker =>
    { s with
      mode := .dec, ph := .body, npx := s.px
      channels := if s.channels = 3 then 3 else 4
      inBuf := s.inBuf.writeBytes s.pc bytes, inLen := s.pc + bytes.length, written := Written.everything
      halted := false, host := .engine :: s.host }

end Sys2Proof.Machine
end

