-- ==== Sys2Proof/Machine/Step.lean ====
section
/-! DEFINITION. The step function and the placing of one instruction, both by call. -/

namespace Sys2Proof.Machine

open Sys2Proof

/-- One step of the machine (Machine/Engine.lean). -/
def step (s : State) : Host.Outcome State Fault Refusal := turn s

/-- `s` with the instruction of a table word placed so that the very next step runs it (notes/assumptions/14.md). -/
def State.withFetchWord (s : State) (nbits w : Nat) : State :=
  placeInstr s (tablePlace nbits (w % 2 ^ nbits)) (tableBytes nbits (w % 2 ^ nbits))

end Sys2Proof.Machine
end

