-- ==== Sys2Proof/Safety.lean ====
section
/-! DEFINITION. What the claims are stated in: the invariant of the block, the pure reading of a chunk stream, and the
two stream invariants that tie the buffers to it (10_state.md R24 to R36, 41_pixel_history.md R124,
43_chunk_decoder.md R183, R184). -/

namespace Sys2Proof.Machine

open Sys2Proof

/-- The part of the pixel history both directions keep in lock step (41_pixel_history.md). -/
structure History where
  cache : Vector Pixel 64
  prev : Pixel
  deriving DecidableEq, Repr

/-- The history at stream start (10_state.md R46). -/
def History.start : History :=
  { cache := Vector.replicate 64 Pixel.zero, prev := { r := 0, g := 0, b := 0, a := 255 } }

/-- `cache[i]`. -/
def History.slot (h : History) (i : BitVec 6) : Pixel := h.cache[i.toNat]'i.isLt

/-- `commit(p)` (41_pixel_history.md R123). -/
def History.learn (h : History) (p : Pixel) : History :=
  { cache := h.cache.set (hashIndex p).toNat p (hashIndex p).isLt, prev := p }

/-- The history a state holds. -/
def historyOf (s : State) : History := { cache := s.cache, prev := s.prev }

/-- 41_pixel_history.md R124: nothing but runs so far, or the slot of `prev` holds `prev`. -/
abbrev HistoryOk (h : History) : Prop := h = History.start ∨ h.slot (hashIndex h.prev) = h.prev

/-- Both buffers are in canonical form. -/
abbrev MemoryInv (s : State) : Prop := Mem.wf s.inBuf = true ∧ Mem.wf s.outBuf = true

/-- `ERR` is a code 1..8 in ERROR and 0 in every other phase (10_state.md R36, 60_exceptions.md R221). -/
abbrev ErrInv (s : State) : Prop :=
  (s.ph = .error → 1 ≤ s.err.toNat ∧ s.err.toNat ≤ 8) ∧ (s.ph ≠ .error → s.err = 0)

/-- `OUT_LEN` is 0 unless the transaction completed (10_state.md R42). -/
abbrev OutLenInv (s : State) : Prop := s.ph ≠ .done → s.outLen = 0

/-- `run` is 0..62, and 0 in decode mode (10_state.md R24). -/
abbrev RunInv (s : State) : Prop := s.run.toNat ≤ 62 ∧ (s.mode = .dec → s.run = 0)

/-- Phase HDR: the stream-start values still stand (10_state.md R46). -/
abbrev HdrInv (s : State) : Prop :=
  s.ph = .hdr → s.pc = 0 ∧ s.wp = 0 ∧ s.px = 0 ∧ s.run = 0 ∧ historyOf s = History.start

/-- Phase BODY in either mode (10_state.md R28, R29; 40_header_and_marker.md R102; 41_pixel_history.md R124). -/
abbrev BodyInv (s : State) : Prop :=
  s.ph = .body →
    s.px ≤ s.npx ∧ s.npx = pixelTotal s.width s.height ∧ (s.channels = 3 ∨ s.channels = 4) ∧
      (s.cfg.strict = true → s.colorspace = 0 ∨ s.colorspace = 1) ∧ HistoryOk (historyOf s)

/-- Phase BODY of an encode: `pc`, `IN_LEN`, `wp`, `run`, and the alpha of three-channel data (10_state.md R26, R27, R24;
42_chunk_encoder.md R140, R141, R150). -/
abbrev EncBodyInv (s : State) : Prop :=
  s.ph = .body → s.mode = .enc →
    s.pc = s.px * s.channels.toNat ∧ s.inLen = s.npx * s.channels.toNat ∧ 14 ≤ s.wp ∧ s.run.toNat ≤ s.px ∧
      (s.channels = 3 → s.prev.a = 255)

/-- Phase BODY of a decode: `wp` and `pc` (10_state.md R26, R27; 20_memory.md R52). -/
abbrev DecBodyInv (s : State) : Prop :=
  s.ph = .body → s.mode = .dec → s.wp = s.px * s.channels.toNat ∧ 14 ≤ s.pc ∧ s.pc ≤ s.inLen

/-- Phase DONE (10_state.md R28, R42; 42_chunk_encoder.md R156). -/
abbrev DoneInv (s : State) : Prop :=
  s.ph = .done → s.px = s.npx ∧ s.outLen = s.wp ∧ s.run = 0 ∧ (s.mode = .enc → 22 ≤ s.outLen)

/-- Phase BODY: every register the transaction reads has been written, or it has no further steps (60_exceptions.md R243
case 2; 42_chunk_encoder.md R140, 43_chunk_decoder.md R170; notes/assumptions/22.md). -/
abbrev WrittenInv (s : State) : Prop :=
  s.ph = .body → s.halted = false → s.written.inLen = true ∧ s.written.geometry = true

/-- A transaction without further steps carries the mark, and never completes (60_exceptions.md R243;
notes/assumptions/13.md). -/
abbrev HaltedInv (s : State) : Prop :=
  s.halted = true → s.refused = true ∧ s.ph ≠ .idle ∧ s.ph ≠ .done

/-- The invariant of the block. -/
structure Inv (s : State) : Prop where
  memory : MemoryInv s
  err : ErrInv s
  outLen : OutLenInv s
  run : RunInv s
  hdr : HdrInv s
  body : BodyInv s
  encBody : EncBodyInv s
  decBody : DecBodyInv s
  done : DoneInv s
  written : WrittenInv s
  halted : HaltedInv s

/-! The pure reading of a chunk stream (43_chunk_decoder.md R171 to R178). -/

/-- A history after one more pixel that is no run. -/
def History.single (h : History) (p : Pixel) : List Pixel × History := ([p], h.learn p)

/-- The pixels one chunk gives and the history after it; a frame or command gives none. -/
def History.chunk (h : History) : Instr → List Pixel × History
  | .rgb r g b => h.single (pixelOfRgb r g b h.prev)
  | .rgba r g b a => h.single (pixelOfRgba r g b a)
  | .index idx => h.single (h.slot idx)
  | .diff dr2 dg2 db2 => h.single (pixelOfDiff dr2 dg2 db2 h.prev)
  | .luma dg32 drdg8 dbdg8 => h.single (pixelOfLuma dg32 drdg8 dbdg8 h.prev)
  | .run len1 => (List.replicate (runLength len1) h.prev, h)
  | .header _ _ _ _ => ([], h)
  | .endMarker => ([], h)
  | .startEncode => ([], h)
  | .startDecode => ([], h)

/-- The pixels of a byte list that is nothing but chunks, and the history after them; at most `fuel` chunks. -/
def decodeChunks : Nat → History → List Byte → Option (List Pixel × History)
  | _, h, [] => some ([], h)
  | 0, _, _ :: _ => none
  | fuel + 1, h, b :: bs =>
    match decodeChunk (b :: bs) with
    | .error _ => none
    | .ok (i, rest) =>
      match decodeChunks fuel (h.chunk i).2 rest with
      | none => none
      | some (ps, h') => some ((h.chunk i).1 ++ ps, h')

/-- The chunk stream `bs` from stream start. -/
def streamPixels (bs : List Byte) : Option (List Pixel × History) := decodeChunks bs.length History.start bs

/-- Pixel number `k` of a raw buffer with `c` bytes per pixel (20_memory.md R59). -/
def rawPixel (m : Mem) (c : Byte) (k : Nat) : Option Pixel :=
  match m.readBytes (k * c.toNat) c.toNat with
  | some bs => pixelOfBytes c bs
  | none => none

/-- 10_state.md R25: `OUT` holds the header and then chunks that read as exactly the first `px - run` pixels of `IN`;
the `run` pixels after them equal `prev`. -/
def EncodedSoFar (s : State) : Prop :=
  ∃ bs ps,
    s.outBuf.readBytes 0 s.wp = some (encode (.header s.width s.height s.channels s.colorspace) ++ bs) ∧
      streamPixels bs = some (ps, historyOf s) ∧ ps.length + s.run.toNat = s.px ∧
      (∀ k p, ps[k]? = some p → rawPixel s.inBuf s.channels k = some p) ∧
      (∀ k, ps.length ≤ k → k < s.px → rawPixel s.inBuf s.channels k = some s.prev)

/-- 42_chunk_encoder.md R156, R157: the surfaced `OUT` is the header, chunks that read as all pixels of `IN`, and the
marker. -/
def EncodedWhole (s : State) : Prop :=
  ∃ bs ps,
    s.outBuf.readBytes 0 s.outLen =
        some (encode (.header s.width s.height s.channels s.colorspace) ++ bs ++ endMarkerBytes) ∧
      streamPixels bs = some (ps, historyOf s) ∧ ps.length = s.npx ∧
      (∀ k p, ps[k]? = some p → rawPixel s.inBuf s.channels k = some p)

/-- What an encode leaves in `OUT`, at every step boundary of BODY and at DONE. -/
def EncoderStream (s : State) : Prop :=
  s.mode = .enc → (s.ph = .body → EncodedSoFar s) ∧ (s.ph = .done → EncodedWhole s)

/-- `IN` begins with the header the geometry registers hold (43_chunk_decoder.md R170). -/
abbrev HeaderRead (s : State) : Prop :=
  s.inBuf.readBytes 0 14 = some (encode (.header s.width s.height s.channels s.colorspace))

/-- 43_chunk_decoder.md R184: `IN` is the header and then, up to `pc`, chunks that read as the pixels in `OUT`; only a run
cut by the policy `truncate` reads as more pixels than were produced, and then none is missing (R177). -/
def DecodedSoFar (s : State) : Prop :=
  HeaderRead s ∧
  ∃ bs ps,
    s.inBuf.readBytes 14 (s.pc - 14) = some bs ∧ streamPixels bs = some (ps, historyOf s) ∧ s.px ≤ ps.length ∧
      (s.px < ps.length → s.px = s.npx ∧ s.cfg.overshoot = .truncate) ∧
      s.outBuf.readBytes 0 s.wp = some ((ps.take s.px).flatMap (pixelBytes s.channels))

/-- 43_chunk_decoder.md R182, R184: `IN` up to `pc` is the header, chunks and the marker, and the surfaced `OUT` is the
first `npx` pixels the chunks read as; more than `npx` only where `truncate` cut a run. -/
def DecodedWhole (s : State) : Prop :=
  HeaderRead s ∧ 22 ≤ s.pc ∧ s.inBuf.readBytes (s.pc - 8) 8 = some endMarkerBytes ∧
  ∃ bs ps,
    s.inBuf.readBytes 14 (s.pc - 8 - 14) = some bs ∧ streamPixels bs = some (ps, historyOf s) ∧ s.npx ≤ ps.length ∧
      (s.npx < ps.length → s.cfg.overshoot = .truncate) ∧
      s.outBuf.readBytes 0 s.outLen = some ((ps.take s.npx).flatMap (pixelBytes s.channels))

/-- What a decode leaves in `OUT`, at every step boundary of BODY and at DONE. -/
def DecoderStream (s : State) : Prop :=
  s.mode = .dec → (s.ph = .body → DecodedSoFar s) ∧ (s.ph = .done → DecodedWhole s)

/-! The words of the per-instruction claims: when a step may run, what it stores, what it learns, what it leaves. -/

/-- Bytes per pixel of the raw buffer on the decoder's side (43_chunk_decoder.md R179). -/
def bytesPerPixel (c : Byte) : Nat := if c = 4 then 4 else 3

/-- A pixel in the raw buffer at address `a`, with `c` channels (42_chunk_encoder.md R141). -/
def PixelAt (m : Mem) (a : Nat) (c : Byte) (p : Pixel) : Prop :=
  (c = 4 ∧ m.readBytes a 4 = some [p.r, p.g, p.b, p.a]) ∨
    (c = 3 ∧ m.readBytes a 3 = some [p.r, p.g, p.b] ∧ p.a = 255)

/-- `m'` is `m` with the string `bs` stored from address `a` up, and every other byte as before. -/
def Stored (m m' : Mem) (a : Nat) (bs : List Byte) : Prop :=
  ∀ k, m'.read k = if a ≤ k ∧ k < a + bs.length then bs[k - a]? else m.read k

/-- `t`'s cache is `s`'s with `p` in the slot `(3r + 5g + 7b + 11a) mod 64` (41_pixel_history.md R120, R122). -/
def Learned (s t : State) (p : Pixel) : Prop :=
  ∀ i : BitVec 6,
    readSlot t i =
      if i.toNat = (p.r.toNat * 3 + p.g.toNat * 5 + p.b.toNat * 7 + p.a.toNat * 11) % 64 then p else readSlot s i

/-- `p` is `prev` with each colour component shifted modulo 256, alpha kept (41_pixel_history.md R128). -/
def Shifted (prev : Pixel) (dr dg db : Int) (p : Pixel) : Prop :=
  (p.r.toNat : Int) = (prev.r.toNat + dr) % 256 ∧ (p.g.toNat : Int) = (prev.g.toNat + dg) % 256 ∧
    (p.b.toNat : Int) = (prev.b.toNat + db) % 256 ∧ p.a = prev.a

/-- The header step is the enabled one (10_state.md R31). -/
def HdrReady (s : State) : Prop := s.ph = .hdr

/-- The chunk step is the enabled one (10_state.md R31, 43_chunk_decoder.md R171). -/
def DecReady (s : State) : Prop := s.mode = .dec ∧ s.ph = .body ∧ s.px < s.npx

/-- The pixel step is the enabled one and `p` is the pixel at `pc` (42_chunk_encoder.md R141, R142). -/
def EncReady (s : State) (p : Pixel) : Prop :=
  s.mode = .enc ∧ s.ph = .body ∧ s.px < s.npx ∧ s.pc + s.channels.toNat ≤ s.inLen ∧
    fits s.cfg (s.pc + s.channels.toNat) = true ∧ PixelAt s.inBuf s.pc s.channels p

/-- The tail step of the given mode is the enabled one (10_state.md R31). -/
def TailReady (s : State) (m : Mode) : Prop := s.mode = m ∧ s.ph = .body ∧ s.px = s.npx

/-- The bytes at `pc` are `bs`, all below `IN_LEN`, written, and within the capacity (20_memory.md R51, R52). -/
def StreamHas (s : State) (bs : List Byte) : Prop :=
  s.inBuf.readBytes s.pc bs.length = some bs ∧ s.pc + bs.length ≤ s.inLen ∧ fits s.cfg (s.pc + bs.length) = true

/-- `n` more bytes of `OUT` lie within the capacity (20_memory.md R51). -/
def Room (s : State) (n : Nat) : Prop := fits s.cfg (s.wp + n) = true

/-- The engine moves next, from `u`: the host has no move listed, or stands aside for one step. -/
def EngineTurn (s u : State) : Prop :=
  (s.host = [] ∧ u = s) ∨ (∃ rest, s.host = .engine :: rest ∧ u = { s with host := rest })

/-- The engine moves next, from `u`, in a transaction that has not been refused (60_exceptions.md R243). -/
def EngineRuns (s u : State) : Prop := EngineTurn s u ∧ u.halted = false

/-- The frame and effect of one decoded pixel `p` from a chunk of `n` bytes (43_chunk_decoder.md R178, R179): every
field not named is unchanged, and so is every byte of `OUT` outside the pixel's. -/
structure Produced (s : State) (p : Pixel) (n : Nat) (t : State) : Prop where
  frame : t = { s with
    cache := t.cache, prev := p, outBuf := t.outBuf, wp := s.wp + bytesPerPixel s.channels, px := s.px + 1, pc := s.pc + n }
  cache : Learned s t p
  out : Stored s.outBuf t.outBuf s.wp (if s.channels = 4 then [p.r, p.g, p.b, p.a] else [p.r, p.g, p.b])

/-- The frame and effect of `n` decoded repeats of `prev` (43_chunk_decoder.md R177). -/
structure Repeated (s : State) (n : Nat) (t : State) : Prop where
  frame : t = { s with
    outBuf := t.outBuf, wp := s.wp + n * bytesPerPixel s.channels, px := s.px + n, pc := s.pc + 1 }
  out : Stored s.outBuf t.outBuf s.wp
    (List.replicate n
      (if s.channels = 4 then [s.prev.r, s.prev.g, s.prev.b, s.prev.a] else [s.prev.r, s.prev.g, s.prev.b])).flatten

/-- What a flush emits (41_pixel_history.md R126): `0xC0 + (run - 1)` when a run is open, else nothing. -/
def pendingRun (run : BitVec 6) : List Byte :=
  if run.toNat = 0 then [] else [BitVec.ofNat 8 (0xC0 + (run.toNat - 1))]

/-- The frame and effect of a pixel step that emits the chunk `bytes` for pixel `p` (42_chunk_encoder.md R142, R144,
R151): the pending run first, then the chunk, then the commit. -/
structure Emitted (s : State) (p : Pixel) (bytes : List Byte) (t : State) : Prop where
  frame : t = { s with
    cache := t.cache, prev := p, run := 0, outBuf := t.outBuf
    wp := s.wp + (pendingRun s.run ++ bytes).length, pc := s.pc + s.channels.toNat, px := s.px + 1 }
  cache : Learned s t p
  out : Stored s.outBuf t.outBuf s.wp (pendingRun s.run ++ bytes)

/-- `dr`, `dg` or `db` (42_chunk_encoder.md R147). -/
def delta (x y : Byte) : Int := s8 ((x.toNat : Int) - (y.toNat : Int))

/-- The condition of 42_chunk_encoder.md R147 but for R146's. -/
def DiffFits (p q : Pixel) : Prop :=
  p.a = q.a ∧ -2 ≤ delta p.r q.r ∧ delta p.r q.r ≤ 1 ∧ -2 ≤ delta p.g q.g ∧ delta p.g q.g ≤ 1 ∧
    -2 ≤ delta p.b q.b ∧ delta p.b q.b ≤ 1

/-- The condition of 42_chunk_encoder.md R148 but for R146's and R147's. -/
def LumaFits (p q : Pixel) : Prop :=
  p.a = q.a ∧ -32 ≤ delta p.g q.g ∧ delta p.g q.g ≤ 31 ∧
    -8 ≤ delta p.r q.r - delta p.g q.g ∧ delta p.r q.r - delta p.g q.g ≤ 7 ∧
    -8 ≤ delta p.b q.b - delta p.g q.g ∧ delta p.b q.b - delta p.g q.g ≤ 7

/-! The situations of 60_exceptions.md R243. -/

/-- The step the engine has next in `s` is a body step of mode `m` (10_state.md R31). -/
def BodyStep (s : State) (m : Mode) : Prop := s.ph = .body ∧ s.mode = m ∧ s.px < s.npx

/-- The step the engine has next makes `MemRead(a, n)` when the reads before it succeed (40_header_and_marker.md R101,
43_chunk_decoder.md R171, R182, 42_chunk_encoder.md R141). -/
inductive StepReads (s : State) : Nat → Nat → Prop where
  | magic (hp : s.ph = .hdr) (hm : s.mode = .dec) (hl : 4 ≤ s.inLen) : StepReads s 0 4
  | header (hp : s.ph = .hdr) (hm : s.mode = .dec) (hl : 14 ≤ s.inLen)
      (hb : s.inBuf.readBytes 0 4 = some [0x71, 0x6F, 0x69, 0x66]) : StepReads s 0 14
  | tag (hb : BodyStep s .dec) : StepReads s s.pc 1
  | chunk {t} (hb : BodyStep s .dec) (ht : s.inBuf.read s.pc = some t) : StepReads s s.pc (chunkLength t)
  | marker (hp : s.ph = .body) (hm : s.mode = .dec) (hx : s.px = s.npx) : StepReads s s.pc 8
  | pixel (hb : BodyStep s .enc) : StepReads s s.pc s.channels.toNat

/-- The step the engine has next emits `n` bytes at `wp` when its reads and checks succeed (42_chunk_encoder.md R140, R142,
R145, R156; 43_chunk_decoder.md R177, R179). -/
inductive StepEmits (s : State) : Nat → Prop where
  | encodeHeader (hp : s.ph = .hdr) (hm : s.mode = .enc) (hc : s.channels = 3 ∨ s.channels = 4)
      (hs : s.cfg.strict = true → s.colorspace = 0 ∨ s.colorspace = 1)
      (hl : s.inLen = s.width.toNat * s.height.toNat * s.channels.toNat) : StepEmits s 14
  | encodeChunk {p} (hb : BodyStep s .enc) (hp : PixelAt s.inBuf s.pc s.channels p) (hne : p ≠ s.prev) :
      StepEmits s (pendingRun s.run ++ encode (selectChunk p s)).length
  | encodeRun (hb : BodyStep s .enc) (hp : PixelAt s.inBuf s.pc s.channels s.prev) (hr : s.run = 62) : StepEmits s 1
  | encodeEnd (hp : s.ph = .body) (hm : s.mode = .enc) (hx : s.px = s.npx) :
      StepEmits s ((pendingRun s.run).length + 8)
  | decodePixel {i} (hb : BodyStep s .dec) (hi : currentInstr s = .ok i) (hl : ∀ len1, i ≠ .run len1) :
      StepEmits s (bytesPerPixel s.channels)
  | decodeRun {len1} (hb : BodyStep s .dec) (hi : currentInstr s = .ok (.run len1))
      (ho : s.px + runLength len1 ≤ s.npx ∨ s.cfg.overshoot = .truncate) :
      StepEmits s (min (runLength len1) (s.npx - s.px) * bytesPerPixel s.channels)

/-- 60_exceptions.md R243, but for the registers of case 2: the situations in which the step the engine has next has no
meaning and no effect but the mark. Case 1 is `fieldsEncode` and `fieldsDecode`, the bytes of case 2 are `byte`, case 3 is `readBeyond` and
`writeBeyond`. -/
inductive NoMeaning (s : State) : Prop where
  | fieldsEncode (hp : s.ph = .hdr) (hm : s.mode = .enc) (hs : s.cfg.strict = false) (h3 : s.channels ≠ 3)
      (h4 : s.channels ≠ 4)
  | fieldsDecode {b c} (hp : s.ph = .hdr) (hm : s.mode = .dec) (hs : s.cfg.strict = false) (hl : 14 ≤ s.inLen)
      (hb : s.inBuf.readBytes 0 14 = some b) (hq : b.take 4 = [0x71, 0x6F, 0x69, 0x66]) (hc : b[12]? = some c)
      (h3 : c ≠ 3) (h4 : c ≠ 4)
  | byte {a n k} (hr : StepReads s a n) (hl : a + n ≤ s.inLen) (hk : k < n) (hb : s.inBuf.read (a + k) = none)
  | readBeyond {a n} (hr : StepReads s a n) (hl : a + n ≤ s.inLen) (hf : fits s.cfg (a + n) = false)
  | writeBeyond {n} (he : StepEmits s n) (hf : fits s.cfg (s.wp + n) = false)

/-- 60_exceptions.md R243 case 2, its registers: the step the engine has next reads a register that nothing has written
since reset (`WIDTH`, `HEIGHT`, `CHANNELS`, `COLORSPACE`, `IN_LEN` in an encode, `IN_LEN` in a decode). -/
def Unwritten (s : State) : Prop :=
  s.ph = .hdr ∧
    (s.written.inLen = false ∨
      s.mode = .enc ∧
        (s.written.width = false ∨ s.written.height = false ∨ s.written.channels = false ∨ s.written.colorspace = false))

/-- The numeric content of the geometry registers is unchanged. -/
def SameGeometry (s t : State) : Prop :=
  t.width = s.width ∧ t.height = s.height ∧ t.channels = s.channels ∧ t.colorspace = s.colorspace

end Sys2Proof.Machine
end

