-- ==== Sys2Proof/Certificates/Slice0/Obligations.lean ====
section
/-! DEFINITION. The statements for the provers. Each docstring names the rule it formalises; "derived" ones say what
they rest on. OBLIGATIONS.json lists them. -/

open Sys2Proof Sys2Proof.Machine

/-! ## Encoding -/

/-- 30_encoding.md R71, R74 to R80, R83, 10_state.md R34: decoding an encoded well-formed instruction gives it back,
every operand at every value, and leaves the rest of the bytes. -/
def Obligations.DecodeOfEncode : Prop :=
  ∀ (i : Instr) (rest : List Byte), i.wf = true → decodeAt i.place (encode i ++ rest) = .ok (i, rest)

/-- 30_encoding.md R85 (no chunk has a second spelling): what the decoder reads is the encoding of what it answers. -/
def Obligations.EncodeOfDecode : Prop :=
  ∀ (place : Place) (bytes : List Byte) (i : Instr) (rest : List Byte),
    decodeAt place bytes = .ok (i, rest) → i.wf = true ∧ i.place = place ∧ encode i ++ rest = bytes

/-- 30_encoding.md R86: the worked encodings. -/
def Obligations.WorkedEncodings : Prop :=
  decodeAt .chunk [0x35] = .ok (.index 53, []) ∧
  decodeAt .chunk [0x5B] = .ok (.diff (withBias 2 (-1) 2) (withBias 2 0 2) (withBias 2 1 2), []) ∧
  decodeAt .chunk [0x6A] = .ok (.diff (withBias 2 0 2) (withBias 2 0 2) (withBias 2 0 2), []) ∧
  decodeAt .chunk [0xA6, 0xB5] = .ok (.luma (withBias 6 6 32) (withBias 4 3 8) (withBias 4 (-3) 8), []) ∧
  decodeAt .chunk [0x80, 0x0F] = .ok (.luma (withBias 6 (-32) 32) (withBias 4 (-8) 8) (withBias 4 7 8), []) ∧
  decodeAt .chunk [0xC0] = .ok (.run (withBias 6 1 (-1)), []) ∧
  decodeAt .chunk [0xFD] = .ok (.run (withBias 6 62 (-1)), []) ∧
  decodeAt .chunk [0xFE, 0x0A, 0x14, 0x1E] = .ok (.rgb 10 20 30, []) ∧
  decodeAt .chunk [0xFF, 0xFA, 0x0A, 0x05, 0x80] = .ok (.rgba 250 10 5 128, []) ∧
  decodeAt .header [0x71, 0x6F, 0x69, 0x66, 0, 0, 0, 1, 0, 0, 0, 1, 4, 0] = .ok (.header 1 1 4 0, [])

/-- 30_encoding.md R81: all 256 values of the tag byte are assigned, as the table there says. -/
def Obligations.EveryTagIsAChunk : Prop :=
  ∀ (t : Byte) (rest : List Byte),
    (t.toNat ≤ 0x3F → ∃ idx, decodeChunk (t :: rest) = .ok (.index idx, rest) ∧ idx.toNat = t.toNat) ∧
    (0x40 ≤ t.toNat → t.toNat ≤ 0x7F → ∃ r g b, decodeChunk (t :: rest) = .ok (.diff r g b, rest)) ∧
    (0x80 ≤ t.toNat → t.toNat ≤ 0xBF → ∀ b2, ∃ g r b, decodeChunk (t :: b2 :: rest) = .ok (.luma g r b, rest)) ∧
    (0xC0 ≤ t.toNat → t.toNat ≤ 0xFD →
      ∃ l, decodeChunk (t :: rest) = .ok (.run l, rest) ∧ runLength l = t.toNat - 0xBF) ∧
    (t.toNat = 0xFE → ∀ r g b, decodeChunk (t :: r :: g :: b :: rest) = .ok (.rgb r g b, rest)) ∧
    (t.toNat = 0xFF → ∀ r g b a, decodeChunk (t :: r :: g :: b :: a :: rest) = .ok (.rgba r g b a, rest))

/-- 30_encoding.md R72: the length of a chunk is a function of its tag alone, as the table there says. -/
def Obligations.LengthFollowsTag : Prop :=
  (∀ t : Byte,
    chunkLength t =
      if t.toNat ≤ 0x7F then 1
      else if t.toNat ≤ 0xBF then 2
      else if t.toNat ≤ 0xFD then 1
      else if t.toNat = 0xFE then 4
      else 5) ∧
  (∀ (t : Byte) (bs : List Byte) (i : Instr) (rest : List Byte),
    decodeChunk (t :: bs) = .ok (i, rest) → (t :: bs).length = chunkLength t + rest.length) ∧
  (∀ (t : Byte) (bs : List Byte), chunkLength t ≤ (t :: bs).length → ∃ i rest, decodeChunk (t :: bs) = .ok (i, rest))

/-- 30_encoding.md R80, R85: the stored field is the value plus its bias, and the bytes of a chunk are the sums the
table of R85 gives. -/
def Obligations.BytesFromFieldValues : Prop :=
  (∀ dr dg db : Int, -2 ≤ dr → dr ≤ 1 → -2 ≤ dg → dg ≤ 1 → -2 ≤ db → db ≤ 1 →
    encode (.diff (withBias 2 dr 2) (withBias 2 dg 2) (withBias 2 db 2)) =
      [BitVec.ofInt 8 (0x40 + (dr + 2) * 16 + (dg + 2) * 4 + (db + 2))] ∧
    unbias (withBias 2 dr 2) 2 = dr ∧ unbias (withBias 2 dg 2) 2 = dg ∧ unbias (withBias 2 db 2) 2 = db) ∧
  (∀ dg drdg dbdg : Int, -32 ≤ dg → dg ≤ 31 → -8 ≤ drdg → drdg ≤ 7 → -8 ≤ dbdg → dbdg ≤ 7 →
    encode (.luma (withBias 6 dg 32) (withBias 4 drdg 8) (withBias 4 dbdg 8)) =
      [BitVec.ofInt 8 (0x80 + (dg + 32)), BitVec.ofInt 8 ((drdg + 8) * 16 + (dbdg + 8))] ∧
    unbias (withBias 6 dg 32) 32 = dg ∧ unbias (withBias 4 drdg 8) 8 = drdg ∧ unbias (withBias 4 dbdg 8) 8 = dbdg) ∧
  (∀ len1 : BitVec 6, len1.toNat ≤ 61 →
    encode (.run len1) = [BitVec.ofNat 8 (0xC0 + (runLength len1 - 1))] ∧
      1 ≤ runLength len1 ∧ runLength len1 ≤ 62) ∧
  (∀ idx : BitVec 6, encode (.index idx) = [BitVec.ofNat 8 idx.toNat])

/-! ## Arithmetic and history -/

/-- 41_pixel_history.md R120: the hash, computed in any width of 6 bits or more with wrap-around, and its corner cases. -/
def Obligations.HashIsTheFormula : Prop :=
  (∀ p : Pixel,
    (hashIndex p).toNat = (p.r.toNat * 3 + p.g.toNat * 5 + p.b.toNat * 7 + p.a.toNat * 11) % 64 ∧
      ∀ k, 6 ≤ k →
        hashIndex p =
          (p.r.setWidth k * BitVec.ofNat k 3 + p.g.setWidth k * BitVec.ofNat k 5 + p.b.setWidth k * BitVec.ofNat k 7 +
            p.a.setWidth k * BitVec.ofNat k 11).setWidth 6) ∧
  hashIndex ⟨0, 0, 0, 0⟩ = 0 ∧ hashIndex ⟨0, 0, 0, 255⟩ = 53 ∧ hashIndex ⟨255, 255, 255, 255⟩ = 38 ∧
  hashIndex ⟨64, 0, 0, 255⟩ = 53 ∧ hashIndex ⟨10, 20, 30, 255⟩ = 9

/-- 41_pixel_history.md R123: after `commit(p)` the slot of `p` and `prev` hold `p`, every other slot and field is as
before, and the order of the two writes is not observable. -/
def Obligations.CommitWritesSlotAndPrev : Prop :=
  ∀ (p : Pixel) (s : State),
    readSlot (commit p s) (hashIndex p) = p ∧ (commit p s).prev = p ∧ Learned s (commit p s) p ∧
      commit p s = { s with cache := (commit p s).cache, prev := p } ∧
      commit p s = update p { s with prev := p }

/-- 41_pixel_history.md R129: adding the signed difference back gives the component, whatever the wrap. -/
def Obligations.DifferenceAddsBack : Prop :=
  ∀ x y : Byte, wrap8 ((y.toNat : Int) + s8 ((x.toNat : Int) - (y.toNat : Int))) = x

/-- 41_pixel_history.md R130: the second-order differences are plain integers, and testing a wrapped one instead would
give the same verdict. -/
def Obligations.SecondDifferenceWrapIsMoot : Prop :=
  (∀ dr dg : Int, -128 ≤ dr → dr ≤ 127 → -32 ≤ dg → dg ≤ 31 →
    ((-8 ≤ dr - dg ∧ dr - dg ≤ 7) ↔ (-8 ≤ s8 (dr - dg) ∧ s8 (dr - dg) ≤ 7))) ∧
  (∀ p q : Pixel, fitsLuma p q = true ↔ LumaFits p q)

/-! ## Decoding chunks -/

/-- 43_chunk_decoder.md R172: the pixel, the chunk it is read from, and its truncation. -/
def Obligations.DecodeRgb : Prop :=
  (∀ (r g b : Byte) (s : State), DecReady s → Room s (bytesPerPixel s.channels) →
    ∃ t, exec (.rgb r g b) s = .next t ∧ Produced s ⟨r, g, b, s.prev.a⟩ 4 t) ∧
  (∀ (s u : State) (r g b : Byte), EngineRuns s u → DecReady u → StreamHas u [0xFE, r, g, b] →
    step s = exec (.rgb r g b) u) ∧
  (∀ s u : State, EngineRuns s u → DecReady u → StreamHas u [0xFE] → u.inLen < u.pc + 4 →
    step s = .next (takeError .truncatedStream u))

/-- 43_chunk_decoder.md R173: the pixel, the chunk it is read from, and its truncation. -/
def Obligations.DecodeRgba : Prop :=
  (∀ (r g b a : Byte) (s : State), DecReady s → Room s (bytesPerPixel s.channels) →
    ∃ t, exec (.rgba r g b a) s = .next t ∧ Produced s ⟨r, g, b, a⟩ 5 t) ∧
  (∀ (s u : State) (r g b a : Byte), EngineRuns s u → DecReady u → StreamHas u [0xFF, r, g, b, a] →
    step s = exec (.rgba r g b a) u) ∧
  (∀ s u : State, EngineRuns s u → DecReady u → StreamHas u [0xFF] → u.inLen < u.pc + 5 →
    step s = .next (takeError .truncatedStream u))

/-- 43_chunk_decoder.md R174: the pixel is the slot's content; the update goes to slot `index(p)`, not to slot `idx`. -/
def Obligations.DecodeIndex : Prop :=
  (∀ (idx : BitVec 6) (s : State), DecReady s → Room s (bytesPerPixel s.channels) →
    ∃ t, exec (.index idx) s = .next t ∧ Produced s (readSlot s idx) 1 t) ∧
  (∀ (s u : State) (idx : BitVec 6), EngineRuns s u → DecReady u → StreamHas u [BitVec.ofNat 8 idx.toNat] →
    step s = exec (.index idx) u)

/-- 43_chunk_decoder.md R175: each component shifted by its field minus 2, modulo 256. -/
def Obligations.DecodeDiff : Prop :=
  (∀ (dr2 dg2 db2 : BitVec 2) (s : State), DecReady s → Room s (bytesPerPixel s.channels) →
    ∃ p t, Shifted s.prev ((dr2.toNat : Int) - 2) ((dg2.toNat : Int) - 2) ((db2.toNat : Int) - 2) p ∧
      exec (.diff dr2 dg2 db2) s = .next t ∧ Produced s p 1 t) ∧
  (∀ (s u : State) (dr2 dg2 db2 : BitVec 2), EngineRuns s u → DecReady u →
    StreamHas u [BitVec.ofNat 8 (0x40 + dr2.toNat * 16 + dg2.toNat * 4 + db2.toNat)] →
    step s = exec (.diff dr2 dg2 db2) u)

/-- 43_chunk_decoder.md R176: the pixel, the chunk it is read from, and its truncation. -/
def Obligations.DecodeLuma : Prop :=
  (∀ (dg32 : BitVec 6) (drdg8 dbdg8 : BitVec 4) (s : State), DecReady s → Room s (bytesPerPixel s.channels) →
    ∃ p t,
      Shifted s.prev (((dg32.toNat : Int) - 32) + drdg8.toNat - 8) ((dg32.toNat : Int) - 32)
        (((dg32.toNat : Int) - 32) + dbdg8.toNat - 8) p ∧
      exec (.luma dg32 drdg8 dbdg8) s = .next t ∧ Produced s p 2 t) ∧
  (∀ (s u : State) (dg32 : BitVec 6) (drdg8 dbdg8 : BitVec 4), EngineRuns s u → DecReady u →
    StreamHas u [BitVec.ofNat 8 (0x80 + dg32.toNat), BitVec.ofNat 8 (drdg8.toNat * 16 + dbdg8.toNat)] →
    step s = exec (.luma dg32 drdg8 dbdg8) u) ∧
  (∀ (s u : State) (t : Byte), EngineRuns s u → DecReady u → StreamHas u [t] → 0x80 ≤ t.toNat → t.toNat ≤ 0xBF →
    u.inLen < u.pc + 2 → step s = .next (takeError .truncatedStream u))

/-- 43_chunk_decoder.md R177: the run's pixels, or the overshoot by policy, and the byte it is read from. -/
def Obligations.DecodeRun : Prop :=
  (∀ (len1 : BitVec 6) (s : State), DecReady s →
    if s.px + (len1.toNat + 1) ≤ s.npx then
      Room s ((len1.toNat + 1) * bytesPerPixel s.channels) →
        ∃ t, exec (.run len1) s = .next t ∧ Repeated s (len1.toNat + 1) t
    else if s.cfg.overshoot = .fail then exec (.run len1) s = .next (takeError .pixelOverflow s)
    else
      Room s ((s.npx - s.px) * bytesPerPixel s.channels) →
        ∃ t, exec (.run len1) s = .next t ∧ Repeated s (s.npx - s.px) t ∧ t.px = s.npx ∧ t.err = s.err) ∧
  (∀ (s u : State) (len1 : BitVec 6), EngineRuns s u → DecReady u → len1.toNat ≤ 61 →
    StreamHas u [BitVec.ofNat 8 (0xC0 + len1.toNat)] → step s = exec (.run len1) u)

/-- 60_exceptions.md R225: `PixelOverflow` is raised by a run that would pass the pixel total under the policy `fail`, by
nothing else, and never under `truncate`. -/
def Obligations.OnlyRunsOverflow : Prop :=
  (∀ (len1 : BitVec 6) (s : State), DecReady s → s.npx < s.px + runLength len1 → s.cfg.overshoot = .fail →
    exec (.run len1) s = .next (takeError .pixelOverflow s)) ∧
  (∀ s u t : State, EngineTurn s u → step s = .next t → t.err = 4 → t.err ≠ u.err →
    u.mode = .dec ∧ u.ph = .body ∧ u.cfg.overshoot = .fail ∧
      ∃ len1, currentInstr u = .ok (.run len1) ∧ u.npx < u.px + runLength len1)

/-- 60_exceptions.md R224: every read point of phase BODY. The chunk or marker whose bytes are incomplete changes
nothing but what the error entry changes. -/
def Obligations.TruncatedStreamAtEveryRead : Prop :=
  (∀ s u : State, EngineRuns s u → DecReady u → u.inLen ≤ u.pc →
    step s = .next (takeError .truncatedStream u)) ∧
  (∀ (s u : State) (t : Byte), EngineRuns s u → DecReady u → StreamHas u [t] → u.inLen < u.pc + chunkLength t →
    step s = .next (takeError .truncatedStream u)) ∧
  (∀ s u : State, EngineRuns s u → TailReady u .dec → u.inLen < u.pc + 8 →
    step s = .next (takeError .truncatedStream u))

/-! ## Encoding chunks -/

/-- 42_chunk_encoder.md R146: the chunk the step emits after the flush, and what it leaves. -/
def Obligations.EncodeIndex : Prop :=
  ∀ (s : State) (p : Pixel), EncReady s p → p ≠ s.prev → readSlot s (hashIndex p) = p →
    Room s ((pendingRun s.run).length + 1) →
    currentInstr s = .ok (.index (hashIndex p)) ∧
    ∃ t, exec (.index (hashIndex p)) s = .next t ∧ Emitted s p [BitVec.ofNat 8 (hashIndex p).toNat] t

/-- 42_chunk_encoder.md R147: the chunk the step emits after the flush, and what it leaves. -/
def Obligations.EncodeDiff : Prop :=
  ∀ (s : State) (p : Pixel), EncReady s p → p ≠ s.prev → readSlot s (hashIndex p) ≠ p → DiffFits p s.prev →
    Room s ((pendingRun s.run).length + 1) →
    currentInstr s = .ok (diffOf p s.prev) ∧
    ∃ t, exec (diffOf p s.prev) s = .next t ∧
      Emitted s p
        [BitVec.ofInt 8 (0x40 + (delta p.r s.prev.r + 2) * 16 + (delta p.g s.prev.g + 2) * 4 + (delta p.b s.prev.b + 2))] t

/-- 42_chunk_encoder.md R148: the chunk the step emits after the flush, and what it leaves. -/
def Obligations.EncodeLuma : Prop :=
  ∀ (s : State) (p : Pixel), EncReady s p → p ≠ s.prev → readSlot s (hashIndex p) ≠ p → ¬ DiffFits p s.prev →
    LumaFits p s.prev → Room s ((pendingRun s.run).length + 2) →
    currentInstr s = .ok (lumaOf p s.prev) ∧
    ∃ t, exec (lumaOf p s.prev) s = .next t ∧
      Emitted s p
        [BitVec.ofInt 8 (0x80 + (delta p.g s.prev.g + 32)),
          BitVec.ofInt 8 ((delta p.r s.prev.r - delta p.g s.prev.g + 8) * 16 + (delta p.b s.prev.b - delta p.g s.prev.g + 8))] t

/-- 42_chunk_encoder.md R149: the chunk the step emits after the flush, and what it leaves. -/
def Obligations.EncodeRgb : Prop :=
  ∀ (s : State) (p : Pixel), EncReady s p → p ≠ s.prev → readSlot s (hashIndex p) ≠ p → ¬ DiffFits p s.prev →
    ¬ LumaFits p s.prev → p.a = s.prev.a → Room s ((pendingRun s.run).length + 4) →
    currentInstr s = .ok (.rgb p.r p.g p.b) ∧
    ∃ t, exec (.rgb p.r p.g p.b) s = .next t ∧ Emitted s p [0xFE, p.r, p.g, p.b] t

/-- 42_chunk_encoder.md R150: the chunk, and that three-channel data never needs it. -/
def Obligations.EncodeRgba : Prop :=
  (∀ (s : State) (p : Pixel), EncReady s p → readSlot s (hashIndex p) ≠ p → p.a ≠ s.prev.a →
    Room s ((pendingRun s.run).length + 5) →
    currentInstr s = .ok (.rgba p.r p.g p.b p.a) ∧
    ∃ t, exec (.rgba p.r p.g p.b p.a) s = .next t ∧ Emitted s p [0xFF, p.r, p.g, p.b, p.a] t) ∧
  (∀ (p : Pixel) (s : State), Inv s → s.channels = 3 → EncReady s p → ∀ r g b a, selectChunk p s ≠ .rgba r g b a)

/-- Derived from 42_chunk_encoder.md R143: run continuation, and its priority over every chunk. That the step is the
instruction RUN with the field `s.run` (the run pending after it) is the model's choice, notes/assumptions/11.md. -/
def Obligations.EncodeRunContinues : Prop :=
  ∀ s : State, EncReady s s.prev → s.run.toNat < 62 →
    currentInstr s = .ok (.run s.run) ∧
      exec (.run s.run) s = .next { s with run := s.run + 1, pc := s.pc + s.channels.toNat, px := s.px + 1 }

/-- Derived from 42_chunk_encoder.md R145: run saturation. That the step is the instruction RUN 1 (`.run 0`) although it
emits `FD` is the model's choice, notes/assumptions/11.md; the step at which `FD` is written is 17.md. -/
def Obligations.EncodeRunSaturates : Prop :=
  ∀ s : State, EncReady s s.prev → s.run = 62 → Room s 1 →
    currentInstr s = .ok (.run 0) ∧
      ∃ t, exec (.run 0) s = .next t ∧
        t = { s with run := 1, outBuf := t.outBuf, wp := s.wp + 1, pc := s.pc + s.channels.toNat, px := s.px + 1 } ∧
        Stored s.outBuf t.outBuf s.wp [0xFD]

/-- 41_pixel_history.md R125: a run never writes the cache and never writes `prev`, in either mode. -/
def Obligations.RunKeepsHistory : Prop :=
  ∀ (len1 : BitVec 6) (s t : State), exec (.run len1) s = .next t → t.cache = s.cache ∧ t.prev = s.prev

/-- 42_chunk_encoder.md R155 (its parts about one step): what the encoder never selects; and every chunk it does select
is well formed. -/
def Obligations.EncoderNeverSelects : Prop :=
  ∀ (p : Pixel) (s : State),
    selectChunk p s ≠ .diff (withBias 2 0 2) (withBias 2 0 2) (withBias 2 0 2) ∧
      selectChunk p s ≠ .luma (withBias 6 0 32) (withBias 4 0 8) (withBias 4 0 8) ∧
      (p = s.prev → ∃ l, selectChunk p s = .run l) ∧
      (p.a = s.prev.a → ∀ r g b a, selectChunk p s ≠ .rgba r g b a) ∧
      (selectChunk p s).wf = true ∧ (selectChunk p s).place = .chunk

/-- 43_chunk_decoder.md R183 for one chunk: the chunk selected for a pixel other than `prev` reads back as that pixel
from the same history, and leaves the encoder's history. -/
def Obligations.SelectedChunkReadsBack : Prop :=
  ∀ (p : Pixel) (s : State), p ≠ s.prev →
    (historyOf s).chunk (selectChunk p s) = ([p], historyOf (commit p s))

/-- 42_chunk_encoder.md R154: bytes per completed encode step. -/
def Obligations.BytesPerEncodeStep : Prop :=
  ∀ (i : Instr) (s t : State), s.mode = .enc → exec i s = .next t → t.ph ≠ .error → t ≠ markRefused s →
    (∀ len1, i = .run len1 → t.wp = if s.run.toNat < 62 then s.wp else s.wp + 1) ∧
    (∀ idx, i = .index idx → s.run = 0 → t.wp = s.wp + 1) ∧
    (∀ r g b, i = .diff r g b → s.run = 0 → t.wp = s.wp + 1) ∧
    (i.place = .chunk → s.wp ≤ t.wp ∧ t.wp ≤ s.wp + 6) ∧
    (∀ r g b a, i = .rgba r g b a → s.run ≠ 0 → t.wp = s.wp + 6) ∧
    (i.place = .header → t.wp = s.wp + 14) ∧
    (i.place = .marker → t.wp = s.wp + 8 ∨ t.wp = s.wp + 9)

/-! ## Frames of the stream -/

/-- Derived from 40_header_and_marker.md R101, R102, 43_chunk_decoder.md R170 and the order of 60_exceptions.md R230: the
header step of a decode, from the bytes of `IN` below offset 14, and the round trip of the header. `markRefused` is
60_exceptions.md R243 case 1; a step that reads an unwritten `IN_LEN` (case 2) goes the same way: RefusalCases. That a
completed step counts the geometry registers as written is the model's own record (DESIGN CHOICE,
notes/assumptions/22.md). -/
def Obligations.DecodeHeader : Prop :=
  (∀ (s u : State) (b : List Byte), EngineRuns s u → HdrReady u → u.mode = .dec → operandsWritten u = true →
    fits u.cfg 14 = true → u.inBuf.readBytes 0 (min u.inLen 14) = some b →
    step s =
      if 4 ≤ u.inLen ∧ b.take 4 ≠ [0x71, 0x6F, 0x69, 0x66] then .next (takeError .invalidMagic u)
      else if u.inLen < 14 then .next (takeError .truncatedHeader u)
      else if b.getD 12 0 ≠ 3 ∧ b.getD 12 0 ≠ 4 then
        if u.cfg.strict then .next (takeError .unsupportedChannelCount u) else .next (markRefused u)
      else if u.cfg.strict = true ∧ b.getD 13 0 ≠ 0 ∧ b.getD 13 0 ≠ 1 then
        .next (takeError .unsupportedColorspace u)
      else
        .next { u with
          width := unbe32 (b.getD 4 0) (b.getD 5 0) (b.getD 6 0) (b.getD 7 0)
          height := unbe32 (b.getD 8 0) (b.getD 9 0) (b.getD 10 0) (b.getD 11 0)
          channels := b.getD 12 0, colorspace := b.getD 13 0, written := u.written.withGeometry
          npx := (unbe32 (b.getD 4 0) (b.getD 5 0) (b.getD 6 0) (b.getD 7 0)).toNat *
            (unbe32 (b.getD 8 0) (b.getD 9 0) (b.getD 10 0) (b.getD 11 0)).toNat
          pc := 14, ph := .body }) ∧
  (∀ b0 b1 b2 b3 : Byte,
    (unbe32 b0 b1 b2 b3).toNat = b0.toNat * 2 ^ 24 + b1.toNat * 2 ^ 16 + b2.toNat * 2 ^ 8 + b3.toNat) ∧
  (∀ (w h : BitVec 32) (c cs : Byte) (rest : List Byte),
    decodeHeader ([0x71, 0x6F, 0x69, 0x66] ++ be32 w ++ be32 h ++ [c, cs] ++ rest) = .ok (.header w h c cs, rest)) ∧
  (∀ (w h : BitVec 32) (c cs : Byte) (s : State), HdrReady s → s.mode = .dec → operandsWritten s = true →
    c = 3 ∨ c = 4 → (s.cfg.strict = true → cs = 0 ∨ cs = 1) →
    exec (.header w h c cs) s =
      .next { s with
        width := w, height := h, channels := c, colorspace := cs, written := s.written.withGeometry
        npx := w.toNat * h.toNat, pc := 14, ph := .body })

/-- 60_exceptions.md R222, R223: the two errors of a header that is not there, the magic tested first whenever four
bytes exist; neither is raised in encode mode, and neither surfaces any output. An unwritten `IN_LEN`: RefusalCases. -/
def Obligations.HeaderReadErrors : Prop :=
  (∀ (s u : State) (m : List Byte), EngineRuns s u → HdrReady u → u.mode = .dec → operandsWritten u = true →
    4 ≤ u.inLen → fits u.cfg 4 = true → u.inBuf.readBytes 0 4 = some m → m ≠ [0x71, 0x6F, 0x69, 0x66] →
    step s = .next (takeError .invalidMagic u)) ∧
  (∀ s u : State, EngineRuns s u → HdrReady u → u.mode = .dec → operandsWritten u = true → u.inLen < 4 →
    step s = .next (takeError .truncatedHeader u)) ∧
  (∀ s u : State, EngineRuns s u → HdrReady u → u.mode = .dec → operandsWritten u = true →
    4 ≤ u.inLen → u.inLen < 14 → fits u.cfg 4 = true → u.inBuf.readBytes 0 4 = some [0x71, 0x6F, 0x69, 0x66] →
    step s = .next (takeError .truncatedHeader u)) ∧
  (∀ s u t : State, EngineTurn s u → u.mode = .enc → step s = .next t → t.err = 1 ∨ t.err = 2 → t.err = u.err) ∧
  (∀ u : State, (takeError .invalidMagic u).err = 1 ∧ (takeError .truncatedHeader u).err = 2 ∧
    (takeError .invalidMagic u).outLen = 0 ∧ (takeError .invalidMagic u).outBuf = u.outBuf)

/-- 60_exceptions.md R227, R228: the field errors, in both modes; without `STRICT` neither is raised, a channel count
outside 3 and 4 is refused, and any colour space passes through. Registers nothing has written: RefusalCases. -/
def Obligations.HeaderFieldErrors : Prop :=
  (∀ (w h : BitVec 32) (c cs : Byte) (s : State), HdrReady s →
    (s.mode = .enc → w = s.width ∧ h = s.height ∧ c = s.channels ∧ cs = s.colorspace) →
    (c ≠ 3 → c ≠ 4 → s.cfg.strict = true → operandsWritten s = true →
      exec (.header w h c cs) s = .next (takeError .unsupportedChannelCount s)) ∧
    (c ≠ 3 → c ≠ 4 → s.cfg.strict = false → exec (.header w h c cs) s = .next (markRefused s)) ∧
    (c = 3 ∨ c = 4 → cs ≠ 0 → cs ≠ 1 → s.cfg.strict = true → operandsWritten s = true →
      exec (.header w h c cs) s = .next (takeError .unsupportedColorspace s)) ∧
    (c = 3 ∨ c = 4 → s.cfg.strict = false → operandsWritten s = true → s.mode = .dec →
      ∃ t, exec (.header w h c cs) s = .next t ∧ t.ph = .body ∧ t.colorspace = cs) ∧
    (c = 3 ∨ c = 4 → s.cfg.strict = false → operandsWritten s = true → s.mode = .enc →
      s.inLen = w.toNat * h.toNat * c.toNat → Room s 14 →
      ∃ t, exec (.header w h c cs) s = .next t ∧ t.ph = .body ∧ t.outBuf.read (s.wp + 13) = some cs)) ∧
  (∀ (i : Instr) (s t : State), exec i s = .next t → s.cfg.strict = false → t.err = 6 ∨ t.err = 7 → t.err = s.err)

/-- 42_chunk_encoder.md R140: the header step of an encode, its checks in order, then the fourteen bytes. `markRefused`
is 60_exceptions.md R243 case 1. A step that reads an unwritten register (case 2) goes the same way: RefusalCases. -/
def Obligations.EncodeHeader : Prop :=
  ∀ s : State, HdrReady s → s.mode = .enc → operandsWritten s = true →
    currentInstr s = .ok (.header s.width s.height s.channels s.colorspace) ∧
    if s.channels ≠ 3 ∧ s.channels ≠ 4 then
      exec (.header s.width s.height s.channels s.colorspace) s =
        if s.cfg.strict then .next (takeError .unsupportedChannelCount s) else .next (markRefused s)
    else if s.cfg.strict = true ∧ s.colorspace ≠ 0 ∧ s.colorspace ≠ 1 then
      exec (.header s.width s.height s.channels s.colorspace) s =
        .next (takeError .unsupportedColorspace s)
    else if s.inLen ≠ s.width.toNat * s.height.toNat * s.channels.toNat then
      exec (.header s.width s.height s.channels s.colorspace) s = .next (takeError .pixelCountMismatch s)
    else
      Room s 14 →
        ∃ t, exec (.header s.width s.height s.channels s.colorspace) s = .next t ∧
          t = { s with npx := s.width.toNat * s.height.toNat, outBuf := t.outBuf, wp := s.wp + 14, ph := .body } ∧
          Stored s.outBuf t.outBuf s.wp
            ([0x71, 0x6F, 0x69, 0x66] ++ be32 s.width ++ be32 s.height ++ [s.channels, s.colorspace])

/-- 42_chunk_encoder.md R156: the tail step of an encode. -/
def Obligations.EncodeEnd : Prop :=
  ∀ s : State, TailReady s .enc → Room s ((pendingRun s.run).length + 8) →
    currentInstr s = .ok .endMarker ∧
    ∃ t, exec .endMarker s = .next t ∧
      t = { s with
        run := 0, outBuf := t.outBuf, wp := s.wp + (pendingRun s.run).length + 8
        outLen := s.wp + (pendingRun s.run).length + 8, ph := .done } ∧
      Stored s.outBuf t.outBuf s.wp (pendingRun s.run ++ [0, 0, 0, 0, 0, 0, 0, 1]) ∧ t.status = 2

/-- 43_chunk_decoder.md R182, 60_exceptions.md R229: the tail step of a decode, by the eight bytes at `pc`. -/
def Obligations.DecodeEnd : Prop :=
  (∀ s : State, TailReady s .dec →
    exec .endMarker s = .next { s with pc := s.pc + 8, outLen := s.wp, ph := .done }) ∧
  (∀ s u : State, EngineRuns s u → TailReady u .dec →
    if u.inLen < u.pc + 8 then step s = .next (takeError .truncatedStream u)
    else
      ∀ m, fits u.cfg (u.pc + 8) = true → u.inBuf.readBytes u.pc 8 = some m →
        if m = [0, 0, 0, 0, 0, 0, 0, 1] then
          step s = .next { u with pc := u.pc + 8, outLen := u.wp, ph := .done }
        else step s = .next (takeError .badEndMarker u))

/-- 42_chunk_encoder.md R158: an image of no pixels is the header and the marker, 22 bytes; its length check requires
`IN_LEN = 0`. -/
def Obligations.ZeroPixelImage : Prop :=
  ∀ s : State, HdrReady s → s.mode = .enc → s.host = [] → s.halted = false → operandsWritten s = true →
    s.wp = 0 → s.px = 0 → s.run = 0 →
    s.channels = 3 ∨ s.channels = 4 → (s.cfg.strict = true → s.colorspace = 0 ∨ s.colorspace = 1) →
    fits s.cfg 22 = true → s.width = 0 ∨ s.height = 0 →
    if s.inLen = 0 then
      ∃ t, Host.Core.run Sys2Proof.core 2 s = .next t ∧ t.ph = .done ∧ t.outLen = 22 ∧
        t.outBuf.readBytes 0 22 =
          some ([0x71, 0x6F, 0x69, 0x66] ++ be32 s.width ++ be32 s.height ++ [s.channels, s.colorspace] ++
            [0, 0, 0, 0, 0, 0, 0, 1])
    else step s = .next (takeError .pixelCountMismatch s)

/-! ## Commands, steps and the host -/

/-- 10_state.md R46, 44_commands.md R203: a START re-creates the history and the pointers and leaves every other field of
the block; while BUSY it is ignored. (The model's own `halted`: RefusedIsSticky.) -/
def Obligations.StartOrIgnored : Prop :=
  ∀ (i : Instr) (m : Mode) (s : State), (i = .startEncode ∧ m = .enc) ∨ (i = .startDecode ∧ m = .dec) →
    if s.ph = .hdr ∨ s.ph = .body then exec i s = .next s
    else
      ∃ t, exec i s = .next t ∧ (∀ k : BitVec 6, readSlot t k = ⟨0, 0, 0, 0⟩) ∧ t.status = 1 ∧
        t = { s with
          mode := m, cache := t.cache, prev := ⟨0, 0, 0, 255⟩, run := 0, pc := 0, wp := 0, px := 0, err := 0, outLen := 0
          ph := .hdr, halted := t.halted }

/-- 44_commands.md R209 (nothing of an earlier transaction's history survives a START): two states that differ only in
the history, the pointers and counters, the phase, the mode, the result registers and in whether the last transaction was
refused (`halted`, notes/assumptions/13.md) start alike. -/
def Obligations.StartForgetsTheHistory : Prop :=
  ∀ (i : Instr) (s t : State), i.place = .command → busy s = false → busy t = false →
    t = { s with
      cache := t.cache, prev := t.prev, run := t.run, pc := t.pc, wp := t.wp, px := t.px, mode := t.mode, ph := t.ph
      err := t.err, outLen := t.outLen, halted := t.halted } →
    exec i s = exec i t

/-- The step of a decode whose bytes at the read point decode to `i` is `exec i` (40_header_and_marker.md R101,
43_chunk_decoder.md R171, R182). -/
def Obligations.StepRunsDecodedInstruction : Prop :=
  ∀ (s u : State) (i : Instr) (bytes : List Byte), EngineRuns s u → u.mode = .dec →
    (u.ph = .hdr → u.inBuf.readBytes 0 14 = some bytes → 14 ≤ u.inLen → fits u.cfg 14 = true →
      decodeAt .header bytes = .ok (i, []) → step s = exec i u) ∧
    (u.ph = .body → u.px < u.npx → u.inBuf.readBytes u.pc bytes.length = some bytes → u.pc + bytes.length ≤ u.inLen →
      fits u.cfg (u.pc + bytes.length) = true → decodeAt .chunk bytes = .ok (i, []) → step s = exec i u) ∧
    (u.ph = .body → u.px = u.npx → u.inBuf.readBytes u.pc 8 = some bytes → u.pc + 8 ≤ u.inLen →
      fits u.cfg (u.pc + 8) = true → decodeAt .marker bytes = .ok (i, []) → step s = exec i u)

/-- The step of an encode is `exec` of the header of the registers, of the chunk selected for the pixel at `pc`, or of
the marker (42_chunk_encoder.md R140, R142, R156; notes/assumptions/11.md). -/
def Obligations.StepRunsSelectedInstruction : Prop :=
  ∀ s u : State, EngineRuns s u → u.mode = .enc →
    (u.ph = .hdr → step s = exec (.header u.width u.height u.channels u.colorspace) u) ∧
    (∀ p, EncReady u p → step s = exec (selectChunk p u) u) ∧
    (u.ph = .body → u.px = u.npx → step s = exec .endMarker u)

/-- 10_state.md R34, 44_commands.md R203: a host write of `CMD` runs its command, 0 and 3 have no effect, no value has
an effect while BUSY, and a read gives 0. -/
def Obligations.StepRunsCommand : Prop :=
  (∀ (s : State) (v : BitVec 2) (rest : List HostOp), s.host = .writeCmd v :: rest →
    (v = 1 → step s = exec .startEncode { s with host := rest }) ∧
    (v = 2 → step s = exec .startDecode { s with host := rest }) ∧
    (v = 0 ∨ v = 3 → step s = .next { s with host := rest }) ∧
    (s.ph = .hdr ∨ s.ph = .body → step s = .next { s with host := rest })) ∧
  (∀ (s : State) (rest : List HostOp), s.host = .readReg .cmd :: rest →
    step s = .next { s with host := rest, rdata := 0 })

/-- Derived from 10_state.md R43 (its host columns) and R35: the host's accesses to the registers (`CMD` writes in
StepRunsCommand). That a register write that is not ignored also counts the register as written is the model's own record
(DESIGN CHOICE, notes/assumptions/22.md). -/
def Obligations.HostRegisterAccess : Prop :=
  State.reset.status = 0 ∧
  ∀ (s : State) (op : HostOp) (rest : List HostOp), s.host = op :: rest →
    (∀ v, op = .writeStatus v → step s = .next { s with host := rest }) ∧
    (∀ v, op = .writeErr v → step s = .next { s with host := rest }) ∧
    (∀ n, op = .writeOutLen n → step s = .next { s with host := rest }) ∧
    (∀ v, op = .writeWidth v →
      step s = .next { s with
        host := rest, width := if s.status = 1 then s.width else v
        written := if s.status = 1 then s.written else { s.written with width := true } }) ∧
    (∀ v, op = .writeHeight v →
      step s = .next { s with
        host := rest, height := if s.status = 1 then s.height else v
        written := if s.status = 1 then s.written else { s.written with height := true } }) ∧
    (∀ v, op = .writeChannels v →
      step s = .next { s with
        host := rest, channels := if s.status = 1 then s.channels else v
        written := if s.status = 1 then s.written else { s.written with channels := true } }) ∧
    (∀ v, op = .writeColorspace v →
      step s = .next { s with
        host := rest, colorspace := if s.status = 1 then s.colorspace else v
        written := if s.status = 1 then s.written else { s.written with colorspace := true } }) ∧
    (∀ n, op = .writeInLen n →
      step s = .next { s with
        host := rest, inLen := if s.status = 1 then s.inLen else n
        written := if s.status = 1 then s.written else { s.written with inLen := true } }) ∧
    (∀ reg, op = .readReg reg →
      step s = .next { s with
        host := rest
        rdata := match reg with
          | .cmd => 0
          | .status =>
            match s.ph with
            | .idle => 0
            | .hdr => 1
            | .body => 1
            | .done => 2
            | .error => 3
          | .err => s.err.toNat
          | .width => s.width.toNat
          | .height => s.height.toNat
          | .channels => s.channels.toNat
          | .colorspace => s.colorspace.toNat
          | .inLen => s.inLen
          | .outLen => s.outLen })

/-- 20_memory.md section 1, 44_commands.md R205: the host's accesses to the buffers that the spec defines. (What the
model does where the spec leaves a byte open, notes/assumptions/7.md and 8.md, is not claimed. That an access at or beyond
`IN_LEN` is like one below it is the model's choice, 23.md.) -/
def Obligations.HostBufferAccess : Prop :=
  ∀ (s : State) (rest : List HostOp) (a : Nat), fits s.cfg (a + 1) = true →
    (∀ v, s.host = .writeIn a v :: rest → s.status ≠ 1 →
      ∃ t, step s = .next t ∧ t = { s with host := rest, inBuf := t.inBuf } ∧ Stored s.inBuf t.inBuf a [v]) ∧
    (∀ v, s.host = .readIn a :: rest → s.inBuf.read a = some v →
      step s = .next { s with host := rest, rdata := v.toNat }) ∧
    (∀ v, s.host = .readOut a :: rest → s.ph = .done → a < s.outLen → s.outBuf.read a = some v →
      step s = .next { s with host := rest, rdata := v.toNat })

/-- 70_reset_and_hazards.md R250: what hardware reset gives, in any phase. -/
def Obligations.HardwareReset : Prop :=
  ∀ (s : State) (rest : List HostOp), s.host = .reset :: rest →
    ∃ t, step s = .next t ∧ t.ph = .idle ∧ t.status = 0 ∧ t.err = 0 ∧ t.outLen = 0 ∧ t.refused = false ∧ t.halted = false ∧
      t.cfg = s.cfg ∧ t.host = rest

/-- 60_exceptions.md R242 (H6), 10_state.md R31: in IDLE, DONE and ERROR the engine has no step and every register keeps
its value. That `step` then answers the same state is the model's choice (notes/assumptions/10.md). -/
def Obligations.NoStepWhenNotBusy : Prop :=
  ∀ s u : State, EngineTurn s u → u.ph = .idle ∨ u.ph = .done ∨ u.ph = .error → step s = .next u

/-! ## Errors and refusals -/

/-- 60_exceptions.md R232: error entry. In decode mode the geometry registers are not promised (notes/assumptions/4.md). -/
def Obligations.ErrorEntry : Prop :=
  ∀ (e : Err) (s : State),
    (takeError e s).ph = .error ∧ (takeError e s).status = 3 ∧ (takeError e s).err = errCode e ∧
      (takeError e s).outLen = 0 ∧
      (s.mode = .enc → takeError e s = { s with err := errCode e, outLen := 0, ph := .error }) ∧
      (s.mode = .dec →
        takeError e s = { s with
          err := errCode e, outLen := 0, ph := .error
          width := (takeError e s).width, height := (takeError e s).height, channels := (takeError e s).channels
          colorspace := (takeError e s).colorspace, fresh := (takeError e s).fresh })

/-- 60_exceptions.md R221: the codes, and which step raises which error. -/
def Obligations.ErrorsByStep : Prop :=
  (errCode .invalidMagic = 1 ∧ errCode .truncatedHeader = 2 ∧ errCode .truncatedStream = 3 ∧ errCode .pixelOverflow = 4 ∧
    errCode .pixelCountMismatch = 5 ∧ errCode .unsupportedChannelCount = 6 ∧ errCode .unsupportedColorspace = 7 ∧
    errCode .badEndMarker = 8) ∧
  (∀ s u t : State, EngineTurn s u → Inv u → busy u = true → step s = .next t → t.ph = .error →
    (u.ph = .hdr → u.mode = .enc → t.err = 5 ∨ t.err = 6 ∨ t.err = 7) ∧
    (u.ph = .hdr → u.mode = .dec → t.err = 1 ∨ t.err = 2 ∨ t.err = 6 ∨ t.err = 7) ∧
    (u.ph = .body → u.mode = .dec → u.px < u.npx → t.err = 3 ∨ t.err = 4) ∧
    (u.ph = .body → u.mode = .dec → u.px = u.npx → t.err = 3 ∨ t.err = 8) ∧
    (u.ph = .body → u.mode ≠ .enc))

/-- 60_exceptions.md R233: there is no return from an error; the only ways out are a START and hardware reset, and `ERR`
is not overwritten before. -/
def Obligations.ErrorHasNoReturn : Prop :=
  ∀ s t : State, s.ph = .error → step s = .next t →
    (t.ph = .error ∧ t.err = s.err) ∨
    (∃ rest, (s.host = .writeCmd 1 :: rest ∨ s.host = .writeCmd 2 :: rest) ∧ t.ph = .hdr ∧ t.err = 0 ∧
      historyOf t = History.start) ∨
    (∃ rest, s.host = .reset :: rest ∧ t.ph = .idle ∧ t.err = 0)

/-- 10_state.md R32, 60_exceptions.md R243: the mark is cleared by nothing but reset, and a refused transaction, whichever
of R243's situations its last step met, has no further steps. That the engine's turn then answers the same state, and
that a START begins a transaction with steps of its own, are the model's choices (notes/assumptions/13.md). -/
def Obligations.RefusedIsSticky : Prop :=
  (∀ s t : State, s.refused = true → step s = .next t → t.refused = true ∨ ∃ rest, s.host = .reset :: rest) ∧
  (∀ s u : State, EngineTurn s u → u.halted = true → step s = .next u) ∧
  (∀ s u : State, EngineRuns s u → Inv u → busy u = true → NoMeaning u ∨ Unwritten u →
    ∃ t, step s = .next t ∧ t.refused = true ∧ t.halted = true ∧ ∀ v, EngineTurn v t → step v = .next t) ∧
  (∀ s t : State, s.halted = true → step s = .next t →
    t.halted = true ∨ (∃ rest, s.host = .reset :: rest) ∨
      (busy s = false ∧ ∃ rest, s.host = .writeCmd 1 :: rest ∨ s.host = .writeCmd 2 :: rest)) ∧
  (∀ s : State, busy s = false →
    ∃ t t', exec .startEncode s = .next t ∧ exec .startDecode s = .next t' ∧ t.halted = false ∧ t'.halted = false)

/-- 60_exceptions.md R243: its situations are exactly the ones that set the mark and end the transaction. The two
operations that refuse (`MemRead`, `emit`), every chunk at the capacity whatever bytes it came from, the engine's step in
both directions, and no move of the host. A step that only reads an unwritten register is the step of written registers
with the same values, and the mark. What is read as unwritten, the capacity, and that such a step takes its effect, are
the model's choices (notes/assumptions/3.md, 19.md, 22.md). -/
def Obligations.RefusalCases : Prop :=
  (∀ (s : State) (a n : Nat),
    memRead s a n = .error .refuse ↔
      a + n ≤ s.inLen ∧ (fits s.cfg (a + n) = false ∨ ∃ k, k < n ∧ s.inBuf.read (a + k) = none)) ∧
  (∀ (v : List Byte) (s : State), emit v s = .error .refuse ↔ fits s.cfg (s.wp + v.length) = false) ∧
  (∀ (i : Instr) (s : State), i.place = .chunk → DecReady s →
    ((∀ len1, i ≠ .run len1) → fits s.cfg (s.wp + bytesPerPixel s.channels) = false →
      exec i s = .next (markRefused s)) ∧
    (∀ len1, i = .run len1 → s.px + runLength len1 ≤ s.npx ∨ s.cfg.overshoot = .truncate →
      fits s.cfg (s.wp + min (runLength len1) (s.npx - s.px) * bytesPerPixel s.channels) = false →
      exec i s = .next (markRefused s))) ∧
  (∀ s u : State, EngineRuns s u → Inv u → busy u = true →
    (NoMeaning u ↔ step s = .next { u with refused := true, halted := true })) ∧
  (∀ s u t : State, EngineRuns s u → Inv u → busy u = true → step s = .next t →
    (t.halted = true ↔ NoMeaning u ∨ Unwritten u) ∧ t.refused = (u.refused || t.halted)) ∧
  (∀ s u s' u' : State, EngineRuns s u → EngineRuns s' u' → u' = { u with written := Written.everything } →
    step s = match step s' with
      | .next t => .next { t with
          refused := t.refused || readsUnwritten u
          halted := t.halted || readsUnwritten u
          written := if u.ph = .hdr ∧ u.mode = .dec ∧ t.ph = .body then u.written.withGeometry else u.written }
      | .fault f => .fault f
      | .refused r => .refused r) ∧
  (∀ (s t : State) (op : HostOp) (rest : List HostOp), s.host = op :: rest → op ≠ .engine → step s = .next t →
    (t.refused = true → s.refused = true) ∧ (t.halted = true → s.halted = true))

/-! ## Whole-machine rules -/

/-- The frame of every instruction (10_state.md R22 to R44): what no instruction changes, and what only some do. The
clauses on the model's own fields are its choices: `written`, and that a header that reads an unwritten register sets the
mark beside its effect (notes/assumptions/22.md), `halted` (13.md), and `fresh`, drawn only by an error of a decode, whose
geometry registers are then free (4.md, 9.md). -/
def Obligations.ExecFrame : Prop :=
  ∀ (i : Instr) (s t : State), exec i s = .next t →
    (t.cfg = s.cfg ∧ t.host = s.host ∧ t.rdata = s.rdata ∧ t.inBuf = s.inBuf ∧ t.inLen = s.inLen) ∧
    (∀ a, a < s.wp ∨ t.wp ≤ a → t.outBuf.read a = s.outBuf.read a) ∧
    (s.mode = .enc ∨ (t.ph ≠ .error ∧ i.place ≠ .header) → SameGeometry s t) ∧
    (i.place ≠ .command → t.mode = s.mode ∧ (t.ph ≠ .error → t.err = s.err)) ∧
    (i.place ≠ .command → s.mode = .dec → t.run = s.run) ∧
    (i.place = .header ∨ i.place = .marker ∨ (∃ len1, i = .run len1) → t.cache = s.cache ∧ t.prev = s.prev) ∧
    (i.place ≠ .header → t.npx = s.npx) ∧
    (t.written = if i.place = .header ∧ s.mode = .dec ∧ t.ph = .body then s.written.withGeometry else s.written) ∧
    ((t.refused = s.refused ∧ (t.halted = s.halted ∨ i.place = .command ∧ t.halted = false)) ∨ t = markRefused s ∨
      (i.place = .header ∧ t.refused = true ∧ t.halted = true ∧ Unwritten s)) ∧
    (t.fresh = s.fresh ∨ (s.mode = .dec ∧ t.ph = .error))

/-- 20_memory.md R53, 10_state.md R26, R27, R41: an engine step never writes `IN` or `IN_LEN`, `pc` and `wp` only
increase, and no byte of `OUT` below `wp` is written again. -/
def Obligations.EngineIsSequential : Prop :=
  ∀ s u t : State, EngineTurn s u → Inv u → step s = .next t →
    t.inBuf = u.inBuf ∧ t.inLen = u.inLen ∧ u.pc ≤ t.pc ∧ u.wp ≤ t.wp ∧ u.px ≤ t.px ∧
      (∀ a, a < u.wp ∨ t.wp ≤ a → t.outBuf.read a = u.outBuf.read a)

/-- 20_memory.md R52: `MemRead`, with the bytes in rising order, its failure by phase, and that none fails in a pixel
step. -/
def Obligations.MemReadIsBounded : Prop :=
  (∀ (s : State) (a n : Nat), fits s.cfg (a + n) = true →
    (a + n ≤ s.inLen → (∀ k, k < n → (s.inBuf.read (a + k)).isSome = true) →
      ∃ bs, memRead s a n = .ok bs ∧ bs.length = n ∧ ∀ k, k < n → bs[k]? = s.inBuf.read (a + k)) ∧
    (s.inLen < a + n → s.ph = .hdr → memRead s a n = .error (.raise .truncatedHeader)) ∧
    (s.inLen < a + n → s.ph = .body → memRead s a n = .error (.raise .truncatedStream))) ∧
  (∀ s : State, Inv s → s.mode = .enc → s.ph = .body → s.px < s.npx → s.pc + s.channels.toNat ≤ s.inLen)

/-- 10_state.md R44: the parameters never change. -/
def Obligations.ParametersAreConstant : Prop := ∀ s t : State, step s = .next t → t.cfg = s.cfg

/-- 44_commands.md R204: a transaction takes at most `npx + 2` steps after the START when the host stands aside; it ends,
or it has been refused and has no further steps (60_exceptions.md R243; notes/assumptions/13.md). In a state of the
invariant the engine's turn always answers a next state. -/
def Obligations.TransactionTerminates : Prop :=
  (∀ s u : State, EngineTurn s u → Inv u → ∃ t, step s = .next t) ∧
  ∀ s : State, Inv s → busy s = true → s.host = [] →
    ∃ k t, Host.Core.run Sys2Proof.core k s = .next t ∧
      (t.ph = .done ∨ t.ph = .error ∨ t.halted = true) ∧ k ≤ t.npx + 2

/-! ## Invariants -/

/-- The reset state satisfies the invariant (10_state.md R47; its zeros are the model's, notes/assumptions/2.md). -/
def Obligations.ResetMeetsInv : Prop := Inv State.reset

/-- Every step keeps the invariant of the block (10_state.md R24, R28, R29, R36, R42; 41_pixel_history.md R124; 20_memory.md
R52): from every state that meets it, whatever the host does. -/
def Obligations.StepKeepsInv : Prop := ∀ s t : State, Inv s → step s = .next t → Inv t

/-- 10_state.md R25, 42_chunk_encoder.md R157: every step of an encode keeps `OUT` a header and chunks that read as exactly
the pixels consumed and flushed, and at DONE the whole stream. The host stands aside (70_reset_and_hazards.md R252,
H-IN-STABLE). -/
def Obligations.StepKeepsEncoderStream : Prop :=
  ∀ s t : State, Inv s → EncoderStream s → s.host = [] → step s = .next t → EncoderStream t

/-- 43_chunk_decoder.md R184: every step of a decode keeps `OUT` the pixels that the consumed part of `IN` reads as, after
the header, and at DONE the surfaced `OUT` the pixels of the whole stream, the marker after its chunks: whether or not
an encoder would have chosen those chunks (R185). The host stands aside (H-IN-STABLE). -/
def Obligations.StepKeepsDecoderStream : Prop :=
  ∀ s t : State, Inv s → DecoderStream s → s.host = [] → step s = .next t → DecoderStream t

/-- 43_chunk_decoder.md R183: decoding what an encode produced gives back the geometry and every byte of the data, under
either policy. Both transactions start right after their START, their registers written, the host standing aside, the
buffers unbounded. -/
def Obligations.RoundTrip : Prop :=
  ∀ (s : State) (data : List Byte), Inv s → HdrReady s → s.mode = .enc → s.host = [] → s.halted = false →
    operandsWritten s = true → s.cfg.bufMax = none →
    s.channels = 3 ∨ s.channels = 4 → (s.cfg.strict = true → s.colorspace = 0 ∨ s.colorspace = 1) →
    s.inLen = s.width.toNat * s.height.toNat * s.channels.toNat → s.inBuf.readBytes 0 s.inLen = some data →
    ∃ k t, Host.Core.run Sys2Proof.core k s = .next t ∧ t.ph = .done ∧
      ∀ d : State, Inv d → HdrReady d → d.mode = .dec → d.host = [] → d.halted = false → operandsWritten d = true →
        d.cfg.bufMax = none → d.cfg.strict = s.cfg.strict →
        d.inLen = t.outLen → d.inBuf.readBytes 0 d.inLen = t.outBuf.readBytes 0 t.outLen →
        ∃ k' u, Host.Core.run Sys2Proof.core k' d = .next u ∧ u.ph = .done ∧ u.width = s.width ∧ u.height = s.height ∧
          u.channels = s.channels ∧ u.colorspace = s.colorspace ∧ u.outLen = data.length ∧
          u.outBuf.readBytes 0 u.outLen = some data
end

