-- ==== Sys2Proof/Laws/Memory.lean ====
section
/-! SUPPORT. Buffers: a read after a write, the canonical form kept by every memory operation, and what `readBytes`
and `writeBytes` say byte by byte. -/

namespace Sys2Proof.Machine

open Sys2Proof

@[simp] theorem Mem.read_nil (a : Nat) : Mem.read [] a = none := rfl

theorem Mem.read_cons (b : Nat) (v : Byte) (m : Mem) (a : Nat) :
    Mem.read ((b, v) :: m) a = if b = a then some v else Mem.read m a := rfl

/-- A read after a write: the byte written at its address, every other byte as before. -/
theorem Mem.read_write (m : Mem) (a : Nat) (v : Byte) (a' : Nat) :
    (m.write a v).read a' = if a' = a then some v else m.read a' := by
  induction m with
  | nil => simp [Mem.write, Mem.read, eq_comm]
  | cons c m ih =>
    obtain ⟨b, w⟩ := c
    rcases Nat.lt_trichotomy a b with h | rfl | h
    · simp only [Mem.write, if_pos h, Mem.read_cons]
      by_cases h' : a = a'
      · simp [h']
      · simp [h', Ne.symm h']
    · simp only [Mem.write, Nat.lt_irrefl, if_false, if_true, Mem.read_cons]
      by_cases h' : a = a'
      · simp [h']
      · simp [h', Ne.symm h']
    · simp only [Mem.write, if_neg (Nat.lt_asymm h), if_neg (Nat.ne_of_gt h), Mem.read_cons, ih]
      by_cases h' : b = a'
      · simp [h', show a' ≠ a by omega]
      · simp [h']

theorem Mem.read_write_self (m : Mem) (a : Nat) (v : Byte) : (m.write a v).read a = some v := by
  simp [Mem.read_write]

theorem Mem.read_write_of_ne (m : Mem) (a : Nat) (v : Byte) {a' : Nat} (h : a' ≠ a) :
    (m.write a v).read a' = m.read a' := by
  simp [Mem.read_write, h]

theorem Mem.wf_cons (a : Nat) (v : Byte) (m : Mem) :
    Mem.wf ((a, v) :: m) = true ↔ (∀ c ∈ m, a < c.1) ∧ Mem.wf m = true := by
  simp [Mem.wf]

/-- Every entry of a written buffer is the new one or an old one. -/
theorem Mem.mem_write {m : Mem} {a : Nat} {v : Byte} {c : Host.Cell} (h : c ∈ m.write a v) : c = (a, v) ∨ c ∈ m := by
  induction m with
  | nil => simpa [Mem.write] using h
  | cons d m ih =>
    obtain ⟨b, w⟩ := d
    simp only [Mem.write] at h
    split_ifs at h <;> simp only [List.mem_cons] at h ⊢
    · tauto
    · tauto
    · rcases h with h | h
      · tauto
      · rcases ih h with h | h <;> tauto

/-- A write keeps the canonical form. -/
theorem Mem.wf_write {m : Mem} (hm : Mem.wf m = true) (a : Nat) (v : Byte) : Mem.wf (m.write a v) = true := by
  induction m with
  | nil => rfl
  | cons d m ih =>
    obtain ⟨b, w⟩ := d
    obtain ⟨hb, hm'⟩ := (Mem.wf_cons b w m).1 hm
    simp only [Mem.write]
    split_ifs with h1 h2
    · refine (Mem.wf_cons _ _ _).2 ⟨?_, hm⟩
      intro c hc
      rcases List.mem_cons.1 hc with rfl | hc
      · exact h1
      · exact h1.trans (hb c hc)
    · subst h2; exact (Mem.wf_cons _ _ _).2 ⟨hb, hm'⟩
    · refine (Mem.wf_cons _ _ _).2 ⟨?_, ih hm'⟩
      intro c hc
      rcases Mem.mem_write hc with rfl | hc
      · show b < a; omega
      · exact hb c hc

@[simp] theorem Mem.writeBytes_nil (m : Mem) (a : Nat) : m.writeBytes a [] = m := rfl

theorem Mem.writeBytes_cons (m : Mem) (a : Nat) (b : Byte) (bs : List Byte) :
    m.writeBytes a (b :: bs) = (m.write a b).writeBytes (a + 1) bs := rfl

/-- A byte string written in pieces. -/
theorem Mem.writeBytes_append (m : Mem) (a : Nat) (xs ys : List Byte) :
    m.writeBytes a (xs ++ ys) = (m.writeBytes a xs).writeBytes (a + xs.length) ys := by
  induction xs generalizing m a with
  | nil => simp
  | cons x xs ih => simp [Mem.writeBytes_cons, ih, Nat.add_comm 1, Nat.add_assoc]

/-- `writeBytes` keeps the canonical form. -/
theorem Mem.wf_writeBytes {m : Mem} (hm : Mem.wf m = true) (a : Nat) (bs : List Byte) :
    Mem.wf (m.writeBytes a bs) = true := by
  induction bs generalizing m a with
  | nil => exact hm
  | cons b bs ih => exact ih (Mem.wf_write hm a b) (a + 1)

/-- Byte by byte: the string at its addresses, every other byte as before (20_memory.md R53). -/
theorem Mem.read_writeBytes (m : Mem) (a : Nat) (bs : List Byte) (a' : Nat) :
    (m.writeBytes a bs).read a' = if a ≤ a' ∧ a' < a + bs.length then bs[a' - a]? else m.read a' := by
  induction bs generalizing m a with
  | nil => simp
  | cons b bs ih =>
    rw [Mem.writeBytes_cons, ih, Mem.read_write]
    by_cases h : a' = a
    · subst h; simp
    · by_cases h2 : a ≤ a'
      · obtain ⟨d, rfl⟩ : ∃ d, a' = a + 1 + d := ⟨a' - (a + 1), by omega⟩
        simp only [show a + 1 + d - a = d + 1 by omega, List.getElem?_cons_succ, List.length_cons,
          show a + 1 + d - (a + 1) = d by omega, if_neg h]
        split_ifs <;> first | rfl | omega
      · rw [if_neg (by omega), if_neg h, if_neg (by omega)]

theorem Mem.read_writeBytes_of_lt (m : Mem) (a : Nat) (bs : List Byte) {a' : Nat} (h : a' < a) :
    (m.writeBytes a bs).read a' = m.read a' := by
  rw [Mem.read_writeBytes, if_neg (by omega)]

theorem Mem.read_writeBytes_of_ge (m : Mem) (a : Nat) (bs : List Byte) {a' : Nat} (h : a + bs.length ≤ a') :
    (m.writeBytes a bs).read a' = m.read a' := by
  rw [Mem.read_writeBytes, if_neg (by omega)]

@[simp] theorem Mem.readBytes_zero (m : Mem) (a : Nat) : m.readBytes a 0 = some [] := rfl

/-- What a successful multi-byte read says (20_memory.md R52). -/
theorem Mem.readBytes_eq_some (m : Mem) (a n : Nat) (bs : List Byte) :
    m.readBytes a n = some bs ↔ bs.length = n ∧ ∀ k, k < n → m.read (a + k) = bs[k]? := by
  induction n generalizing a bs with
  | zero => cases bs <;> simp [Mem.readBytes]
  | succ n ih =>
    simp only [Mem.readBytes]
    constructor
    · intro h
      split at h
      case h_1 b cs hb hcs =>
        obtain rfl : b :: cs = bs := Option.some.inj h
        obtain ⟨hl, hk⟩ := (ih (a + 1) cs).1 hcs
        refine ⟨by simp [hl], ?_⟩
        rintro (_ | k) hlt
        · simpa using hb
        · rw [show a + (k + 1) = a + 1 + k by omega, hk k (by omega)]; rfl
      case h_2 => cases h
    · rintro ⟨hl, hk⟩
      match bs, hl with
      | b :: cs, hl =>
        have hb : m.read a = some b := by simpa using hk 0 (by omega)
        have hcs : m.readBytes (a + 1) n = some cs := by
          refine (ih (a + 1) cs).2 ⟨by simpa using hl, fun k hk' => ?_⟩
          have := hk (k + 1) (by omega)
          rw [show a + (k + 1) = a + 1 + k by omega] at this
          simpa using this
        simp [hb, hcs]

theorem Mem.readBytes_length {m : Mem} {a n : Nat} {bs : List Byte} (h : m.readBytes a n = some bs) : bs.length = n :=
  ((Mem.readBytes_eq_some m a n bs).1 h).1

/-- Two buffers that agree on the addresses read give the same bytes. -/
theorem Mem.readBytes_congr {m m' : Mem} {a n : Nat} (h : ∀ k, k < n → m.read (a + k) = m'.read (a + k)) :
    m.readBytes a n = m'.readBytes a n := by
  induction n generalizing a with
  | zero => rfl
  | succ n ih =>
    simp only [Mem.readBytes]
    rw [ih (a := a + 1) (fun k hk => by have := h (k + 1) (by omega); rwa [show a + (k + 1) = a + 1 + k by omega] at this)]
    have h0 := h 0 (by omega)
    rw [Nat.add_zero] at h0
    rw [h0]

/-- A read of `k + n` bytes is a read of `k` and a read of the `n` after them. -/
theorem Mem.readBytes_add (m : Mem) (a k n : Nat) (xs ys : List Byte)
    (hx : m.readBytes a k = some xs) (hy : m.readBytes (a + k) n = some ys) :
    m.readBytes a (k + n) = some (xs ++ ys) := by
  obtain ⟨hl, hx⟩ := (Mem.readBytes_eq_some _ _ _ _).1 hx
  obtain ⟨hl', hy⟩ := (Mem.readBytes_eq_some _ _ _ _).1 hy
  refine (Mem.readBytes_eq_some _ _ _ _).2 ⟨by simp [hl, hl'], fun j hj => ?_⟩
  by_cases h : j < k
  · rw [hx j h, List.getElem?_append_left (by omega)]
  · obtain ⟨d, rfl⟩ : ∃ d, j = k + d := ⟨j - k, by omega⟩
    rw [← Nat.add_assoc, hy d (by omega), List.getElem?_append_right (by omega), hl]
    simp

/-- The first bytes of a successful read. -/
theorem Mem.readBytes_take {m : Mem} {a n k : Nat} {bs : List Byte} (h : m.readBytes a n = some bs) (hk : k ≤ n) :
    m.readBytes a k = some (bs.take k) := by
  obtain ⟨hl, hr⟩ := (Mem.readBytes_eq_some _ _ _ _).1 h
  refine (Mem.readBytes_eq_some _ _ _ _).2 ⟨by simp; omega, fun j hj => ?_⟩
  rw [hr j (by omega), List.getElem?_take, if_pos hj]

/-- Reading back a string just written. -/
theorem Mem.readBytes_writeBytes_self (m : Mem) (a : Nat) (bs : List Byte) :
    (m.writeBytes a bs).readBytes a bs.length = some bs := by
  refine (Mem.readBytes_eq_some _ _ _ _).2 ⟨rfl, fun k hk => ?_⟩
  rw [Mem.read_writeBytes, if_pos (by omega)]
  simp

/-- Bytes below a written string are read as before. -/
theorem Mem.readBytes_writeBytes_below (m : Mem) (a : Nat) (bs : List Byte) {b n : Nat} (h : b + n ≤ a) :
    (m.writeBytes a bs).readBytes b n = m.readBytes b n :=
  Mem.readBytes_congr fun k hk => Mem.read_writeBytes_of_lt m a bs (by omega)

/-- The reset buffers have the canonical form. -/
theorem reset_memory_wf : Mem.wf State.reset.inBuf = true ∧ Mem.wf State.reset.outBuf = true := ⟨rfl, rfl⟩

end Sys2Proof.Machine
end

