-- ==== Sys2Proof/Laws/State.lean ====
section
/-! SUPPORT. One lemma per field per named update of State, true by rfl and for simp, so that no later proof unfolds
a record update. -/

namespace Sys2Proof.Machine

open Sys2Proof

@[simp] theorem writeSlot_cache (i : BitVec 6) (p : Pixel) (s : State) : (writeSlot i p s).cache = s.cache.set i.toNat p i.isLt := rfl
@[simp] theorem writeSlot_prev (i : BitVec 6) (p : Pixel) (s : State) : (writeSlot i p s).prev = s.prev := rfl
@[simp] theorem writeSlot_run (i : BitVec 6) (p : Pixel) (s : State) : (writeSlot i p s).run = s.run := rfl
@[simp] theorem writeSlot_pc (i : BitVec 6) (p : Pixel) (s : State) : (writeSlot i p s).pc = s.pc := rfl
@[simp] theorem writeSlot_wp (i : BitVec 6) (p : Pixel) (s : State) : (writeSlot i p s).wp = s.wp := rfl
@[simp] theorem writeSlot_px (i : BitVec 6) (p : Pixel) (s : State) : (writeSlot i p s).px = s.px := rfl
@[simp] theorem writeSlot_npx (i : BitVec 6) (p : Pixel) (s : State) : (writeSlot i p s).npx = s.npx := rfl
@[simp] theorem writeSlot_mode (i : BitVec 6) (p : Pixel) (s : State) : (writeSlot i p s).mode = s.mode := rfl
@[simp] theorem writeSlot_ph (i : BitVec 6) (p : Pixel) (s : State) : (writeSlot i p s).ph = s.ph := rfl
@[simp] theorem writeSlot_refused (i : BitVec 6) (p : Pixel) (s : State) : (writeSlot i p s).refused = s.refused := rfl
@[simp] theorem writeSlot_err (i : BitVec 6) (p : Pixel) (s : State) : (writeSlot i p s).err = s.err := rfl
@[simp] theorem writeSlot_width (i : BitVec 6) (p : Pixel) (s : State) : (writeSlot i p s).width = s.width := rfl
@[simp] theorem writeSlot_height (i : BitVec 6) (p : Pixel) (s : State) : (writeSlot i p s).height = s.height := rfl
@[simp] theorem writeSlot_channels (i : BitVec 6) (p : Pixel) (s : State) : (writeSlot i p s).channels = s.channels := rfl
@[simp] theorem writeSlot_colorspace (i : BitVec 6) (p : Pixel) (s : State) : (writeSlot i p s).colorspace = s.colorspace := rfl
@[simp] theorem writeSlot_inLen (i : BitVec 6) (p : Pixel) (s : State) : (writeSlot i p s).inLen = s.inLen := rfl
@[simp] theorem writeSlot_outLen (i : BitVec 6) (p : Pixel) (s : State) : (writeSlot i p s).outLen = s.outLen := rfl
@[simp] theorem writeSlot_inBuf (i : BitVec 6) (p : Pixel) (s : State) : (writeSlot i p s).inBuf = s.inBuf := rfl
@[simp] theorem writeSlot_outBuf (i : BitVec 6) (p : Pixel) (s : State) : (writeSlot i p s).outBuf = s.outBuf := rfl
@[simp] theorem writeSlot_written (i : BitVec 6) (p : Pixel) (s : State) : (writeSlot i p s).written = s.written := rfl
@[simp] theorem writeSlot_halted (i : BitVec 6) (p : Pixel) (s : State) : (writeSlot i p s).halted = s.halted := rfl
@[simp] theorem writeSlot_cfg (i : BitVec 6) (p : Pixel) (s : State) : (writeSlot i p s).cfg = s.cfg := rfl
@[simp] theorem writeSlot_host (i : BitVec 6) (p : Pixel) (s : State) : (writeSlot i p s).host = s.host := rfl
@[simp] theorem writeSlot_rdata (i : BitVec 6) (p : Pixel) (s : State) : (writeSlot i p s).rdata = s.rdata := rfl
@[simp] theorem writeSlot_fresh (i : BitVec 6) (p : Pixel) (s : State) : (writeSlot i p s).fresh = s.fresh := rfl

@[simp] theorem commit_cache (p : Pixel) (s : State) : (commit p s).cache = s.cache.set (hashIndex p).toNat p (hashIndex p).isLt := rfl
@[simp] theorem commit_prev (p : Pixel) (s : State) : (commit p s).prev = p := rfl
@[simp] theorem commit_run (p : Pixel) (s : State) : (commit p s).run = s.run := rfl
@[simp] theorem commit_pc (p : Pixel) (s : State) : (commit p s).pc = s.pc := rfl
@[simp] theorem commit_wp (p : Pixel) (s : State) : (commit p s).wp = s.wp := rfl
@[simp] theorem commit_px (p : Pixel) (s : State) : (commit p s).px = s.px := rfl
@[simp] theorem commit_npx (p : Pixel) (s : State) : (commit p s).npx = s.npx := rfl
@[simp] theorem commit_mode (p : Pixel) (s : State) : (commit p s).mode = s.mode := rfl
@[simp] theorem commit_ph (p : Pixel) (s : State) : (commit p s).ph = s.ph := rfl
@[simp] theorem commit_refused (p : Pixel) (s : State) : (commit p s).refused = s.refused := rfl
@[simp] theorem commit_err (p : Pixel) (s : State) : (commit p s).err = s.err := rfl
@[simp] theorem commit_width (p : Pixel) (s : State) : (commit p s).width = s.width := rfl
@[simp] theorem commit_height (p : Pixel) (s : State) : (commit p s).height = s.height := rfl
@[simp] theorem commit_channels (p : Pixel) (s : State) : (commit p s).channels = s.channels := rfl
@[simp] theorem commit_colorspace (p : Pixel) (s : State) : (commit p s).colorspace = s.colorspace := rfl
@[simp] theorem commit_inLen (p : Pixel) (s : State) : (commit p s).inLen = s.inLen := rfl
@[simp] theorem commit_outLen (p : Pixel) (s : State) : (commit p s).outLen = s.outLen := rfl
@[simp] theorem commit_inBuf (p : Pixel) (s : State) : (commit p s).inBuf = s.inBuf := rfl
@[simp] theorem commit_outBuf (p : Pixel) (s : State) : (commit p s).outBuf = s.outBuf := rfl
@[simp] theorem commit_written (p : Pixel) (s : State) : (commit p s).written = s.written := rfl
@[simp] theorem commit_halted (p : Pixel) (s : State) : (commit p s).halted = s.halted := rfl
@[simp] theorem commit_cfg (p : Pixel) (s : State) : (commit p s).cfg = s.cfg := rfl
@[simp] theorem commit_host (p : Pixel) (s : State) : (commit p s).host = s.host := rfl
@[simp] theorem commit_rdata (p : Pixel) (s : State) : (commit p s).rdata = s.rdata := rfl
@[simp] theorem commit_fresh (p : Pixel) (s : State) : (commit p s).fresh = s.fresh := rfl

@[simp] theorem advanceRun_cache (s : State) : (advanceRun s).cache = s.cache := rfl
@[simp] theorem advanceRun_prev (s : State) : (advanceRun s).prev = s.prev := rfl
@[simp] theorem advanceRun_run (s : State) : (advanceRun s).run = s.run + 1 := rfl
@[simp] theorem advanceRun_pc (s : State) : (advanceRun s).pc = s.pc := rfl
@[simp] theorem advanceRun_wp (s : State) : (advanceRun s).wp = s.wp := rfl
@[simp] theorem advanceRun_px (s : State) : (advanceRun s).px = s.px := rfl
@[simp] theorem advanceRun_npx (s : State) : (advanceRun s).npx = s.npx := rfl
@[simp] theorem advanceRun_mode (s : State) : (advanceRun s).mode = s.mode := rfl
@[simp] theorem advanceRun_ph (s : State) : (advanceRun s).ph = s.ph := rfl
@[simp] theorem advanceRun_refused (s : State) : (advanceRun s).refused = s.refused := rfl
@[simp] theorem advanceRun_err (s : State) : (advanceRun s).err = s.err := rfl
@[simp] theorem advanceRun_width (s : State) : (advanceRun s).width = s.width := rfl
@[simp] theorem advanceRun_height (s : State) : (advanceRun s).height = s.height := rfl
@[simp] theorem advanceRun_channels (s : State) : (advanceRun s).channels = s.channels := rfl
@[simp] theorem advanceRun_colorspace (s : State) : (advanceRun s).colorspace = s.colorspace := rfl
@[simp] theorem advanceRun_inLen (s : State) : (advanceRun s).inLen = s.inLen := rfl
@[simp] theorem advanceRun_outLen (s : State) : (advanceRun s).outLen = s.outLen := rfl
@[simp] theorem advanceRun_inBuf (s : State) : (advanceRun s).inBuf = s.inBuf := rfl
@[simp] theorem advanceRun_outBuf (s : State) : (advanceRun s).outBuf = s.outBuf := rfl
@[simp] theorem advanceRun_written (s : State) : (advanceRun s).written = s.written := rfl
@[simp] theorem advanceRun_halted (s : State) : (advanceRun s).halted = s.halted := rfl
@[simp] theorem advanceRun_cfg (s : State) : (advanceRun s).cfg = s.cfg := rfl
@[simp] theorem advanceRun_host (s : State) : (advanceRun s).host = s.host := rfl
@[simp] theorem advanceRun_rdata (s : State) : (advanceRun s).rdata = s.rdata := rfl
@[simp] theorem advanceRun_fresh (s : State) : (advanceRun s).fresh = s.fresh := rfl

@[simp] theorem advancePixel_cache (s : State) : (advancePixel s).cache = s.cache := rfl
@[simp] theorem advancePixel_prev (s : State) : (advancePixel s).prev = s.prev := rfl
@[simp] theorem advancePixel_run (s : State) : (advancePixel s).run = s.run := rfl
@[simp] theorem advancePixel_pc (s : State) : (advancePixel s).pc = s.pc + s.channels.toNat := rfl
@[simp] theorem advancePixel_wp (s : State) : (advancePixel s).wp = s.wp := rfl
@[simp] theorem advancePixel_px (s : State) : (advancePixel s).px = s.px + 1 := rfl
@[simp] theorem advancePixel_npx (s : State) : (advancePixel s).npx = s.npx := rfl
@[simp] theorem advancePixel_mode (s : State) : (advancePixel s).mode = s.mode := rfl
@[simp] theorem advancePixel_ph (s : State) : (advancePixel s).ph = s.ph := rfl
@[simp] theorem advancePixel_refused (s : State) : (advancePixel s).refused = s.refused := rfl
@[simp] theorem advancePixel_err (s : State) : (advancePixel s).err = s.err := rfl
@[simp] theorem advancePixel_width (s : State) : (advancePixel s).width = s.width := rfl
@[simp] theorem advancePixel_height (s : State) : (advancePixel s).height = s.height := rfl
@[simp] theorem advancePixel_channels (s : State) : (advancePixel s).channels = s.channels := rfl
@[simp] theorem advancePixel_colorspace (s : State) : (advancePixel s).colorspace = s.colorspace := rfl
@[simp] theorem advancePixel_inLen (s : State) : (advancePixel s).inLen = s.inLen := rfl
@[simp] theorem advancePixel_outLen (s : State) : (advancePixel s).outLen = s.outLen := rfl
@[simp] theorem advancePixel_inBuf (s : State) : (advancePixel s).inBuf = s.inBuf := rfl
@[simp] theorem advancePixel_outBuf (s : State) : (advancePixel s).outBuf = s.outBuf := rfl
@[simp] theorem advancePixel_written (s : State) : (advancePixel s).written = s.written := rfl
@[simp] theorem advancePixel_halted (s : State) : (advancePixel s).halted = s.halted := rfl
@[simp] theorem advancePixel_cfg (s : State) : (advancePixel s).cfg = s.cfg := rfl
@[simp] theorem advancePixel_host (s : State) : (advancePixel s).host = s.host := rfl
@[simp] theorem advancePixel_rdata (s : State) : (advancePixel s).rdata = s.rdata := rfl
@[simp] theorem advancePixel_fresh (s : State) : (advancePixel s).fresh = s.fresh := rfl

@[simp] theorem takeError_cache (e : Err) (s : State) : (takeError e s).cache = s.cache := rfl
@[simp] theorem takeError_prev (e : Err) (s : State) : (takeError e s).prev = s.prev := rfl
@[simp] theorem takeError_run (e : Err) (s : State) : (takeError e s).run = s.run := rfl
@[simp] theorem takeError_pc (e : Err) (s : State) : (takeError e s).pc = s.pc := rfl
@[simp] theorem takeError_wp (e : Err) (s : State) : (takeError e s).wp = s.wp := rfl
@[simp] theorem takeError_px (e : Err) (s : State) : (takeError e s).px = s.px := rfl
@[simp] theorem takeError_npx (e : Err) (s : State) : (takeError e s).npx = s.npx := rfl
@[simp] theorem takeError_mode (e : Err) (s : State) : (takeError e s).mode = s.mode := rfl
@[simp] theorem takeError_ph (e : Err) (s : State) : (takeError e s).ph = .error := rfl
@[simp] theorem takeError_refused (e : Err) (s : State) : (takeError e s).refused = s.refused := rfl
@[simp] theorem takeError_err (e : Err) (s : State) : (takeError e s).err = errCode e := rfl
@[simp] theorem takeError_width (e : Err) (s : State) : (takeError e s).width = if s.mode = .dec then Config.freeWidth s.fresh else s.width := rfl
@[simp] theorem takeError_height (e : Err) (s : State) : (takeError e s).height = if s.mode = .dec then Config.freeHeight s.fresh else s.height := rfl
@[simp] theorem takeError_channels (e : Err) (s : State) : (takeError e s).channels = if s.mode = .dec then Config.freeChannels s.fresh else s.channels := rfl
@[simp] theorem takeError_colorspace (e : Err) (s : State) : (takeError e s).colorspace = if s.mode = .dec then Config.freeColorspace s.fresh else s.colorspace := rfl
@[simp] theorem takeError_inLen (e : Err) (s : State) : (takeError e s).inLen = s.inLen := rfl
@[simp] theorem takeError_outLen (e : Err) (s : State) : (takeError e s).outLen = 0 := rfl
@[simp] theorem takeError_inBuf (e : Err) (s : State) : (takeError e s).inBuf = s.inBuf := rfl
@[simp] theorem takeError_outBuf (e : Err) (s : State) : (takeError e s).outBuf = s.outBuf := rfl
@[simp] theorem takeError_written (e : Err) (s : State) : (takeError e s).written = s.written := rfl
@[simp] theorem takeError_halted (e : Err) (s : State) : (takeError e s).halted = s.halted := rfl
@[simp] theorem takeError_cfg (e : Err) (s : State) : (takeError e s).cfg = s.cfg := rfl
@[simp] theorem takeError_host (e : Err) (s : State) : (takeError e s).host = s.host := rfl
@[simp] theorem takeError_rdata (e : Err) (s : State) : (takeError e s).rdata = s.rdata := rfl
@[simp] theorem takeError_fresh (e : Err) (s : State) : (takeError e s).fresh = if s.mode = .dec then s.fresh + 1 else s.fresh := rfl

@[simp] theorem markRefused_cache (s : State) : (markRefused s).cache = s.cache := rfl
@[simp] theorem markRefused_prev (s : State) : (markRefused s).prev = s.prev := rfl
@[simp] theorem markRefused_run (s : State) : (markRefused s).run = s.run := rfl
@[simp] theorem markRefused_pc (s : State) : (markRefused s).pc = s.pc := rfl
@[simp] theorem markRefused_wp (s : State) : (markRefused s).wp = s.wp := rfl
@[simp] theorem markRefused_px (s : State) : (markRefused s).px = s.px := rfl
@[simp] theorem markRefused_npx (s : State) : (markRefused s).npx = s.npx := rfl
@[simp] theorem markRefused_mode (s : State) : (markRefused s).mode = s.mode := rfl
@[simp] theorem markRefused_ph (s : State) : (markRefused s).ph = s.ph := rfl
@[simp] theorem markRefused_refused (s : State) : (markRefused s).refused = true := rfl
@[simp] theorem markRefused_err (s : State) : (markRefused s).err = s.err := rfl
@[simp] theorem markRefused_width (s : State) : (markRefused s).width = s.width := rfl
@[simp] theorem markRefused_height (s : State) : (markRefused s).height = s.height := rfl
@[simp] theorem markRefused_channels (s : State) : (markRefused s).channels = s.channels := rfl
@[simp] theorem markRefused_colorspace (s : State) : (markRefused s).colorspace = s.colorspace := rfl
@[simp] theorem markRefused_inLen (s : State) : (markRefused s).inLen = s.inLen := rfl
@[simp] theorem markRefused_outLen (s : State) : (markRefused s).outLen = s.outLen := rfl
@[simp] theorem markRefused_inBuf (s : State) : (markRefused s).inBuf = s.inBuf := rfl
@[simp] theorem markRefused_outBuf (s : State) : (markRefused s).outBuf = s.outBuf := rfl
@[simp] theorem markRefused_written (s : State) : (markRefused s).written = s.written := rfl
@[simp] theorem markRefused_halted (s : State) : (markRefused s).halted = true := rfl
@[simp] theorem markRefused_cfg (s : State) : (markRefused s).cfg = s.cfg := rfl
@[simp] theorem markRefused_host (s : State) : (markRefused s).host = s.host := rfl
@[simp] theorem markRefused_rdata (s : State) : (markRefused s).rdata = s.rdata := rfl
@[simp] theorem markRefused_fresh (s : State) : (markRefused s).fresh = s.fresh := rfl

@[simp] theorem startTransaction_cache (m : Mode) (s : State) : (startTransaction m s).cache = Vector.replicate 64 Pixel.zero := rfl
@[simp] theorem startTransaction_prev (m : Mode) (s : State) : (startTransaction m s).prev = { r := 0, g := 0, b := 0, a := 255 } := rfl
@[simp] theorem startTransaction_run (m : Mode) (s : State) : (startTransaction m s).run = 0 := rfl
@[simp] theorem startTransaction_pc (m : Mode) (s : State) : (startTransaction m s).pc = 0 := rfl
@[simp] theorem startTransaction_wp (m : Mode) (s : State) : (startTransaction m s).wp = 0 := rfl
@[simp] theorem startTransaction_px (m : Mode) (s : State) : (startTransaction m s).px = 0 := rfl
@[simp] theorem startTransaction_npx (m : Mode) (s : State) : (startTransaction m s).npx = s.npx := rfl
@[simp] theorem startTransaction_mode (m : Mode) (s : State) : (startTransaction m s).mode = m := rfl
@[simp] theorem startTransaction_ph (m : Mode) (s : State) : (startTransaction m s).ph = .hdr := rfl
@[simp] theorem startTransaction_refused (m : Mode) (s : State) : (startTransaction m s).refused = s.refused := rfl
@[simp] theorem startTransaction_err (m : Mode) (s : State) : (startTransaction m s).err = 0 := rfl
@[simp] theorem startTransaction_width (m : Mode) (s : State) : (startTransaction m s).width = s.width := rfl
@[simp] theorem startTransaction_height (m : Mode) (s : State) : (startTransaction m s).height = s.height := rfl
@[simp] theorem startTransaction_channels (m : Mode) (s : State) : (startTransaction m s).channels = s.channels := rfl
@[simp] theorem startTransaction_colorspace (m : Mode) (s : State) : (startTransaction m s).colorspace = s.colorspace := rfl
@[simp] theorem startTransaction_inLen (m : Mode) (s : State) : (startTransaction m s).inLen = s.inLen := rfl
@[simp] theorem startTransaction_outLen (m : Mode) (s : State) : (startTransaction m s).outLen = 0 := rfl
@[simp] theorem startTransaction_inBuf (m : Mode) (s : State) : (startTransaction m s).inBuf = s.inBuf := rfl
@[simp] theorem startTransaction_outBuf (m : Mode) (s : State) : (startTransaction m s).outBuf = s.outBuf := rfl
@[simp] theorem startTransaction_written (m : Mode) (s : State) : (startTransaction m s).written = s.written := rfl
@[simp] theorem startTransaction_halted (m : Mode) (s : State) : (startTransaction m s).halted = false := rfl
@[simp] theorem startTransaction_cfg (m : Mode) (s : State) : (startTransaction m s).cfg = s.cfg := rfl
@[simp] theorem startTransaction_host (m : Mode) (s : State) : (startTransaction m s).host = s.host := rfl
@[simp] theorem startTransaction_rdata (m : Mode) (s : State) : (startTransaction m s).rdata = s.rdata := rfl
@[simp] theorem startTransaction_fresh (m : Mode) (s : State) : (startTransaction m s).fresh = s.fresh := rfl

@[simp] theorem noteReads_cache (s t : State) : (noteReads s t).cache = t.cache := rfl
@[simp] theorem noteReads_prev (s t : State) : (noteReads s t).prev = t.prev := rfl
@[simp] theorem noteReads_run (s t : State) : (noteReads s t).run = t.run := rfl
@[simp] theorem noteReads_pc (s t : State) : (noteReads s t).pc = t.pc := rfl
@[simp] theorem noteReads_wp (s t : State) : (noteReads s t).wp = t.wp := rfl
@[simp] theorem noteReads_px (s t : State) : (noteReads s t).px = t.px := rfl
@[simp] theorem noteReads_npx (s t : State) : (noteReads s t).npx = t.npx := rfl
@[simp] theorem noteReads_mode (s t : State) : (noteReads s t).mode = t.mode := rfl
@[simp] theorem noteReads_ph (s t : State) : (noteReads s t).ph = t.ph := rfl
@[simp] theorem noteReads_refused (s t : State) : (noteReads s t).refused = (t.refused || readsUnwritten s) := rfl
@[simp] theorem noteReads_err (s t : State) : (noteReads s t).err = t.err := rfl
@[simp] theorem noteReads_width (s t : State) : (noteReads s t).width = t.width := rfl
@[simp] theorem noteReads_height (s t : State) : (noteReads s t).height = t.height := rfl
@[simp] theorem noteReads_channels (s t : State) : (noteReads s t).channels = t.channels := rfl
@[simp] theorem noteReads_colorspace (s t : State) : (noteReads s t).colorspace = t.colorspace := rfl
@[simp] theorem noteReads_inLen (s t : State) : (noteReads s t).inLen = t.inLen := rfl
@[simp] theorem noteReads_outLen (s t : State) : (noteReads s t).outLen = t.outLen := rfl
@[simp] theorem noteReads_inBuf (s t : State) : (noteReads s t).inBuf = t.inBuf := rfl
@[simp] theorem noteReads_outBuf (s t : State) : (noteReads s t).outBuf = t.outBuf := rfl
@[simp] theorem noteReads_written (s t : State) : (noteReads s t).written = t.written := rfl
@[simp] theorem noteReads_halted (s t : State) : (noteReads s t).halted = (t.halted || readsUnwritten s) := rfl
@[simp] theorem noteReads_cfg (s t : State) : (noteReads s t).cfg = t.cfg := rfl
@[simp] theorem noteReads_host (s t : State) : (noteReads s t).host = t.host := rfl
@[simp] theorem noteReads_rdata (s t : State) : (noteReads s t).rdata = t.rdata := rfl
@[simp] theorem noteReads_fresh (s t : State) : (noteReads s t).fresh = t.fresh := rfl

/-- Hardware reset leaves what is not the block's and sets the rest as State.reset (70_reset_and_hazards.md R250). -/
theorem hardReset_eq (s : State) :
    hardReset s = { State.reset with cfg := s.cfg, host := s.host, rdata := s.rdata, fresh := s.fresh } := rfl

end Sys2Proof.Machine
end

