-- ==== Sys2Proof/Laws/Ops.lean ====
section
/-! SUPPORT. For each shared operation one lemma that says once everything it can do. -/

namespace Sys2Proof.Machine

open Sys2Proof

/-- `MemRead` answers bytes exactly when they lie below `IN_LEN`, exist, and have all been written. -/
theorem memRead_eq_ok {s : State} {a n : Nat} {bs : List Byte} :
    memRead s a n = .ok bs ↔ a + n ≤ s.inLen ∧ fits s.cfg (a + n) = true ∧ s.inBuf.readBytes a n = some bs := by
  simp only [memRead]
  split_ifs with h1 h2
  · cases h : s.inBuf.readBytes a n <;> simp [h1, h2]
  · simp [h2]
  · simp [h1]

/-- `MemRead` fails exactly beyond `IN_LEN`, with the phase's truncation error (20_memory.md R52). -/
theorem memRead_eq_raise {s : State} {a n : Nat} {e : Err} :
    memRead s a n = .error (.raise e) ↔ s.inLen < a + n ∧ e = truncationError s.ph := by
  simp only [memRead]
  split_ifs with h1 h2
  · cases h : s.inBuf.readBytes a n <;> simp [h1]
  · simp [h1]
  · simp [Nat.lt_of_not_ge h1, eq_comm]

/-- `MemRead` is refused exactly below `IN_LEN` at a byte that is unwritten or beyond the capacity (60_exceptions.md R243
cases 2 and 3). -/
theorem memRead_eq_refuse {s : State} {a n : Nat} :
    memRead s a n = .error .refuse ↔
      a + n ≤ s.inLen ∧ (fits s.cfg (a + n) = false ∨ s.inBuf.readBytes a n = none) := by
  simp only [memRead]
  split_ifs with h1 h2
  · cases h : s.inBuf.readBytes a n <;> simp [h1, h2]
  · simp [h1, h2]
  · simp [h1]

theorem memRead_ne_noStep {s : State} {a n : Nat} : memRead s a n ≠ .error .noStep := by
  simp only [memRead]
  split_ifs
  · cases s.inBuf.readBytes a n <;> simp
  · simp
  · simp

/-- The ways `MemRead` stops. -/
theorem memRead_eq_error {s : State} {a n : Nat} {x : Stop} (h : memRead s a n = .error x) :
    (s.inLen < a + n ∧ x = .raise (truncationError s.ph)) ∨ x = .refuse := by
  cases x with
  | raise e => obtain ⟨hl, rfl⟩ := memRead_eq_raise.1 h; exact .inl ⟨hl, rfl⟩
  | refuse => exact .inr rfl
  | noStep => exact absurd h memRead_ne_noStep

theorem memRead_beyond {s : State} {a n : Nat} (h : s.inLen < a + n) :
    memRead s a n = .error (.raise (truncationError s.ph)) := memRead_eq_raise.2 ⟨h, rfl⟩

/-- `emit` writes at `wp` and advances it, and does nothing else. -/
theorem emit_eq_ok {v : List Byte} {s t : State} :
    emit v s = .ok t ↔ fits s.cfg (s.wp + v.length) = true ∧
      t = { s with outBuf := s.outBuf.writeBytes s.wp v, wp := s.wp + v.length } := by
  simp only [emit, memWrite]
  split_ifs with h
  · simp [h, eq_comm]
  · simp [h]

/-- `emit` stops only at the capacity. -/
theorem emit_eq_error {v : List Byte} {s : State} {x : Stop} (h : emit v s = .error x) :
    x = .refuse ∧ fits s.cfg (s.wp + v.length) = false := by
  simp only [emit, memWrite] at h
  split_ifs at h with h1
  exact ⟨by simpa using h.symm, by simpa using h1⟩

/-- The bytes `flush_run()` emits (41_pixel_history.md R126). -/
def flushBytes (run : BitVec 6) : List Byte := if run = 0 then [] else encode (.run (run - 1))

@[simp] theorem writeBytes_flush_zero (m : Mem) (a : Nat) : m.writeBytes a (flushBytes 0) = m := rfl

/-- `flush_run()` emits the pending run, if any, and clears it. -/
theorem flushRun_eq_ok {s t : State} (h : flushRun s = .ok t) :
    t = { s with
          outBuf := s.outBuf.writeBytes s.wp (flushBytes s.run)
          wp := s.wp + (flushBytes s.run).length
          run := 0 } := by
  unfold flushRun at h
  split_ifs at h with h0
  · obtain rfl := by simpa using h
    obtain ⟨⟩ := s
    simp_all [flushBytes]
  · cases he : emit (encode (.run (s.run - 1))) s with
    | error x => rw [he] at h; cases h
    | ok u =>
      rw [he] at h
      obtain ⟨-, rfl⟩ := emit_eq_ok.1 he
      obtain rfl := Except.ok.inj h
      rw [flushBytes, if_neg h0]

theorem flushRun_eq_error {s : State} {x : Stop} (h : flushRun s = .error x) : x = .refuse := by
  unfold flushRun at h
  split_ifs at h
  cases he : emit (encode (.run (s.run - 1))) s with
  | error y => rw [he] at h; exact Except.error.inj h ▸ (emit_eq_error he).1
  | ok u => rw [he] at h; cases h

/-- The run is flushed whenever the capacity allows its one byte. -/
theorem flushRun_completes {s : State} (h : fits s.cfg (s.wp + (flushBytes s.run).length) = true) :
    flushRun s = .ok { s with
          outBuf := s.outBuf.writeBytes s.wp (flushBytes s.run)
          wp := s.wp + (flushBytes s.run).length
          run := 0 } := by
  cases hf : flushRun s with
  | ok t => rw [flushRun_eq_ok hf]
  | error x =>
    unfold flushRun at hf
    unfold flushBytes at h
    by_cases h0 : s.run = 0
    · rw [if_pos h0] at hf; cases hf
    · rw [if_neg h0] at hf h
      rw [emit_eq_ok.2 ⟨h, rfl⟩] at hf
      cases hf

/-- A pixel's bytes are as many as the channels the block knows. -/
theorem pixelBytes_length (c : Byte) (p : Pixel) : (pixelBytes c p).length = if c = 4 then 4 else 3 := by
  simp only [pixelBytes]; split_ifs <;> rfl

/-- `n` repeats of one pixel are one long `emit`. -/
theorem outPixels_eq_ok {n : Nat} {p : Pixel} {s t : State} (h : outPixels n p s = .ok t) :
    t = { s with
          outBuf := s.outBuf.writeBytes s.wp (List.replicate n (pixelBytes s.channels p)).flatten
          wp := s.wp + n * (pixelBytes s.channels p).length } := by
  induction n generalizing s with
  | zero => obtain rfl : s = t := by simpa [outPixels] using h
            simp
  | succ n ih =>
    simp only [outPixels] at h
    cases ho : outPixel p s with
    | error x => simp [ho] at h
    | ok u =>
      rw [ho] at h
      obtain ⟨-, rfl⟩ := emit_eq_ok.1 ho
      rw [ih h]
      simp [List.replicate_succ, Mem.writeBytes_append, Nat.succ_mul, Nat.add_assoc, Nat.add_comm]

theorem outPixels_eq_error {n : Nat} {p : Pixel} {s : State} {x : Stop} (h : outPixels n p s = .error x) :
    x = .refuse := by
  induction n generalizing s with
  | zero => simp [outPixels] at h
  | succ n ih =>
    simp only [outPixels] at h
    cases ho : outPixel p s with
    | error y => simp only [ho, Except.error.injEq] at h; exact h ▸ (emit_eq_error ho).1
    | ok u => rw [ho] at h; exact ih h

/-- What `fetch_pixel()` reads (42_chunk_encoder.md R141). -/
theorem fetchPixel_eq_ok {s : State} {p : Pixel} :
    fetchPixel s = .ok p ↔ ∃ bs, memRead s s.pc s.channels.toNat = .ok bs ∧ pixelOfBytes s.channels bs = some p := by
  simp only [fetchPixel]
  cases hm : memRead s s.pc s.channels.toNat with
  | error x => simp
  | ok bs => cases hp : pixelOfBytes s.channels bs <;> simp [hp]

/-- `check_fields` passes exactly the documented channel counts, and under `STRICT` the documented colour spaces. -/
theorem checkFields_eq_ok {p : Params} {c cs : Byte} :
    checkFields p c cs = .ok () ↔ (c = 3 ∨ c = 4) ∧ (p.strict = true → cs = 0 ∨ cs = 1) := by
  simp only [checkFields]
  split_ifs <;> simp_all <;> tauto

/-- `finish(p, n)` (43_chunk_decoder.md R178): commit, output, counters, and nothing else. -/
theorem finish_eq_ok {p : Pixel} {n : Nat} {s t : State} :
    finish p n s = .ok t ↔ fits s.cfg (s.wp + (pixelBytes s.channels p).length) = true ∧
      t = { commit p s with
            outBuf := s.outBuf.writeBytes s.wp (pixelBytes s.channels p)
            wp := s.wp + (pixelBytes s.channels p).length
            px := s.px + 1
            pc := s.pc + n } := by
  simp only [finish, outPixel]
  cases he : emit (pixelBytes (commit p s).channels p) (commit p s) with
  | ok u =>
    obtain ⟨hf, rfl⟩ := emit_eq_ok.1 he
    simp only [commit_cfg, commit_wp, commit_channels] at hf
    simp [hf, eq_comm, commit_outBuf]
  | error x =>
    obtain ⟨-, hf⟩ := emit_eq_error he
    simp only [commit_cfg, commit_wp, commit_channels] at hf
    simp [hf]

theorem finish_eq_error {p : Pixel} {n : Nat} {s : State} {x : Stop} (h : finish p n s = .error x) : x = .refuse := by
  simp only [finish, outPixel] at h
  cases he : emit (pixelBytes s.channels p) (commit p s) with
  | ok u => rw [commit_channels, he] at h; cases h
  | error y => rw [commit_channels, he] at h; exact Except.error.inj h ▸ (emit_eq_error he).1

/-- The output and counters of a decoded run (43_chunk_decoder.md R177). -/
theorem repeatPrev_eq_ok {n : Nat} {s t : State} (h : repeatPrev n s = .ok t) :
    t = { s with
          outBuf := s.outBuf.writeBytes s.wp (List.replicate n (pixelBytes s.channels s.prev)).flatten
          wp := s.wp + n * (pixelBytes s.channels s.prev).length
          px := s.px + n
          pc := s.pc + 1 } := by
  simp only [repeatPrev] at h
  cases ho : outPixels n s.prev s with
  | error x => simp [ho] at h
  | ok u =>
    simp only [ho, Except.ok.injEq] at h
    subst h
    rw [outPixels_eq_ok ho]

/-- The three ways a decoded run completes or stops. -/
theorem decodeRun_cases (len1 : BitVec 6) (s : State) :
    (s.px + runLength len1 ≤ s.npx ∧ decodeRun len1 s = repeatPrev (runLength len1) s) ∨
    (s.npx < s.px + runLength len1 ∧ s.cfg.overshoot = .fail ∧ decodeRun len1 s = .error (.raise .pixelOverflow)) ∨
    (s.npx < s.px + runLength len1 ∧ s.cfg.overshoot = .truncate ∧ decodeRun len1 s = repeatPrev (s.npx - s.px) s) := by
  simp only [decodeRun]
  split_ifs with h
  · cases ho : s.cfg.overshoot <;> simp [h]
  · exact .inl ⟨by omega, rfl⟩

/-- A pixel step that emits a chunk (42_chunk_encoder.md R144, R146 to R151): the flush and the chunk are one string
at `wp`. -/
theorem encodeChunk_eq_ok {i : Instr} {s t : State} (h : encodeChunk i s = .ok t) :
    ∃ p, fetchPixel s = .ok p ∧ selectChunk p s = i ∧
      t = { commit p s with
            outBuf := s.outBuf.writeBytes s.wp (flushBytes s.run ++ encode i)
            wp := s.wp + (flushBytes s.run ++ encode i).length
            run := 0
            pc := s.pc + s.channels.toNat
            px := s.px + 1 } := by
  simp only [encodeChunk] at h
  cases hp : fetchPixel s with
  | error x => simp [hp] at h
  | ok p =>
    simp only [hp] at h
    split_ifs at h with hs
    cases hf : flushRun s with
    | error x => simp [hf] at h
    | ok s1 =>
      simp only [hf] at h
      cases he : emit (encode i) s1 with
      | error x => simp [he] at h
      | ok s2 =>
        simp only [he, Except.ok.injEq] at h
        obtain ⟨-, rfl⟩ := emit_eq_ok.1 he
        obtain rfl := flushRun_eq_ok hf
        refine ⟨p, rfl, hs, ?_⟩
        subst h
        simp [commit, update, writeSlot, advancePixel, Mem.writeBytes_append, Nat.add_assoc]

/-- A pixel step of a pixel equal to `prev` (42_chunk_encoder.md R143, R145). -/
theorem encodeRun_eq_ok {len1 : BitVec 6} {s t : State} (h : encodeRun len1 s = .ok t) :
    ∃ p, fetchPixel s = .ok p ∧ selectChunk p s = .run len1 ∧
      ((s.run < 62 ∧ t = advancePixel (advanceRun s)) ∨
       (¬ s.run < 62 ∧ t = advancePixel { s with outBuf := s.outBuf.writeBytes s.wp [0xFD], wp := s.wp + 1, run := 1 })) := by
  unfold encodeRun at h
  cases hp : fetchPixel s with
  | error x => simp [hp] at h
  | ok p =>
    simp only [hp] at h
    split_ifs at h with hs hr
    · exact ⟨p, rfl, hs, .inl ⟨hr, by simpa using h.symm⟩⟩
    · cases he : emit [0xFD] s with
      | error x => rw [he] at h; cases h
      | ok s1 =>
        rw [he] at h
        obtain ⟨-, rfl⟩ := emit_eq_ok.1 he
        exact ⟨p, rfl, hs, .inr ⟨hr, (Except.ok.inj h).symm⟩⟩

/-- Outside HDR a step reads no unwritten register. -/
theorem readsUnwritten_of_ne_hdr {s : State} (h : s.ph ≠ .hdr) : readsUnwritten s = false := by simp [readsUnwritten, h]

theorem noteReads_of_ne_hdr {s : State} (h : s.ph ≠ .hdr) (t : State) : noteReads s t = t := by
  simp [noteReads, readsUnwritten_of_ne_hdr h]

/-- What a step concludes: the completed state or an error taken from the state before it, either with the mark where a
register it read is unwritten; or the mark alone. -/
theorem conclude_next {s t : State} {r : Except Stop State} (h : conclude s r = .next t) :
    (∃ u, r = .ok u ∧ t = noteReads s u) ∨ (∃ e, r = .error (.raise e) ∧ t = noteReads s (takeError e s)) ∨
      (r = .error .refuse ∧ t = markRefused s) := by
  unfold conclude at h
  split at h
  · exact .inl ⟨_, rfl, by simpa using h.symm⟩
  · exact .inr (.inl ⟨_, rfl, by simpa using h.symm⟩)
  · exact .inr (.inr ⟨rfl, by simpa using h.symm⟩)
  · cases h

/-- When a chunk answers a next state, and through which side. -/
theorem bodyStep_next {s t : State} {d e : Except Stop State} (h : bodyStep s d e = .next t) :
    s.ph = .body ∧ s.px < s.npx ∧
      ((s.mode = .dec ∧ conclude s d = .next t) ∨ (s.mode = .enc ∧ conclude s e = .next t)) := by
  unfold bodyStep at h
  by_cases h2 : bodyEnabled s = true
  · rw [if_pos h2] at h
    simp only [bodyEnabled, Bool.and_eq_true, decide_eq_true_eq] at h2
    refine ⟨h2.1, h2.2, ?_⟩
    cases hm : s.mode <;> simp only [hm] at h <;> simp [h]
  · rw [if_neg h2] at h; cases h

/-- `D-HDR` completed (43_chunk_decoder.md R170). -/
theorem decodeHeaderStep_eq_ok {w h : BitVec 32} {c cs : Byte} {s t : State} :
    decodeHeaderStep w h c cs s = .ok t ↔ checkFields s.cfg c cs = .ok () ∧
      t = { s with
            width := w, height := h, channels := c, colorspace := cs, written := s.written.withGeometry
            npx := pixelTotal w h, pc := 14, ph := .body } := by
  simp only [decodeHeaderStep]
  cases hc : checkFields s.cfg c cs <;> simp [eq_comm]

/-- `E-HDR` completed (42_chunk_encoder.md R140). -/
theorem encodeHeaderStep_eq_ok {w h : BitVec 32} {c cs : Byte} {s t : State}
    (hs : encodeHeaderStep w h c cs s = .ok t) :
    (w = s.width ∧ h = s.height ∧ c = s.channels ∧ cs = s.colorspace) ∧ checkFields s.cfg c cs = .ok () ∧
      s.inLen = pixelTotal w h * c.toNat ∧
      t = { s with
            npx := pixelTotal w h
            outBuf := s.outBuf.writeBytes s.wp (encode (.header w h c cs))
            wp := s.wp + (encode (.header w h c cs)).length
            ph := .body } := by
  unfold encodeHeaderStep at hs
  split at hs
  swap
  · cases hs
  rename_i hr
  refine ⟨hr, ?_⟩
  split at hs
  · cases hs
  rename_i hc
  split_ifs at hs with hl
  split at hs
  · cases hs
  rename_i t' he
  obtain ⟨-, rfl⟩ := emit_eq_ok.1 he
  exact ⟨hc, not_not.1 hl, (Except.ok.inj hs).symm⟩

/-- `E-TAIL` completed (42_chunk_encoder.md R156): the pending run and the marker are one string at `wp`. -/
theorem encodeTail_eq_ok {s t : State} (h : encodeTail s = .ok t) :
    t = { s with
          outBuf := s.outBuf.writeBytes s.wp (flushBytes s.run ++ endMarkerBytes)
          wp := s.wp + (flushBytes s.run ++ endMarkerBytes).length
          run := 0
          outLen := s.wp + (flushBytes s.run ++ endMarkerBytes).length
          ph := .done } := by
  simp only [encodeTail] at h
  cases hf : flushRun s with
  | error x => simp [hf] at h
  | ok s1 =>
    simp only [hf] at h
    cases he : emit (encode .endMarker) s1 with
    | error x => simp [he] at h
    | ok s2 =>
      simp only [he, Except.ok.injEq] at h
      obtain ⟨-, rfl⟩ := emit_eq_ok.1 he
      obtain rfl := flushRun_eq_ok hf
      subst h
      simp [encode, Mem.writeBytes_append, Nat.add_assoc]

/-- A START: ignored while BUSY, else stream start. -/
theorem startCommand_next {m : Mode} {s t : State} (h : startCommand m s = .next t) :
    (busy s = true ∧ t = s) ∨ (busy s = false ∧ t = startTransaction m s) := by
  simp only [startCommand] at h
  split_ifs at h <;> simp_all

end Sys2Proof.Machine
end

