-- ==== Sys2Proof/Laws/Engine.lean ====
section
/-! SUPPORT. What a step can do, said once: the engine's turn, the host's moves, and the instruction of the enabled
step. -/

namespace Sys2Proof.Machine

open Sys2Proof

theorem busy_eq_true {s : State} : busy s = true ↔ s.ph = .hdr ∨ s.ph = .body := by
  cases h : s.ph <;> simp [busy, h]

theorem busy_eq_false {s : State} : busy s = false ↔ s.ph = .idle ∨ s.ph = .done ∨ s.ph = .error := by
  cases h : s.ph <;> simp [busy, h]

/-- `STATUS` reads 1 exactly while the block is busy (10_state.md R35). -/
theorem status_eq_one {s : State} : s.status = 1 ↔ busy s = true := by
  cases h : s.ph <;> simp [State.status, busy, h]

theorem headerEnabled_eq_true {s : State} : headerEnabled s = true ↔ s.ph = .hdr := by simp [headerEnabled]

theorem bodyEnabled_eq_true {s : State} : bodyEnabled s = true ↔ s.ph = .body ∧ s.px < s.npx := by simp [bodyEnabled]

theorem tailEnabled_eq_true {s : State} : tailEnabled s = true ↔ s.ph = .body ∧ s.px = s.npx := by simp [tailEnabled]

/-- The engine's turn: nothing while not busy or once the transaction is refused, else the enabled step's instruction, or
the error or refusal met on the way to it. -/
theorem engineStep_next {s t : State} (h : engineStep s = .next t) :
    ((busy s = false ∨ s.halted = true) ∧ t = s) ∨
    (busy s = true ∧ s.halted = false ∧
      ((∃ i, currentInstr s = .ok i ∧ exec i s = .next t) ∨
       (∃ e, currentInstr s = .error (.raise e) ∧ t = noteReads s (takeError e s)) ∨
       (currentInstr s = .error .refuse ∧ t = markRefused s))) := by
  unfold engineStep at h
  split_ifs at h with hb
  · obtain ⟨hb, hh⟩ : busy s = true ∧ s.halted = false := by simpa using hb
    refine .inr ⟨hb, hh, ?_⟩
    cases hc : currentInstr s with
    | ok i => rw [hc] at h; exact .inl ⟨i, rfl, h⟩
    | error x =>
      rw [hc] at h
      rcases conclude_next h with ⟨u, h, -⟩ | ⟨e, he, rfl⟩ | ⟨he, hr⟩
      · cases h
      · exact .inr (.inl ⟨e, congrArg _ (Except.error.inj he), rfl⟩)
      · exact .inr (.inr ⟨congrArg _ (Except.error.inj he), hr⟩)
  · exact .inl ⟨by cases h1 : busy s <;> simp_all, by simpa using h.symm⟩

/-- A step of the whole machine: the engine's turn, or the host's next move. -/
theorem step_next {s t : State} (h : step s = .next t) :
    (s.host = [] ∧ engineStep s = .next t) ∨
    (∃ op rest, s.host = op :: rest ∧ hostMove op { s with host := rest } = .next t) := by
  unfold step turn at h
  split at h
  case h_1 hh => exact .inl ⟨hh, h⟩
  case h_2 op rest hh => exact .inr ⟨op, rest, hh, h⟩

/-- What a host move can change. It is the engine's turn, a command, hardware reset, or it leaves everything but the
host-owned registers (untouched while BUSY), `IN` (at most one byte), and the model's own `rdata` and `fresh`. -/
theorem hostMove_next {op : HostOp} {s t : State} (h : hostMove op s = .next t) :
    (op = .engine ∧ engineStep s = .next t) ∨
    (∃ v i, op = .writeCmd v ∧ decodeCommand v = some i ∧ exec i s = .next t) ∨
    (op = .reset ∧ t = hardReset s) ∨
    (t = { s with
        width := t.width, height := t.height, channels := t.channels, colorspace := t.colorspace, inLen := t.inLen
        written := t.written, inBuf := t.inBuf, rdata := t.rdata, fresh := t.fresh } ∧
      (busy s = true →
        t.width = s.width ∧ t.height = s.height ∧ t.channels = s.channels ∧ t.colorspace = s.colorspace ∧
          t.inLen = s.inLen ∧ t.written = s.written) ∧
      (t.inBuf = s.inBuf ∨ ∃ a v, t.inBuf = s.inBuf.write a v)) := by
  cases op
  case engine => exact .inl ⟨rfl, h⟩
  case reset => exact .inr (.inr (.inl ⟨rfl, by simpa [hostMove] using h.symm⟩))
  case writeCmd v =>
    simp only [hostMove] at h
    split at h
    case h_1 i hi => exact .inr (.inl ⟨v, i, rfl, hi, h⟩)
    case h_2 => obtain rfl : s = t := by simpa using h
                exact .inr (.inr (.inr ⟨rfl, fun _ => ⟨rfl, rfl, rfl, rfl, rfl, rfl⟩, .inl rfl⟩))
  all_goals
    simp only [hostMove, hostWrite, bufferAccess, hostWriteIn, hostReadIn, hostReadOut, hostReturns, hostReturnsFree] at h
    refine .inr (.inr (.inr ?_))
    first | split_ifs at h | skip
  all_goals
    first | split at h | skip
  all_goals
    obtain rfl := Host.Outcome.next.inj h
    refine ⟨rfl, fun hb => ?_, ?_⟩
  all_goals
    first
      | exact .inl rfl
      | exact .inr ⟨_, _, rfl⟩
      | exact ⟨rfl, rfl, rfl, rfl, rfl, rfl⟩
      | simp_all

/-! The instruction of the enabled step. -/

theorem decodeUnit_eq_ok {place : Place} {bytes : List Byte} {i : Instr} :
    decodeUnit place bytes = .ok i ↔ ∃ rest, decodeAt place bytes = .ok (i, rest) := by
  unfold decodeUnit
  split
  case h_1 j rest h => simp [h]
  case h_2 e h => simp [h]

/-- The header step's instruction is what the first fourteen bytes decode to (40_header_and_marker.md R101). -/
theorem fetchHeader_eq_ok {s : State} {i : Instr} (h : fetchHeader s = .ok i) :
    ∃ bytes rest, memRead s 0 14 = .ok bytes ∧ decodeAt .header bytes = .ok (i, rest) := by
  unfold fetchHeader at h
  split at h
  · cases h
  · split_ifs at h
    split at h
    · cases h
    · obtain ⟨rest, hr⟩ := decodeUnit_eq_ok.1 h
      exact ⟨_, rest, ‹_›, hr⟩

/-- The chunk step's instruction is what the bytes its tag announces decode to (43_chunk_decoder.md R171). -/
theorem fetchChunk_eq_ok {s : State} {i : Instr} (h : fetchChunk s = .ok i) :
    ∃ t ts bytes rest, memRead s s.pc 1 = .ok (t :: ts) ∧ memRead s s.pc (chunkLength t) = .ok bytes ∧
      decodeAt .chunk bytes = .ok (i, rest) := by
  unfold fetchChunk at h
  split at h
  · cases h
  · cases h
  · split at h
    · cases h
    · obtain ⟨rest, hr⟩ := decodeUnit_eq_ok.1 h
      exact ⟨_, _, _, rest, ‹_›, ‹_›, hr⟩

/-- The tail step of a decode reads eight bytes that are the marker (43_chunk_decoder.md R182). -/
theorem fetchMarker_eq_ok {s : State} {i : Instr} (h : fetchMarker s = .ok i) :
    ∃ bytes rest, memRead s s.pc 8 = .ok bytes ∧ decodeAt .marker bytes = .ok (i, rest) := by
  unfold fetchMarker at h
  split at h
  · cases h
  · obtain ⟨rest, hr⟩ := decodeUnit_eq_ok.1 h
    exact ⟨_, rest, ‹_›, hr⟩

/-- The pixel step's instruction is the chunk selected for the pixel at `pc` (42_chunk_encoder.md R142). -/
theorem fetchSelected_eq_ok {s : State} {i : Instr} :
    fetchSelected s = .ok i ↔ ∃ p, fetchPixel s = .ok p ∧ selectChunk p s = i := by
  unfold fetchSelected
  split
  case h_1 x h => simp [h]
  case h_2 p h => simp [h]

/-- The six kinds of step (10_state.md R31), one line each, and no step otherwise. -/
theorem currentInstr_eq (s : State) :
    (s.ph = .hdr → s.mode = .dec → currentInstr s = fetchHeader s) ∧
    (s.ph = .hdr → s.mode = .enc → currentInstr s = .ok (.header s.width s.height s.channels s.colorspace)) ∧
    (s.ph = .body → s.px < s.npx → s.mode = .dec → currentInstr s = fetchChunk s) ∧
    (s.ph = .body → s.px < s.npx → s.mode = .enc → currentInstr s = fetchSelected s) ∧
    (s.ph = .body → s.px = s.npx → s.mode = .dec → currentInstr s = fetchMarker s) ∧
    (s.ph = .body → s.px = s.npx → s.mode = .enc → currentInstr s = .ok .endMarker) ∧
    (s.ph = .body → s.npx < s.px → currentInstr s = .error .noStep) := by
  refine ⟨?_, ?_, ?_, ?_, ?_, ?_, fun h hlt => ?_⟩
  case refine_7 =>
    have h1 : ¬ s.px < s.npx := by omega
    have h2 : s.px ≠ s.npx := by omega
    simp [currentInstr, headerEnabled, bodyEnabled, tailEnabled, h, h1, h2]
  all_goals intros; simp_all [currentInstr, headerEnabled, bodyEnabled, tailEnabled]

end Sys2Proof.Machine
end

