-- ==== Sys2Proof/Laws/Exec.lean ====
section
/-! SUPPORT. How the meanings stop, when they complete, and in which phase an instruction answers a next state. -/

namespace Sys2Proof.Machine

open Sys2Proof

/-! Capacity (20_memory.md R51). -/

theorem fits_of_le {p : Params} {a b : Nat} (hf : fits p b = true) (h : a ≤ b) : fits p a = true := by
  unfold fits at *
  split at hf
  · rfl
  · simp_all; omega

/-! How the parts of a step stop. -/

/-- `check_fields` stops in three ways (40_header_and_marker.md R102). -/
theorem checkFields_eq_error {p : Params} {c cs : Byte} {x : Stop} (h : checkFields p c cs = .error x) :
    (p.strict = true ∧ x = .raise .unsupportedChannelCount ∧ c ≠ 3 ∧ c ≠ 4) ∨
    (p.strict = false ∧ x = .refuse ∧ c ≠ 3 ∧ c ≠ 4) ∨
    (p.strict = true ∧ x = .raise .unsupportedColorspace ∧ cs ≠ 0 ∧ cs ≠ 1) := by
  simp only [checkFields] at h
  split_ifs at h <;> simp_all

theorem fetchPixel_eq_error {s : State} {x : Stop} (h : fetchPixel s = .error x) :
    (s.inLen < s.pc + s.channels.toNat ∧ x = .raise (truncationError s.ph)) ∨ x = .refuse := by
  simp only [fetchPixel] at h
  cases hm : memRead s s.pc s.channels.toNat with
  | error y =>
    simp only [hm, Except.error.injEq] at h
    subst h
    exact memRead_eq_error hm
  | ok bs =>
    simp only [hm] at h
    cases hp : pixelOfBytes s.channels bs <;> simp [hp] at h
    exact .inr h.symm

theorem repeatPrev_eq_error {n : Nat} {s : State} {x : Stop} (h : repeatPrev n s = .error x) : x = .refuse := by
  simp only [repeatPrev] at h
  cases ho : outPixels n s.prev s with
  | error y => simp only [ho, Except.error.injEq] at h; exact h ▸ outPixels_eq_error ho
  | ok u => simp [ho] at h

theorem decodeRun_eq_error {len1 : BitVec 6} {s : State} {x : Stop} (h : decodeRun len1 s = .error x) :
    (s.npx < s.px + runLength len1 ∧ s.cfg.overshoot = .fail ∧ x = .raise .pixelOverflow) ∨ x = .refuse := by
  rcases decodeRun_cases len1 s with ⟨-, h'⟩ | ⟨h1, h2, h'⟩ | ⟨-, -, h'⟩ <;> rw [h'] at h
  · exact .inr (repeatPrev_eq_error h)
  · exact .inl ⟨h1, h2, (Except.error.inj h).symm⟩
  · exact .inr (repeatPrev_eq_error h)

/-- A pixel step stops where the pixel cannot be fetched, at the capacity, or because another chunk is the enabled one. -/
theorem encodeChunk_eq_error {i : Instr} {s : State} {x : Stop} (h : encodeChunk i s = .error x) :
    fetchPixel s = .error x ∨ x = .refuse ∨ x = .noStep := by
  simp only [encodeChunk] at h
  cases hp : fetchPixel s with
  | error y => rw [hp] at h; exact .inl (congrArg _ (Except.error.inj h))
  | ok p =>
    simp only [hp] at h
    split_ifs at h
    · cases hf : flushRun s with
      | error y => simp only [hf, Except.error.injEq] at h; exact .inr (.inl (h ▸ flushRun_eq_error hf))
      | ok s1 =>
        simp only [hf] at h
        cases he : emit (encode i) s1 with
        | error y => simp only [he, Except.error.injEq] at h; exact .inr (.inl (h ▸ (emit_eq_error he).1))
        | ok s2 => simp [he] at h
    · exact .inr (.inr (Except.error.inj h).symm)

theorem encodeRun_eq_error {len1 : BitVec 6} {s : State} {x : Stop} (h : encodeRun len1 s = .error x) :
    fetchPixel s = .error x ∨ x = .refuse ∨ x = .noStep := by
  simp only [encodeRun] at h
  cases hp : fetchPixel s with
  | error y => rw [hp] at h; exact .inl (congrArg _ (Except.error.inj h))
  | ok p =>
    simp only [hp] at h
    split_ifs at h
    · cases he : emit [0xFD] s with
      | error y => simp only [he, Except.error.injEq] at h; exact .inr (.inl (h ▸ (emit_eq_error he).1))
      | ok s1 => rw [he] at h; cases h
    · exact .inr (.inr (Except.error.inj h).symm)

theorem decodeHeaderStep_eq_error {w h : BitVec 32} {c cs : Byte} {s : State} {x : Stop}
    (hs : decodeHeaderStep w h c cs s = .error x) : checkFields s.cfg c cs = .error x := by
  simp only [decodeHeaderStep] at hs
  cases hc : checkFields s.cfg c cs <;> simp_all

theorem encodeHeaderStep_eq_error {w h : BitVec 32} {c cs : Byte} {s : State} {x : Stop}
    (hs : encodeHeaderStep w h c cs s = .error x) :
    checkFields s.cfg c cs = .error x ∨
      (s.inLen ≠ pixelTotal w h * c.toNat ∧ x = .raise .pixelCountMismatch) ∨ x = .refuse ∨ x = .noStep := by
  unfold encodeHeaderStep at hs
  split at hs
  swap
  · exact .inr (.inr (.inr (Except.error.inj hs).symm))
  split at hs
  · rename_i y hy
    obtain rfl := Except.error.inj hs
    exact .inl hy
  split_ifs at hs with hl
  · exact .inr (.inl ⟨hl, (Except.error.inj hs).symm⟩)
  split at hs
  · rename_i y hy
    obtain rfl := Except.error.inj hs
    exact .inr (.inr (.inl (emit_eq_error hy).1))
  · cases hs

theorem encodeTail_eq_error {s : State} {x : Stop} (h : encodeTail s = .error x) : x = .refuse := by
  simp only [encodeTail] at h
  cases hf : flushRun s with
  | error y => simp only [hf, Except.error.injEq] at h; exact h ▸ flushRun_eq_error hf
  | ok s1 =>
    simp only [hf] at h
    cases he : emit (encode .endMarker) s1 with
    | error y => simp only [he, Except.error.injEq] at h; exact h ▸ (emit_eq_error he).1
    | ok s2 => simp [he] at h

/-! When they complete. -/

theorem emit_completes {v : List Byte} {s : State} (h : fits s.cfg (s.wp + v.length) = true) :
    emit v s = .ok { s with outBuf := s.outBuf.writeBytes s.wp v, wp := s.wp + v.length } := emit_eq_ok.2 ⟨h, rfl⟩

/-- `n` repeats fit when their bytes do. -/
theorem outPixels_completes {n : Nat} {p : Pixel} {s : State}
    (h : fits s.cfg (s.wp + n * (pixelBytes s.channels p).length) = true) : ∃ t, outPixels n p s = .ok t := by
  induction n generalizing s with
  | zero => exact ⟨s, rfl⟩
  | succ n ih =>
    have h1 : fits s.cfg (s.wp + (pixelBytes s.channels p).length) = true :=
      fits_of_le h (by rw [Nat.succ_mul]; omega)
    simp only [outPixels, outPixel, emit_eq_ok.2 ⟨h1, rfl⟩]
    exact ih (fits_of_le h (by simp [Nat.succ_mul]; omega))

/-- A pixel step completes when its chunk is the selected one and the flush and the chunk fit. -/
theorem encodeChunk_completes {i : Instr} {s : State} {p : Pixel} (hp : fetchPixel s = .ok p)
    (hs : selectChunk p s = i) (h : fits s.cfg (s.wp + (flushBytes s.run ++ encode i).length) = true) :
    ∃ t, encodeChunk i s = .ok t := by
  rw [List.length_append] at h
  simp only [encodeChunk, hp, hs, if_true, flushRun_completes (fits_of_le h (by omega))]
  rw [emit_completes]
  · exact ⟨_, rfl⟩
  · exact fits_of_le h (by simp [Nat.add_assoc])

theorem encodeTail_completes {s : State}
    (h : fits s.cfg (s.wp + (flushBytes s.run ++ endMarkerBytes).length) = true) : ∃ t, encodeTail s = .ok t := by
  rw [List.length_append] at h
  simp only [encodeTail, flushRun_completes (fits_of_le h (by omega))]
  rw [emit_completes]
  · exact ⟨_, rfl⟩
  · exact fits_of_le h (by simp [encode, Nat.add_assoc])

/-! In which phase a frame answers a next state, and through which side (a chunk: bodyStep_next). -/

theorem execHeader_next {w h : BitVec 32} {c cs : Byte} {s t : State} (hs : exec (.header w h c cs) s = .next t) :
    s.ph = .hdr ∧
      ((s.mode = .dec ∧ conclude s (decodeHeaderStep w h c cs s) = .next t) ∨
       (s.mode = .enc ∧ conclude s (encodeHeaderStep w h c cs s) = .next t)) := by
  simp only [exec, execHeader, headerEnabled, decide_eq_true_eq] at hs
  split_ifs at hs with h2
  refine ⟨h2, ?_⟩
  cases hm : s.mode <;> simp only [hm] at hs <;> simp [hs]

theorem execEnd_next {s t : State} (hs : exec .endMarker s = .next t) :
    s.ph = .body ∧ s.px = s.npx ∧
      ((s.mode = .dec ∧ conclude s (decodeTail s) = .next t) ∨
       (s.mode = .enc ∧ conclude s (encodeTail s) = .next t)) := by
  simp only [exec, execEnd, tailEnabled, Bool.and_eq_true, decide_eq_true_eq] at hs
  split_ifs at hs with h2
  refine ⟨h2.1, h2.2, ?_⟩
  cases hm : s.mode <;> simp only [hm] at hs <;> simp [hs]

/-- The meaning of a chunk is its decoder side or its encoder side, whichever the mode says. -/
theorem exec_chunk {i : Instr} (h : i.place = .chunk) (s : State) :
    (∃ p, (∀ l, i ≠ .run l) ∧ (historyOf s).chunk i = (historyOf s).single p ∧
      exec i s = bodyStep s (finish p (encode i).length s) (encodeChunk i s)) ∨
    (∃ l, i = .run l ∧ exec i s = bodyStep s (decodeRun l s) (encodeRun l s)) := by
  cases i <;> simp [Instr.place] at h
  case run l => exact .inr ⟨l, rfl, rfl⟩
  all_goals exact .inl ⟨_, by simp, rfl, rfl⟩

/-! What an instruction can do, said once. -/

/-- The ways a step of the engine completes (42_chunk_encoder.md R140, R142, R156; 43_chunk_decoder.md R170, R171,
R182). -/
inductive Completed : Instr → State → State → Prop where
  | decodePixel {i s t p} (hi : i.place = .chunk) (hl : ∀ l, i ≠ .run l) (hp : s.ph = .body) (hx : s.px < s.npx)
      (hm : s.mode = .dec) (hd : (historyOf s).chunk i = (historyOf s).single p)
      (h : finish p (encode i).length s = .ok t) : Completed i s t
  | decodeRun {l s t} (hp : s.ph = .body) (hx : s.px < s.npx) (hm : s.mode = .dec)
      (h : Machine.decodeRun l s = .ok t) : Completed (.run l) s t
  | encodePixel {i s t} (hi : i.place = .chunk) (hl : ∀ l, i ≠ .run l) (hp : s.ph = .body) (hx : s.px < s.npx)
      (hm : s.mode = .enc) (h : encodeChunk i s = .ok t) : Completed i s t
  | encodeRun {l s t} (hp : s.ph = .body) (hx : s.px < s.npx) (hm : s.mode = .enc)
      (h : Machine.encodeRun l s = .ok t) : Completed (.run l) s t
  | decodeHeader {w h c cs s t} (hp : s.ph = .hdr) (hm : s.mode = .dec)
      (hs : decodeHeaderStep w h c cs s = .ok t) : Completed (.header w h c cs) s t
  | encodeHeader {w h c cs s t} (hp : s.ph = .hdr) (hm : s.mode = .enc)
      (hs : encodeHeaderStep w h c cs s = .ok t) : Completed (.header w h c cs) s t
  | decodeEnd {s t} (hp : s.ph = .body) (hx : s.px = s.npx) (hm : s.mode = .dec)
      (h : decodeTail s = .ok t) : Completed .endMarker s t
  | encodeEnd {s t} (hp : s.ph = .body) (hx : s.px = s.npx) (hm : s.mode = .enc)
      (h : encodeTail s = .ok t) : Completed .endMarker s t

/-- The errors an instruction can raise (60_exceptions.md R221); the errors of the reads before it are engineStep's. -/
inductive Raises : Instr → State → Err → Prop where
  | overflow {l s} (hp : s.ph = .body) (hx : s.px < s.npx) (hm : s.mode = .dec) (ho : s.npx < s.px + runLength l)
      (hf : s.cfg.overshoot = .fail) : Raises (.run l) s .pixelOverflow
  | fetch {i s e} (hi : i.place = .chunk) (hp : s.ph = .body) (hx : s.px < s.npx) (hm : s.mode = .enc)
      (h : fetchPixel s = .error (.raise e)) : Raises i s e
  | fields {w h c cs s e} (hp : s.ph = .hdr) (hc : checkFields s.cfg c cs = .error (.raise e)) :
      Raises (.header w h c cs) s e
  | mismatch {w h c cs s} (hp : s.ph = .hdr) (hm : s.mode = .enc) (hl : s.inLen ≠ pixelTotal w h * c.toNat) :
      Raises (.header w h c cs) s .pixelCountMismatch

/-- Every next state of an instruction: a START (or an ignored one); or a completed step
or an error raised from the state before it, either with the mark where a register it read is unwritten; or the mark. -/
theorem exec_next {i : Instr} {s t : State} (h : exec i s = .next t) :
    (i.place = .command ∧ ((busy s = true ∧ t = s) ∨ ∃ m, busy s = false ∧ t = startTransaction m s)) ∨
    (i.place ≠ .command ∧
      ((∃ u, Completed i s u ∧ t = noteReads s u) ∨ (∃ e, Raises i s e ∧ t = noteReads s (takeError e s)) ∨
        t = markRefused s)) := by
  cases hi : i.place
  case chunk =>
    refine .inr ⟨by simp, ?_⟩
    rcases exec_chunk hi s with ⟨p, hl, hd, he⟩ | ⟨l, rfl, he⟩ <;> rw [he] at h <;>
      obtain ⟨hp, hx, ⟨hm, hc⟩ | ⟨hm, hc⟩⟩ := bodyStep_next h <;>
      rcases conclude_next hc with ⟨u, hk, rfl⟩ | ⟨e, hk, rfl⟩ | ⟨hk, hr⟩
    · exact .inl ⟨u, .decodePixel hi hl hp hx hm hd hk, rfl⟩
    · cases finish_eq_error hk
    · exact .inr (.inr hr)
    · exact .inl ⟨u, .encodePixel hi hl hp hx hm hk, rfl⟩
    · rcases encodeChunk_eq_error hk with hc | hc | hc
      · exact .inr (.inl ⟨e, .fetch hi hp hx hm hc, rfl⟩)
      · cases hc
      · cases hc
    · exact .inr (.inr hr)
    · exact .inl ⟨u, .decodeRun hp hx hm hk, rfl⟩
    · rcases decodeRun_eq_error hk with ⟨ho, hf, hr⟩ | hr
      · obtain rfl := Stop.raise.inj hr
        exact .inr (.inl ⟨_, .overflow hp hx hm ho hf, rfl⟩)
      · cases hr
    · exact .inr (.inr hr)
    · exact .inl ⟨u, .encodeRun hp hx hm hk, rfl⟩
    · rcases encodeRun_eq_error hk with hc | hc | hc
      · exact .inr (.inl ⟨e, .fetch hi hp hx hm hc, rfl⟩)
      · cases hc
      · cases hc
    · exact .inr (.inr hr)
  case header =>
    refine .inr ⟨by simp, ?_⟩
    cases i <;> simp [Instr.place] at hi
    obtain ⟨hp, ⟨hm, hc⟩ | ⟨hm, hc⟩⟩ := execHeader_next h <;>
      rcases conclude_next hc with ⟨u, hk, rfl⟩ | ⟨e, hk, rfl⟩ | ⟨hk, hr⟩
    · exact .inl ⟨u, .decodeHeader hp hm hk, rfl⟩
    · exact .inr (.inl ⟨e, .fields hp (decodeHeaderStep_eq_error hk), rfl⟩)
    · exact .inr (.inr hr)
    · exact .inl ⟨u, .encodeHeader hp hm hk, rfl⟩
    · rcases encodeHeaderStep_eq_error hk with hc | ⟨hl, hr⟩ | hr | hr
      · exact .inr (.inl ⟨e, .fields hp hc, rfl⟩)
      · obtain rfl := Stop.raise.inj hr
        exact .inr (.inl ⟨_, .mismatch hp hm hl, rfl⟩)
      · cases hr
      · cases hr
    · exact .inr (.inr hr)
  case marker =>
    refine .inr ⟨by simp, ?_⟩
    cases i <;> simp [Instr.place] at hi
    obtain ⟨hp, hx, ⟨hm, hc⟩ | ⟨hm, hc⟩⟩ := execEnd_next h <;>
      rcases conclude_next hc with ⟨u, hk, rfl⟩ | ⟨e, hk, rfl⟩ | ⟨hk, hr⟩
    · exact .inl ⟨u, .decodeEnd hp hx hm hk, rfl⟩
    · cases hk
    · cases hk
    · exact .inl ⟨u, .encodeEnd hp hx hm hk, rfl⟩
    · cases encodeTail_eq_error hk
    · exact .inr (.inr hr)
  case command =>
    refine .inl ⟨rfl, ?_⟩
    cases i <;> simp [Instr.place] at hi <;> simp only [exec, execStartEncode, execStartDecode] at h <;>
      rcases startCommand_next h with h | h
    · exact .inl h
    · exact .inr ⟨_, h⟩
    · exact .inl h
    · exact .inr ⟨_, h⟩

end Sys2Proof.Machine
end

