-- ==== Sys2Proof/Laws/PerInstr.lean ====
section
/-! SUPPORT. Claims for all instructions, one lemma per constructor. EncodedForm: an instruction's bytes are as many as
its format has, and a chunk's first byte alone announces that length (30_encoding.md R72). -/

namespace Sys2Proof.Laws.EncodedForm

open Sys2Proof

/-- Total length of a unit by where it stands: 14 for the header, 8 for the marker, one `CMD` value for a command, and
for a chunk what its tag announces. -/
def Announced : Place → Byte → Nat
  | .header, _ => 14
  | .marker, _ => 8
  | .command, _ => 1
  | .chunk, t => chunkLength t

/-- The first byte and the place announce the length of the encoding. -/
def Statement (i : Instr) : Prop :=
  i.wf = true → ∃ t bs, encode i = t :: bs ∧ (encode i).length = Announced i.place t

theorem rgb (r g b : Byte) : Statement (.rgb r g b) := fun _ => ⟨_, _, rfl, rfl⟩

theorem rgba (r g b a : Byte) : Statement (.rgba r g b a) := fun _ => ⟨_, _, rfl, rfl⟩

theorem index (idx : BitVec 6) : Statement (.index idx) := fun _ => ⟨_, _, rfl, by revert idx; decide⟩

theorem diff (dr2 dg2 db2 : BitVec 2) : Statement (.diff dr2 dg2 db2) :=
  fun _ => ⟨_, _, rfl, by revert dr2 dg2 db2; decide⟩

theorem luma (dg32 : BitVec 6) (drdg8 dbdg8 : BitVec 4) : Statement (.luma dg32 drdg8 dbdg8) :=
  fun _ => ⟨_, _, rfl,
    (show ∀ g : BitVec 6, 2 = chunkLength (0b10#2 ++ g) by decide) dg32⟩

theorem run (len1 : BitVec 6) : Statement (.run len1) := fun h => ⟨_, _, rfl, by revert len1; decide⟩

theorem header (width height : BitVec 32) (channels colorspace : Byte) :
    Statement (.header width height channels colorspace) := fun _ => ⟨_, _, rfl, rfl⟩

theorem endMarker : Statement .endMarker := fun _ => ⟨_, _, rfl, rfl⟩

theorem startEncode : Statement .startEncode := fun _ => ⟨_, _, rfl, rfl⟩

theorem startDecode : Statement .startDecode := fun _ => ⟨_, _, rfl, rfl⟩

end Sys2Proof.Laws.EncodedForm
end

