-- ==== Sys2Proof/Laws/Refusal.lean ====
section
/-! SUPPORT. When the parts of a step are refused (60_exceptions.md R243): one lemma per function, beside its
`_completes` in Laws/Exec.lean. -/

namespace Sys2Proof.Machine

open Sys2Proof

theorem fits_false_of_le {p : Params} {a b : Nat} (hf : fits p a = false) (h : a ≤ b) : fits p b = false := by
  cases hb : fits p b
  · rfl
  · rw [fits_of_le hb h] at hf; cases hf

/-- Some byte of the string has no value exactly when the string cannot be read. -/
theorem readBytes_eq_none {m : Mem} {a n : Nat} : m.readBytes a n = none ↔ ∃ k, k < n ∧ m.read (a + k) = none := by
  induction n generalizing a with
  | zero => simp [Mem.readBytes]
  | succ n ih =>
    simp only [Mem.readBytes]
    cases h : m.read a with
    | none => simp only [true_iff]; exact ⟨0, by omega, h⟩
    | some b =>
      cases h' : m.readBytes (a + 1) n with
      | none =>
        obtain ⟨k, hk, hr⟩ := ih.1 h'
        simp only [true_iff]
        exact ⟨k + 1, by omega, by rwa [show a + (k + 1) = a + 1 + k by omega]⟩
      | some bs =>
        simp only [false_iff, reduceCtorEq, not_exists, not_and]
        rintro (_ | k) hk hr
        · rw [Nat.add_zero, h] at hr; cases hr
        · refine absurd h' (by rw [ih.2 ⟨k, by omega, by rwa [show a + 1 + k = a + (k + 1) by omega]⟩]; simp)

/-- `check_fields` refuses exactly case 1 of R243. -/
theorem checkFields_eq_refuse {p : Params} {c cs : Byte} :
    checkFields p c cs = .error .refuse ↔ p.strict = false ∧ c ≠ 3 ∧ c ≠ 4 := by
  simp only [checkFields]
  split_ifs <;> simp_all

theorem emit_eq_refuse {v : List Byte} {s : State} :
    emit v s = .error .refuse ↔ fits s.cfg (s.wp + v.length) = false := by
  cases h : fits s.cfg (s.wp + v.length) <;> simp [emit, memWrite, h]

/-- `out_pixel` repeated past the capacity is refused, wherever the first pixel that does not fit stands. -/
theorem outPixels_beyond {n : Nat} {p : Pixel} {s : State} (hn : 0 < n)
    (h : fits s.cfg (s.wp + n * (pixelBytes s.channels p).length) = false) : outPixels n p s = .error .refuse := by
  cases ho : outPixels n p s with
  | error x => rw [outPixels_eq_error ho]
  | ok t =>
    exfalso
    induction n generalizing s with
    | zero => omega
    | succ n ih =>
      simp only [outPixels] at ho
      cases ho' : outPixel p s with
      | error x => simp [ho'] at ho
      | ok u =>
        rw [ho'] at ho
        obtain ⟨hf, rfl⟩ := emit_eq_ok.1 ho'
        rcases Nat.eq_zero_or_pos n with rfl | hn'
        · rw [Nat.zero_add, Nat.one_mul, hf] at h; cases h
        · refine ih hn' ?_ ho
          rw [Nat.succ_mul] at h
          simpa [Nat.add_assoc, Nat.add_comm (n * _)] using h

theorem repeatPrev_beyond {n : Nat} {s : State} (hn : 0 < n)
    (h : fits s.cfg (s.wp + n * (pixelBytes s.channels s.prev).length) = false) : repeatPrev n s = .error .refuse := by
  rw [repeatPrev, outPixels_beyond hn h]

theorem repeatPrev_completes {n : Nat} {s : State}
    (h : fits s.cfg (s.wp + n * (pixelBytes s.channels s.prev).length) = true) : ∃ t, repeatPrev n s = .ok t := by
  obtain ⟨t, ht⟩ := outPixels_completes h
  exact ⟨_, by rw [repeatPrev, ht]⟩

theorem finish_beyond {p : Pixel} {n : Nat} {s : State}
    (h : fits s.cfg (s.wp + (pixelBytes s.channels p).length) = false) : finish p n s = .error .refuse := by
  cases hf : finish p n s with
  | ok t => rw [(finish_eq_ok.1 hf).1] at h; cases h
  | error x => rw [finish_eq_error hf]

/-- A string emitted after the pending run is refused where the two together do not fit. -/
theorem flush_emit_beyond {v : List Byte} {s s1 : State} (hf : flushRun s = .ok s1)
    (h : fits s.cfg (s.wp + (flushBytes s.run ++ v).length) = false) : emit v s1 = .error .refuse := by
  obtain rfl := flushRun_eq_ok hf
  exact emit_eq_refuse.2 (by simpa [Nat.add_assoc] using h)

theorem encodeChunk_beyond {i : Instr} {s : State} {p : Pixel} (hp : fetchPixel s = .ok p) (hs : selectChunk p s = i)
    (h : fits s.cfg (s.wp + (flushBytes s.run ++ encode i).length) = false) : encodeChunk i s = .error .refuse := by
  simp only [encodeChunk, hp, hs, if_true]
  cases hf : flushRun s with
  | error x => rw [flushRun_eq_error hf]
  | ok s1 => simp only [flush_emit_beyond hf h]

theorem encodeTail_beyond {s : State}
    (h : fits s.cfg (s.wp + (flushBytes s.run ++ endMarkerBytes).length) = false) : encodeTail s = .error .refuse := by
  unfold encodeTail
  cases hf : flushRun s with
  | error x => rw [flushRun_eq_error hf]
  | ok s1 => simp only [flush_emit_beyond (v := encode .endMarker) hf h]

/-- `E-HDR` refuses where `check_fields` does, and at the capacity. -/
theorem encodeHeaderStep_eq_refuse {s : State} :
    encodeHeaderStep s.width s.height s.channels s.colorspace s = .error .refuse ↔
      checkFields s.cfg s.channels s.colorspace = .error .refuse ∨
        (checkFields s.cfg s.channels s.colorspace = .ok () ∧
          s.inLen = pixelTotal s.width s.height * s.channels.toNat ∧ fits s.cfg (s.wp + 14) = false) := by
  unfold encodeHeaderStep
  rw [if_pos ⟨rfl, rfl, rfl, rfl⟩]
  cases hc : checkFields s.cfg s.channels s.colorspace with
  | error x => simp
  | ok u =>
    by_cases hl : s.inLen = pixelTotal s.width s.height * s.channels.toNat
    · cases hf : fits s.cfg (s.wp + 14)
      · rw [emit_eq_refuse.2 hf]; simp [hl]
      · rw [emit_completes hf]; simp [hl]
    · simp [hl]

/-- The header step reads an unwritten register exactly where a bit of the record it needs is missing. -/
theorem readsUnwritten_eq_true {s : State} :
    readsUnwritten s = true ↔
      s.ph = .hdr ∧
        (s.written.inLen = false ∨
          s.mode = .enc ∧ (s.written.width = false ∨ s.written.height = false ∨ s.written.channels = false ∨
            s.written.colorspace = false)) := by
  unfold readsUnwritten operandsWritten Written.geometry
  cases s.mode
  · simp; tauto
  · simp

theorem decodeHeaderStep_eq_refuse {w h : BitVec 32} {c cs : Byte} {s : State} :
    decodeHeaderStep w h c cs s = .error .refuse ↔ checkFields s.cfg c cs = .error .refuse := by
  unfold decodeHeaderStep
  cases hc : checkFields s.cfg c cs <;> simp

end Sys2Proof.Machine
end

