-- ==== Sys2Proof/Laws/Step.lean ====
section
/-! SUPPORT. Every way a step of the engine can end, with the errors by phase and mode (60_exceptions.md R221). -/

namespace Sys2Proof.Machine

open Sys2Proof

/-! Rejections of the decoder, by place. -/

theorem decodeHeader_eq_error {b : List Byte} {e : DecodeError} (h : decodeHeader b = .error e) :
    e = .truncated ∨ e = .badMagic := by
  unfold decodeHeader at h
  split at h
  · split_ifs at h
    · exact .inr (by simpa using h.symm)
    · split at h
      · cases h
      · exact .inl (by simpa using h.symm)
  · exact .inl (by simpa using h.symm)

theorem decodeChunk_eq_error {b : List Byte} {e : DecodeError} (h : decodeChunk b = .error e) : e = .truncated := by
  unfold decodeChunk at h
  split at h
  · simpa using h.symm
  · split at h <;> simp at h <;> exact h.symm

theorem decodeMarker_eq_error {b : List Byte} {e : DecodeError} (h : decodeMarker b = .error e) :
    e = .truncated ∨ e = .badMarker := by
  unfold decodeMarker at h
  split at h
  · split_ifs at h; exact .inr (by simpa using h.symm)
  · exact .inl (by simpa using h.symm)

theorem decodeUnit_eq_error {place : Place} {b : List Byte} {x : Stop} (h : decodeUnit place b = .error x) :
    ∃ e, decodeAt place b = .error e ∧ x = decodeStop place e := by
  unfold decodeUnit at h
  split at h
  · cases h
  · exact ⟨_, ‹_›, by simpa using h.symm⟩

/-! What each place decodes to. -/

theorem decodeAt_place {place : Place} {b rest : List Byte} {i : Instr} (h : decodeAt place b = .ok (i, rest)) :
    i.place = place := by
  cases place <;> simp only [decodeAt] at h
  case header =>
    unfold decodeHeader at h
    split at h <;> try cases h
    split_ifs at h
    split at h <;> cases h
    rfl
  case chunk =>
    unfold decodeChunk at h
    split at h <;> try cases h
    split at h <;> cases h <;> rfl
  case marker =>
    unfold decodeMarker at h
    split at h <;> try cases h
    split_ifs at h
    cases h
    rfl
  case command =>
    unfold decodeCommandByte decodeCommand at h
    split at h <;> try cases h
    split_ifs at h <;> cases h <;> rfl

theorem selectChunk_place (p : Pixel) (s : State) : (selectChunk p s).place = .chunk := by
  unfold selectChunk
  split_ifs <;> rfl

/-! How the fetches stop. -/

theorem fetchHeader_eq_raise {s : State} (hp : s.ph = .hdr) {e : Err} (h : fetchHeader s = .error (.raise e)) :
    e = .invalidMagic ∨ e = .truncatedHeader := by
  have mr : ∀ {a n x}, memRead s a n = .error (.raise x) → x = .truncatedHeader := fun h => by
    have := (memRead_eq_raise.1 h).2; rwa [hp] at this
  unfold fetchHeader checkMagic at h
  split at h
  · rename_i x hx
    cases h
    split_ifs at hx
    split at hx
    · rename_i y hy; cases hx; exact .inr (mr hy)
    · split_ifs at hx; cases hx; exact .inl rfl
  · split_ifs at h
    · cases h; exact .inr rfl
    · split at h
      · rename_i y hy; cases h; exact .inr (mr hy)
      · obtain ⟨e', he, hx⟩ := decodeUnit_eq_error h
        rcases decodeHeader_eq_error he with rfl | rfl <;> simp [decodeStop] at hx <;> simp [hx]

theorem fetchChunk_eq_raise {s : State} (hp : s.ph = .body) {e : Err} (h : fetchChunk s = .error (.raise e)) :
    e = .truncatedStream := by
  have mr : ∀ {a n x}, memRead s a n = .error (.raise x) → x = .truncatedStream := fun h => by
    have := (memRead_eq_raise.1 h).2; rwa [hp] at this
  unfold fetchChunk at h
  split at h
  · rename_i y hy; cases h; exact mr hy
  · cases h
  · split at h
    · rename_i y hy; cases h; exact mr hy
    · obtain ⟨e', he, hx⟩ := decodeUnit_eq_error h
      have := decodeChunk_eq_error he
      subst this
      simpa [decodeStop] using hx

theorem fetchMarker_eq_raise {s : State} (hp : s.ph = .body) {e : Err} (h : fetchMarker s = .error (.raise e)) :
    e = .truncatedStream ∨ e = .badEndMarker := by
  have mr : ∀ {a n x}, memRead s a n = .error (.raise x) → x = .truncatedStream := fun h => by
    have := (memRead_eq_raise.1 h).2; rwa [hp] at this
  unfold fetchMarker at h
  split at h
  · rename_i y hy; cases h; exact .inl (mr hy)
  · obtain ⟨e', he, hx⟩ := decodeUnit_eq_error h
    rcases decodeMarker_eq_error he with rfl | rfl <;> simp [decodeStop] at hx <;> simp [hx]

theorem fetchPixel_eq_raise {s : State} (hp : s.ph = .body) {e : Err} (h : fetchPixel s = .error (.raise e)) :
    e = .truncatedStream ∧ s.inLen < s.pc + s.channels.toNat := by
  rcases fetchPixel_eq_error h with ⟨h1, h⟩ | h
  · rw [hp] at h; exact ⟨Stop.raise.inj h, h1⟩
  · cases h

theorem fetchSelected_eq_error {s : State} {x : Stop} (h : fetchSelected s = .error x) : fetchPixel s = .error x := by
  unfold fetchSelected at h
  split at h
  · rename_i y hy; rw [hy]; cases h; rfl
  · cases h

theorem checkFields_eq_raise {p : Params} {c cs : Byte} {e : Err} (h : checkFields p c cs = .error (.raise e)) :
    p.strict = true ∧ (e = .unsupportedChannelCount ∨ e = .unsupportedColorspace) := by
  rcases checkFields_eq_error h with ⟨a, b, -⟩ | ⟨a, b, -⟩ | ⟨a, b, -⟩
  · exact ⟨a, .inl (Stop.raise.inj b)⟩
  · cases b
  · exact ⟨a, .inr (Stop.raise.inj b)⟩

/-- The engine never runs a command. -/
theorem currentInstr_place {s : State} {i : Instr} (h : currentInstr s = .ok i) : i.place ≠ .command := by
  unfold currentInstr at h
  split_ifs at h
  all_goals
    cases hm : s.mode <;> simp only [hm] at h
  · cases h; simp [Instr.place]
  · obtain ⟨b, rest, -, hd⟩ := fetchHeader_eq_ok h
    simp [decodeAt_place hd]
  · obtain ⟨p, -, rfl⟩ := fetchSelected_eq_ok.1 h
    simp [selectChunk_place]
  · obtain ⟨_, _, b, rest, -, -, hd⟩ := fetchChunk_eq_ok h
    simp [decodeAt_place hd]
  · cases h; simp [Instr.place]
  · obtain ⟨b, rest, -, hd⟩ := fetchMarker_eq_ok h
    simp [decodeAt_place hd]

/-- The errors of a step of the engine, by phase and mode. -/
inductive StepRaises (s : State) : Err → Prop where
  | encodeHeader {e} (hp : s.ph = .hdr) (hm : s.mode = .enc)
      (h : e = .pixelCountMismatch ∨ s.cfg.strict = true ∧ (e = .unsupportedChannelCount ∨ e = .unsupportedColorspace)) :
      StepRaises s e
  | decodeHeader {e} (hp : s.ph = .hdr) (hm : s.mode = .dec)
      (h : e = .invalidMagic ∨ e = .truncatedHeader ∨
        s.cfg.strict = true ∧ (e = .unsupportedChannelCount ∨ e = .unsupportedColorspace)) : StepRaises s e
  | decodeChunk (hp : s.ph = .body) (hx : s.px < s.npx) (hm : s.mode = .dec) : StepRaises s .truncatedStream
  | overflow {l} (hp : s.ph = .body) (hx : s.px < s.npx) (hm : s.mode = .dec) (hf : s.cfg.overshoot = .fail)
      (hc : currentInstr s = .ok (.run l)) (ho : s.npx < s.px + runLength l) : StepRaises s .pixelOverflow
  | decodeEnd {e} (hp : s.ph = .body) (hx : s.px = s.npx) (hm : s.mode = .dec)
      (h : e = .truncatedStream ∨ e = .badEndMarker) : StepRaises s e
  | encodePixel (hp : s.ph = .body) (hx : s.px < s.npx) (hm : s.mode = .enc)
      (hl : s.inLen < s.pc + s.channels.toNat) : StepRaises s .truncatedStream

/-- Every next state of the engine's turn. -/
theorem engineStep_cases {s t : State} (h : engineStep s = .next t) :
    ((busy s = false ∨ s.halted = true) ∧ t = s) ∨
    (busy s = true ∧ s.halted = false ∧
      ((∃ i u, currentInstr s = .ok i ∧ Completed i s u ∧ t = noteReads s u) ∨
        (∃ e, StepRaises s e ∧ t = noteReads s (takeError e s)) ∨ t = markRefused s)) := by
  obtain ⟨c1, c2, c3, c4, c5, c6, c7⟩ := currentInstr_eq s
  rcases engineStep_next h with ⟨hb, rfl⟩ | ⟨hb, hh, ⟨i, hc, h⟩ | ⟨e, hc, rfl⟩ | ⟨hc, hr⟩⟩
  · exact .inl ⟨hb, rfl⟩
  · refine .inr ⟨hb, hh, ?_⟩
    rcases exec_next h with ⟨hi, -⟩ | ⟨hi, ⟨u, hu, ht⟩ | ⟨e, hR, rfl⟩ | hr⟩
    · exact absurd hi (currentInstr_place hc)
    · exact .inl ⟨i, u, hc, hu, ht⟩
    · refine .inr (.inl ⟨e, ?_, rfl⟩)
      cases hR
      case overflow => exact .overflow (by assumption) (by assumption) (by assumption) (by assumption) hc (by assumption)
      case fetch hi hp hx hm hh =>
        obtain ⟨rfl, hl⟩ := fetchPixel_eq_raise hp hh
        exact .encodePixel hp hx hm hl
      case fields w h c cs hp hcf =>
        cases hm : s.mode
        · exact .encodeHeader hp hm (.inr (checkFields_eq_raise hcf))
        · exact .decodeHeader hp hm (.inr (.inr (checkFields_eq_raise hcf)))
      case mismatch => exact .encodeHeader (by assumption) (by assumption) (.inl rfl)
    · exact .inr (.inr hr)
  · refine .inr ⟨hb, hh, .inr (.inl ⟨e, ?_, rfl⟩)⟩
    rcases busy_eq_true.1 hb with hp | hp
    · cases hm : s.mode
      · rw [c2 hp hm] at hc; cases hc
      · rw [c1 hp hm] at hc
        rcases fetchHeader_eq_raise hp hc with h | h
        · exact .decodeHeader hp hm (.inl h)
        · exact .decodeHeader hp hm (.inr (.inl h))
    · rcases Nat.lt_trichotomy s.px s.npx with hx | hx | hx
      · cases hm : s.mode
        · rw [c4 hp hx hm] at hc
          obtain ⟨rfl, hl⟩ := fetchPixel_eq_raise hp (fetchSelected_eq_error hc)
          exact .encodePixel hp hx hm hl
        · rw [c3 hp hx hm] at hc
          obtain rfl := fetchChunk_eq_raise hp hc
          exact .decodeChunk hp hx hm
      · cases hm : s.mode
        · rw [c6 hp hx hm] at hc; cases hc
        · rw [c5 hp hx hm] at hc
          exact .decodeEnd hp hx hm (fetchMarker_eq_raise hp hc)
      · rw [c7 hp hx] at hc; cases hc
  · exact .inr ⟨hb, hh, .inr (.inr hr)⟩

end Sys2Proof.Machine
end

