-- ==== Sys2Proof/Tests/Slice0.lean ====
section
/-! SUPPORT. The model's own tests: ill-formed terms refused, words written out from the spec's encodings, one step per
instruction on the spec's own examples, and for every obligation with hypotheses a state that meets them. -/

namespace Sys2Proof.Tests

open Sys2Proof Sys2Proof.Machine

/-! ## Well-formedness -/

theorem test_wf_refuses_run_62 : (Instr.run 62).wf = false := by decide

theorem test_wf_refuses_run_63 : (Instr.run 63).wf = false := by decide

theorem test_wf_accepts_run_61 : (Instr.run 61).wf = true := by decide

/-! ## Words written out bit by bit (30_encoding.md R71, R74 to R79, R83, R86; 10_state.md R34) -/

theorem test_word_index_53 : decodeAt .chunk [0b00110101] = .ok (.index 53, []) := by decide

theorem test_word_diff : decodeAt .chunk [0b01011011] = .ok (.diff 1 2 3, []) := by decide

theorem test_word_luma : decodeAt .chunk [0b10100110, 0b10110101] = .ok (.luma 38 11 5, []) := by decide

theorem test_word_run_62 : decodeAt .chunk [0b11111101] = .ok (.run 61, []) := by decide

theorem test_word_rgb : decodeAt .chunk [0b11111110, 0x0A, 0x14, 0x1E] = .ok (.rgb 10 20 30, []) := by decide

theorem test_word_rgba : decodeAt .chunk [0b11111111, 0xFA, 0x0A, 0x05, 0x80] = .ok (.rgba 250 10 5 128, []) := by decide

theorem test_word_header :
    decodeAt .header [0x71, 0x6F, 0x69, 0x66, 1, 2, 3, 4, 0, 0, 1, 0, 4, 1] =
      .ok (.header 0x01020304 256 4 1, []) := by decide

theorem test_word_end : decodeAt .marker [0, 0, 0, 0, 0, 0, 0, 1] = .ok (.endMarker, []) := by decide

theorem test_word_start_encode : decodeAt .command [1] = .ok (.startEncode, []) := by decide

theorem test_word_start_decode : decodeAt .command [2] = .ok (.startDecode, []) := by decide

theorem test_reject_upper_case_magic : decodeAt .header [0x51, 0x4F, 0x49, 0x46] = .error .badMagic := by decide

theorem test_reject_short_header : decodeAt .header [0x71, 0x6F, 0x69, 0x66, 0, 0] = .error .truncated := by decide

theorem test_reject_short_rgb : decodeAt .chunk [0xFE, 0x0A, 0x14] = .error .truncated := by decide

theorem test_reject_wrong_marker : decodeAt .marker [0, 0, 0, 0, 0, 0, 0, 0] = .error .badMarker := by decide

theorem test_reject_command_3 : decodeAt .command [3] = .error .unusedCommand := by decide

theorem test_table_word_luma : decodeTableWord 16 0xB5A6 = some (.luma 38 11 5) := by decide

theorem test_table_word_header : decodeTableWord 32 0x716F6966 = some (.header 0 0 0 0) := by decide

/-! ## States of the tests -/

/-- Phase HDR of a transaction right after its START, with `bytes` in `IN` and every register written. -/
def started (m : Mode) (bytes : List Byte) : State :=
  { State.reset with
    mode := m, ph := .hdr, prev := ⟨0, 0, 0, 255⟩, inBuf := Mem.writeBytes [] 0 bytes, inLen := bytes.length
    written := Written.everything }

/-- A decode of `npx` pixels of four channels, `px` of them already produced, the next unit `bytes` at 14. -/
def decoding (px npx : Nat) (bytes : List Byte) : State :=
  { started .dec (encode (.header (BitVec.ofNat 32 npx) 1 4 0) ++ bytes) with
    ph := .body, pc := 14, px := px, npx := npx, wp := px * 4, width := BitVec.ofNat 32 npx, height := 1, channels := 4 }

/-- An encode of one pixel of four channels with the previous pixel `prev`. -/
def encoding (prev : Pixel) (bytes : List Byte) : State :=
  { started .enc bytes with ph := .body, prev := prev, npx := 1, wp := 14, width := 1, height := 1, channels := 4 }

/-- The next state, if there is one. -/
def nextOf (r : Host.Outcome State Fault Refusal) : Option State :=
  match r with
  | .next t => some t
  | .fault _ => none
  | .refused _ => none

/-- What an encode step wrote at 14, and the run it left. -/
def wrote (n : Nat) (t : State) : Option (List Byte) × BitVec 6 := (t.outBuf.readBytes 14 n, t.run)

/-! ## One step per instruction, on the examples of the rules -/

/-- 43_chunk_decoder.md R172. -/
theorem test_decode_rgb :
    (nextOf (step (decoding 0 2 [0xFE, 0x0A, 0x14, 0x1E]))).map (fun t => (readSlot t 9, t.prev, t.pc, t.px)) =
      some (⟨10, 20, 30, 255⟩, ⟨10, 20, 30, 255⟩, 18, 1) := by decide

/-- 43_chunk_decoder.md R173. -/
theorem test_decode_rgba :
    (nextOf (step (decoding 0 2 [0xFF, 0xFA, 0x0A, 0x05, 0x80]))).map (fun t => (readSlot t 3, t.prev, t.pc)) =
      some (⟨250, 10, 5, 128⟩, ⟨250, 10, 5, 128⟩, 19) := by decide

/-- 43_chunk_decoder.md R174: `INDEX 5` at stream start gives transparent black and does not write slot 5. -/
theorem test_decode_index :
    (nextOf (step { decoding 0 2 [0x05] with cache := (Vector.replicate 64 Pixel.zero).set 0 ⟨9, 9, 9, 9⟩ })).map
        (fun t => (readSlot t 0, t.prev, t.outBuf.readBytes 0 4, t.pc)) =
      some (⟨0, 0, 0, 0⟩, ⟨0, 0, 0, 0⟩, some [0, 0, 0, 0], 15) := by decide

/-- 43_chunk_decoder.md R175. -/
theorem test_decode_diff :
    (nextOf (step { decoding 0 2 [0x76] with prev := ⟨255, 0, 0, 255⟩ })).map (fun t => t.prev) =
      some ⟨0, 255, 0, 255⟩ := by decide

/-- 43_chunk_decoder.md R176. -/
theorem test_decode_luma :
    (nextOf (step { decoding 0 2 [0xA6, 0xB5] with prev := ⟨101, 99, 100, 255⟩ })).map (fun t => (t.prev, t.pc)) =
      some (⟨110, 105, 103, 255⟩, 16) := by decide

/-- 43_chunk_decoder.md R177. -/
theorem test_decode_run :
    (nextOf (step { decoding 1 2 [0xC0] with prev := ⟨10, 20, 30, 255⟩ })).map
        (fun t => (t.outBuf.readBytes 4 4, t.px, t.ph)) =
      some (some [10, 20, 30, 255], 2, .body) := by decide

/-- 43_chunk_decoder.md R177: `RUN 2` with one pixel left, under `fail`. -/
theorem test_decode_run_overflow :
    (nextOf (step { decoding 1 2 [0xC1] with prev := ⟨10, 20, 30, 255⟩ })).map (fun t => (t.err, t.ph, t.px, t.pc)) =
      some (4, .error, 1, 14) := by decide

/-- 42_chunk_encoder.md R149. -/
theorem test_encode_rgb :
    (nextOf (step (encoding ⟨0, 0, 0, 255⟩ [10, 20, 30, 255]))).map (wrote 4) =
      some (some [0xFE, 0x0A, 0x14, 0x1E], 0) := by decide

/-- 42_chunk_encoder.md R150. -/
theorem test_encode_rgba :
    (nextOf (step (encoding ⟨250, 10, 5, 255⟩ [250, 10, 5, 128]))).map (wrote 5) =
      some (some [0xFF, 0xFA, 0x0A, 0x05, 0x80], 0) := by decide

/-- 42_chunk_encoder.md R146. -/
theorem test_encode_index :
    (nextOf (step
      { encoding ⟨0, 255, 0, 255⟩ [255, 0, 0, 255] with
        cache := (Vector.replicate 64 Pixel.zero).set 50 ⟨255, 0, 0, 255⟩ })).map (wrote 1) =
      some (some [0x32], 0) := by decide

/-- 42_chunk_encoder.md R144: a run of 3 is flushed before the `DIFF`. -/
theorem test_encode_flush_then_diff :
    (nextOf (step { encoding ⟨5, 5, 5, 255⟩ [6, 5, 5, 255] with run := 3 })).map (wrote 2) =
      some (some [0xC2, 0x7A], 0) := by decide

/-- 42_chunk_encoder.md R148: the differences wrap. -/
theorem test_encode_luma :
    (nextOf (step (encoding ⟨255, 255, 255, 255⟩ [1, 0, 254, 255]))).map (wrote 2) =
      some (some [0xA1, 0x96], 0) := by decide

/-- 42_chunk_encoder.md R145. -/
theorem test_encode_run_saturates :
    (nextOf (step { encoding ⟨5, 5, 5, 255⟩ [5, 5, 5, 255] with run := 62 })).map (wrote 1) =
      some (some [0xFD], 1) := by decide

/-- 42_chunk_encoder.md R140. -/
theorem test_encode_header :
    (nextOf (step { started .enc [1, 2, 3, 4, 5, 6, 7, 8] with width := 2, height := 1, channels := 4 })).map
        (fun t => (t.outBuf.readBytes 0 14, t.npx, t.wp)) =
      some (some [0x71, 0x6F, 0x69, 0x66, 0, 0, 0, 2, 0, 0, 0, 1, 4, 0], 2, 14) := by decide

/-- 43_chunk_decoder.md R170. -/
theorem test_decode_header :
    (nextOf (step (started .dec [0x71, 0x6F, 0x69, 0x66, 0, 0, 0, 2, 0, 0, 0, 1, 4, 0]))).map
        (fun t => (t.width, t.height, t.channels, t.npx, t.pc)) =
      some (2, 1, 4, 2, 14) := by decide

/-- 42_chunk_encoder.md R156: after the one pixel (0,0,0,255). -/
theorem test_encode_end :
    (nextOf (step { encoding ⟨0, 0, 0, 255⟩ [0, 0, 0, 255] with run := 1, px := 1, pc := 4 })).map
        (fun t => (t.outBuf.readBytes 14 9, t.outLen, t.status)) =
      some (some [0xC0, 0, 0, 0, 0, 0, 0, 0, 1], 23, 2) := by decide

/-- 43_chunk_decoder.md R182: a marker whose last byte is 00 (60_exceptions.md R229). -/
theorem test_decode_bad_end :
    (nextOf (step (decoding 1 1 [0, 0, 0, 0, 0, 0, 0, 0]))).map (fun t => (t.err, t.status, t.outLen)) =
      some (8, 3, 0) := by decide

/-- 44_commands.md R200, R203. -/
theorem test_start_encode :
    (nextOf (step { State.reset with host := [.writeCmd 1], prev := ⟨1, 2, 3, 4⟩ })).map
        (fun t => (t.mode, t.ph, t.prev, t.status)) =
      some (.enc, .hdr, ⟨0, 0, 0, 255⟩, 1) := by decide

/-- 44_commands.md R201, R203: ignored while BUSY. -/
theorem test_start_decode_while_busy :
    (nextOf (step { started .enc [] with host := [.writeCmd 2] })).map (fun t => (t.mode, t.ph)) =
      some (.enc, .hdr) := by decide

theorem test_fetch_word_runs_luma :
    (nextOf (step (State.reset.withFetchWord 16 0xB5A6))).map (fun t => t.prev) = some ⟨9, 6, 3, 0⟩ := by decide

/-! ## Witnesses: states and operands that meet the hypotheses of the obligations -/

/-! Encoding. -/

theorem witness_DecodeOfEncode : (Instr.run 61).wf = true ∧ (Instr.header 0xFFFFFFFF 0 255 255).wf = true := by decide

theorem witness_EncodeOfDecode : decodeAt .chunk [0xFD, 7] = .ok (.run 61, [7]) := by decide

/-- EveryTagIsAChunk, LengthFollowsTag: both ends of every range of 30_encoding.md R72 and R81. -/
theorem witness_tag_boundaries :
    [0x00, 0x3F, 0x40, 0x7F, 0x80, 0xBF, 0xC0, 0xFD, 0xFE, 0xFF].map (fun t : Byte => (tagKind t, chunkLength t)) =
      [(.index, 1), (.index, 1), (.diff, 1), (.diff, 1), (.luma, 2), (.luma, 2), (.run, 1), (.run, 1), (.rgb, 4),
        (.rgba, 5)] := by decide

theorem witness_LengthFollowsTag :
    decodeChunk [0xFE, 1, 2, 3, 4] = .ok (.rgb 1 2 3, [4]) ∧ chunkLength 0xFF ≤ [(0xFF : Byte), 1, 2, 3, 4].length := by
  decide

/-- BytesFromFieldValues: the ends of the ranges of 30_encoding.md R80. -/
theorem witness_BytesFromFieldValues :
    encode (.diff (withBias 2 (-2) 2) (withBias 2 1 2) (withBias 2 (-2) 2)) = [0x4C] ∧
      encode (.luma (withBias 6 31 32) (withBias 4 (-8) 8) (withBias 4 7 8)) = [0xBF, 0x0F] ∧
      (61 : BitVec 6).toNat ≤ 61 := by decide

theorem witness_HashIsTheFormula : (6 : Nat) ≤ 6 ∧ hashIndex ⟨10, 20, 30, 255⟩ = 9 := by decide

theorem witness_SecondDifferenceWrapIsMoot :
    ((-128 : Int) ≤ 127 ∧ (127 : Int) ≤ 127 ∧ (-32 : Int) ≤ -32 ∧ (-32 : Int) ≤ 31) ∧ s8 (127 - -32) = -97 := by decide

/-! Decoding chunks. -/

/-- The hypotheses the decoding obligations share: the engine moves next, a chunk step is enabled, and the bytes at `pc`
are `bs`. -/
def Reads (s : State) (bs : List Byte) : Prop := EngineRuns s s ∧ DecReady s ∧ StreamHas s bs

theorem reads_decoding {px npx : Nat} {bytes bs : List Byte} (hx : px < npx) (h : StreamHas (decoding px npx bytes) bs) :
    Reads (decoding px npx bytes) bs := ⟨⟨.inl ⟨rfl, rfl⟩, rfl⟩, ⟨rfl, rfl, hx⟩, h⟩

theorem witness_engine_turn_listed :
    EngineTurn { decoding 0 2 [0xFE] with host := [.engine, .reset] } { decoding 0 2 [0xFE] with host := [.reset] } :=
  .inr ⟨[.reset], rfl, rfl⟩

/-- DecodeRgb, DecodeRgba, DecodeIndex, DecodeDiff, DecodeLuma: their first clause, for either number of channels. -/
theorem witness_Decode_pixel :
    (DecReady (decoding 0 1 []) ∧ Room (decoding 0 1 []) (bytesPerPixel (decoding 0 1 []).channels)) ∧
      DecReady { decoding 0 1 [] with channels := 3 } ∧ Room { decoding 0 1 [] with channels := 3 } (bytesPerPixel 3) := by
  unfold DecReady Room; decide

theorem witness_DecodeRgb_read : Reads (decoding 0 2 [0xFE, 1, 2, 3]) [0xFE, 1, 2, 3] :=
  reads_decoding (by decide) (by unfold StreamHas; decide)

theorem witness_DecodeRgb_truncated :
    Reads (decoding 0 2 [0xFE, 1, 2]) [0xFE] ∧ (decoding 0 2 [0xFE, 1, 2]).inLen < (decoding 0 2 [0xFE, 1, 2]).pc + 4 :=
  ⟨reads_decoding (by decide) (by unfold StreamHas; decide), by decide⟩

theorem witness_DecodeRgba_read : Reads (decoding 0 2 [0xFF, 1, 2, 3, 4]) [0xFF, 1, 2, 3, 4] :=
  reads_decoding (by decide) (by unfold StreamHas; decide)

theorem witness_DecodeRgba_truncated :
    Reads (decoding 0 2 [0xFF, 1, 2, 3]) [0xFF] ∧
      (decoding 0 2 [0xFF, 1, 2, 3]).inLen < (decoding 0 2 [0xFF, 1, 2, 3]).pc + 5 :=
  ⟨reads_decoding (by decide) (by unfold StreamHas; decide), by decide⟩

theorem witness_DecodeIndex_read : Reads (decoding 0 2 [63]) [BitVec.ofNat 8 (63 : BitVec 6).toNat] :=
  reads_decoding (by decide) (by unfold StreamHas; decide)

theorem witness_DecodeDiff_read :
    Reads (decoding 0 2 [0x7F]) [BitVec.ofNat 8 (0x40 + (3 : BitVec 2).toNat * 16 + (3 : BitVec 2).toNat * 4 + 3)] :=
  reads_decoding (by decide) (by unfold StreamHas; decide)

theorem witness_DecodeLuma_read :
    Reads (decoding 0 2 [0x80, 0xFF])
      [BitVec.ofNat 8 (0x80 + (0 : BitVec 6).toNat), BitVec.ofNat 8 ((15 : BitVec 4).toNat * 16 + 15)] :=
  reads_decoding (by decide) (by unfold StreamHas; decide)

theorem witness_DecodeLuma_truncated :
    Reads (decoding 0 2 [0xBF]) [0xBF] ∧ 0x80 ≤ (0xBF : Byte).toNat ∧ (0xBF : Byte).toNat ≤ 0xBF ∧
      (decoding 0 2 [0xBF]).inLen < (decoding 0 2 [0xBF]).pc + 2 :=
  ⟨reads_decoding (by decide) (by unfold StreamHas; decide), by decide⟩

/-- DecodeRun: exactly the pixels left. -/
theorem witness_DecodeRun_fits :
    DecReady (decoding 0 62 []) ∧ (decoding 0 62 []).px + ((61 : BitVec 6).toNat + 1) ≤ (decoding 0 62 []).npx ∧
      Room (decoding 0 62 []) (((61 : BitVec 6).toNat + 1) * bytesPerPixel (decoding 0 62 []).channels) := by
  unfold DecReady Room; decide

/-- DecodeRun, OnlyRunsOverflow: one more than the pixels left, under `fail`. -/
theorem witness_DecodeRun_fail :
    DecReady (decoding 0 61 []) ∧ (decoding 0 61 []).npx < (decoding 0 61 []).px + runLength 61 ∧
      (decoding 0 61 []).cfg.overshoot = .fail := by
  unfold DecReady; decide

/-- DecodeRun: one more than the pixels left, under `truncate`. -/
theorem witness_DecodeRun_truncate :
    DecReady { decoding 0 61 [] with cfg := { Params.recommended with overshoot := .truncate } } ∧
      (decoding 0 61 []).npx < (decoding 0 61 []).px + runLength 61 ∧
      Room { decoding 0 61 [] with cfg := { Params.recommended with overshoot := .truncate } } ((61 - 0) * 4) := by
  unfold DecReady Room; decide

theorem witness_DecodeRun_read :
    Reads (decoding 0 62 [0xFD]) [BitVec.ofNat 8 (0xC0 + (61 : BitVec 6).toNat)] ∧ (61 : BitVec 6).toNat ≤ 61 :=
  ⟨reads_decoding (by decide) (by unfold StreamHas; decide), by decide⟩

theorem witness_OnlyRunsOverflow :
    EngineTurn (decoding 1 2 [0xC1]) (decoding 1 2 [0xC1]) ∧
      (nextOf (step (decoding 1 2 [0xC1]))).map (fun t => t.err) = some 4 ∧ (decoding 1 2 [0xC1]).err ≠ 4 :=
  ⟨.inl ⟨rfl, rfl⟩, by decide⟩

/-- TruncatedStreamAtEveryRead: the tag, the byte after a tag, the marker. -/
theorem witness_TruncatedStreamAtEveryRead :
    (DecReady (decoding 0 2 []) ∧ (decoding 0 2 []).inLen ≤ (decoding 0 2 []).pc) ∧
      (Reads (decoding 0 2 [0x80]) [0x80] ∧ (decoding 0 2 [0x80]).inLen < (decoding 0 2 [0x80]).pc + chunkLength 0x80) ∧
      (EngineRuns (decoding 2 2 [0, 0, 0, 0, 0, 0, 0]) (decoding 2 2 [0, 0, 0, 0, 0, 0, 0]) ∧
        TailReady (decoding 2 2 [0, 0, 0, 0, 0, 0, 0]) .dec ∧
        (decoding 2 2 [0, 0, 0, 0, 0, 0, 0]).inLen < (decoding 2 2 [0, 0, 0, 0, 0, 0, 0]).pc + 8) :=
  ⟨⟨⟨rfl, rfl, by decide⟩, by decide⟩, ⟨reads_decoding (by decide) (by unfold StreamHas; decide), by decide⟩,
    ⟨.inl ⟨rfl, rfl⟩, rfl⟩, ⟨rfl, rfl, rfl⟩, by decide⟩

/-! Encoding chunks. -/

theorem witness_EncReady_three :
    EncReady { encoding ⟨0, 255, 0, 255⟩ [255, 0, 0] with channels := 3 } ⟨255, 0, 0, 255⟩ := by
  unfold EncReady PixelAt; decide

/-- The state of witness_EncodeIndex: the slot of (255,0,0,255) holds it, and a run of 62 is open. -/
def cached : State :=
  { encoding ⟨0, 255, 0, 255⟩ [255, 0, 0, 255] with
    run := 62, cache := (Vector.replicate 64 Pixel.zero).set 50 ⟨255, 0, 0, 255⟩ }

theorem witness_EncodeIndex :
    EncReady cached ⟨255, 0, 0, 255⟩ ∧ ⟨255, 0, 0, 255⟩ ≠ cached.prev ∧
      readSlot cached (hashIndex ⟨255, 0, 0, 255⟩) = ⟨255, 0, 0, 255⟩ ∧ Room cached ((pendingRun cached.run).length + 1) := by
  unfold EncReady PixelAt Room; decide

/-- EncodeDiff: differences -2, -2 and 1, with wrap. -/
theorem witness_EncodeDiff :
    EncReady (encoding ⟨0, 1, 255, 9⟩ [254, 255, 0, 9]) ⟨254, 255, 0, 9⟩ ∧ (⟨254, 255, 0, 9⟩ : Pixel) ≠ ⟨0, 1, 255, 9⟩ ∧
      readSlot (encoding ⟨0, 1, 255, 9⟩ []) (hashIndex ⟨254, 255, 0, 9⟩) ≠ ⟨254, 255, 0, 9⟩ ∧
      DiffFits ⟨254, 255, 0, 9⟩ ⟨0, 1, 255, 9⟩ ∧ Room (encoding ⟨0, 1, 255, 9⟩ []) 1 := by
  unfold EncReady PixelAt DiffFits Room; decide

/-- EncodeLuma: green -32, red and blue against green -8 and 7. -/
theorem witness_EncodeLuma :
    EncReady (encoding ⟨0, 0, 0, 9⟩ [216, 224, 231, 9]) ⟨216, 224, 231, 9⟩ ∧ (⟨216, 224, 231, 9⟩ : Pixel) ≠ ⟨0, 0, 0, 9⟩ ∧
      readSlot (encoding ⟨0, 0, 0, 9⟩ []) (hashIndex ⟨216, 224, 231, 9⟩) ≠ ⟨216, 224, 231, 9⟩ ∧
      ¬ DiffFits ⟨216, 224, 231, 9⟩ ⟨0, 0, 0, 9⟩ ∧ LumaFits ⟨216, 224, 231, 9⟩ ⟨0, 0, 0, 9⟩ ∧
      Room (encoding ⟨0, 0, 0, 9⟩ []) 2 := by
  unfold EncReady PixelAt DiffFits LumaFits Room; decide

theorem witness_EncodeRgb :
    EncReady (encoding ⟨0, 0, 0, 255⟩ [10, 20, 30, 255]) ⟨10, 20, 30, 255⟩ ∧
      (⟨10, 20, 30, 255⟩ : Pixel) ≠ ⟨0, 0, 0, 255⟩ ∧
      readSlot (encoding ⟨0, 0, 0, 255⟩ []) (hashIndex ⟨10, 20, 30, 255⟩) ≠ ⟨10, 20, 30, 255⟩ ∧
      ¬ DiffFits ⟨10, 20, 30, 255⟩ ⟨0, 0, 0, 255⟩ ∧ ¬ LumaFits ⟨10, 20, 30, 255⟩ ⟨0, 0, 0, 255⟩ ∧
      Room (encoding ⟨0, 0, 0, 255⟩ []) 4 := by
  unfold EncReady PixelAt DiffFits LumaFits Room; decide

theorem witness_EncodeRgba :
    EncReady (encoding ⟨250, 10, 5, 255⟩ [250, 10, 5, 128]) ⟨250, 10, 5, 128⟩ ∧
      readSlot (encoding ⟨250, 10, 5, 255⟩ []) (hashIndex ⟨250, 10, 5, 128⟩) ≠ ⟨250, 10, 5, 128⟩ ∧
      (128 : Byte) ≠ 255 ∧ Room (encoding ⟨250, 10, 5, 255⟩ []) 5 := by
  unfold EncReady PixelAt Room; decide

theorem witness_EncodeRun_continues :
    EncReady { encoding ⟨5, 5, 5, 255⟩ [5, 5, 5, 255] with run := 61 } ⟨5, 5, 5, 255⟩ ∧ (61 : BitVec 6).toNat < 62 := by
  unfold EncReady PixelAt; decide

theorem witness_EncodeRun_saturates :
    EncReady { encoding ⟨5, 5, 5, 255⟩ [5, 5, 5, 255] with run := 62 } ⟨5, 5, 5, 255⟩ ∧
      Room (encoding ⟨5, 5, 5, 255⟩ []) 1 := by
  unfold EncReady PixelAt Room; decide

theorem witness_RunKeepsHistory : (nextOf (exec (.run 0) (decoding 0 2 []))).isSome = true := by decide

theorem witness_SelectedChunkReadsBack : (⟨1, 2, 3, 4⟩ : Pixel) ≠ (encoding ⟨0, 0, 0, 255⟩ []).prev := by decide

/-- BytesPerEncodeStep: a flush and an `RGBA` are six bytes. -/
theorem witness_BytesPerEncodeStep :
    (nextOf (exec (.rgba 250 10 5 128) { encoding ⟨250, 10, 5, 255⟩ [250, 10, 5, 128] with run := 62 })).map
        (fun t => (t.wp, t.ph, t.refused)) = some (20, .body, false) := by decide

/-! Frames of the stream. -/

theorem witness_HdrReady :
    EngineRuns (started .dec []) (started .dec []) ∧ HdrReady (started .dec []) ∧ HdrReady (started .enc []) :=
  ⟨⟨.inl ⟨rfl, rfl⟩, rfl⟩, rfl, rfl⟩

/-- DecodeHeader: 0, 3, 4, 13, 14 and 20 bytes, in the states of witness_HdrReady's kind. -/
theorem witness_DecodeHeader :
    [0, 3, 4, 13, 14, 20].map (fun n =>
      let u := started .dec (List.replicate n 0)
      (u.inBuf.readBytes 0 (min u.inLen 14)).map List.length) = [some 0, some 3, some 4, some 13, some 14, some 14] := by
  decide

/-- DecodeHeader, HeaderReadErrors, HeaderFieldErrors, EncodeHeader, ZeroPixelImage: their registers are written. -/
theorem witness_operandsWritten :
    operandsWritten (started .dec []) = true ∧ operandsWritten (started .enc []) = true := by decide

theorem witness_HeaderReadErrors :
    (4 ≤ (started .dec [0x71, 0x6F, 0x69, 0x67]).inLen ∧ fits (started .dec []).cfg 14 = true) ∧
    (started .dec [0x71, 0x6F, 0x69, 0x67]).inBuf.readBytes 0 4 = some [0x71, 0x6F, 0x69, 0x67] ∧
      (started .dec [0x71, 0x6F, 0x69, 0x66]).inBuf.readBytes 0 4 = some [0x71, 0x6F, 0x69, 0x66] ∧
      (started .dec [0x71, 0x6F, 0x69]).inLen < 4 := by decide

theorem witness_HeaderReadErrors_encode :
    (nextOf (step { started .enc [] with width := 1, height := 1, channels := 4, err := 1 })).map (fun t => t.err) =
      some 5 ∧
    (nextOf (step { started .enc [] with channels := 4, err := 2 })).map (fun t => t.err) = some 2 := by decide

/-- HeaderFieldErrors, EncodeHeader: a channel count and a colour space outside the sets, then inside. -/
theorem witness_HeaderFieldErrors :
    ((2 : Byte) ≠ 3 ∧ (2 : Byte) ≠ 4) ∧ ((2 : Byte) ≠ 0 ∧ (2 : Byte) ≠ 1) ∧ (started .dec []).cfg.strict = true ∧
      ({ Params.recommended with strict := false } : Params).strict = false ∧
      (nextOf (exec (.header 0 0 4 2) { started .dec [] with cfg := { Params.recommended with strict := false } })).map
        (fun t => (t.err, t.colorspace)) = some (0, 2) := by decide

theorem witness_HeaderFieldErrors_passes :
    (nextOf (exec (.header 1 1 4 2)
        { started .enc [1, 2, 3, 4] with
          width := 1, height := 1, channels := 4, colorspace := 2, cfg := { Params.recommended with strict := false } })).map
      (fun t => t.outBuf.read 13) = some (some 2) := by decide

/-- EncodeHeader: every branch of its chain. -/
theorem witness_EncodeHeader :
    (nextOf (step { started .enc [] with channels := 5 })).map (fun t => t.err) = some 6 ∧
      (nextOf (step { started .enc [] with channels := 5, cfg := { Params.recommended with strict := false } })).map
        (fun t => t.refused) = some true ∧
      (nextOf (step { started .enc [] with channels := 3, colorspace := 2 })).map (fun t => t.err) = some 7 ∧
      (nextOf (step { started .enc [1] with channels := 3, colorspace := 1 })).map (fun t => t.err) = some 5 ∧
      (nextOf (step { started .enc [] with channels := 3, colorspace := 1 })).map (fun t => (t.err, t.wp)) =
        some (0, 14) := by decide

theorem witness_EncodeEnd :
    TailReady { encoding ⟨0, 0, 0, 255⟩ [0, 0, 0, 255] with run := 62, px := 1 } .enc ∧
      Room { encoding ⟨0, 0, 0, 255⟩ [0, 0, 0, 255] with run := 62, px := 1 } ((pendingRun 62).length + 8) := by
  unfold TailReady Room; decide

theorem witness_DecodeEnd :
    (decoding 1 1 [0, 0, 0, 0, 0, 0, 0, 1]).inBuf.readBytes 14 8 = some [0, 0, 0, 0, 0, 0, 0, 1] ∧
      (decoding 1 1 [0, 0, 0, 0, 0, 0, 0, 2]).inBuf.readBytes 14 8 = some [0, 0, 0, 0, 0, 0, 0, 2] := by decide

theorem witness_ZeroPixelImage :
    (nextOf (step { started .enc [] with channels := 4 })).map (fun t => (t.npx, t.wp)) = some (0, 14) ∧
      fits (started .enc []).cfg 22 = true ∧
      (nextOf (step { started .enc [7] with channels := 4 })).map (fun t => t.err) = some 5 := by decide

/-! Commands, the host, errors and refusals. -/

theorem witness_StartForgetsTheHistory :
    busy State.reset = false ∧ busy { State.reset with prev := ⟨1, 2, 3, 4⟩, ph := .done, pc := 7 } = false := by decide

theorem witness_StepRunsDecodedInstruction :
    decodeAt .header [0x71, 0x6F, 0x69, 0x66, 0, 0, 0, 2, 0, 0, 0, 1, 4, 0] = .ok (.header 2 1 4 0, []) ∧
      decodeAt .chunk [0xFF, 1, 2, 3, 4] = .ok (.rgba 1 2 3 4, []) ∧
      decodeAt .marker [0, 0, 0, 0, 0, 0, 0, 1] = .ok (.endMarker, []) := by decide

theorem witness_StepRunsCommand :
    ({ State.reset with host := [.writeCmd 3] } : State).host = [.writeCmd 3] ∧
      ({ started .dec [] with host := [.writeCmd 1] } : State).ph = .hdr := by decide

theorem witness_HostRegisterAccess :
    (nextOf (step { State.reset with host := [.writeChannels 255] })).map (fun t => t.channels) = some 255 ∧
      (nextOf (step { started .enc [] with host := [.writeChannels 255] })).map (fun t => t.channels) = some 0 ∧
      (nextOf (step { started .enc [] with host := [.readReg .status] })).map (fun t => t.rdata) = some 1 := by decide

theorem witness_HostBufferAccess :
    fits State.reset.cfg (0 + 1) = true ∧ State.reset.status ≠ 1 ∧ (started .enc [9]).inBuf.read 0 = some 9 ∧
      (nextOf (step
        { State.reset with ph := .done, outLen := 1, outBuf := [(0, 8)], host := [.readOut 0] })).map
        (fun t => t.rdata) = some 8 := by decide

theorem witness_HardwareReset :
    (nextOf (step { started .enc [] with refused := true, host := [.reset] })).map (fun t => (t.ph, t.refused)) =
      some (.idle, false) := by decide

theorem witness_NoStepWhenNotBusy : State.reset.ph = .idle ∧ EngineTurn State.reset State.reset :=
  ⟨rfl, .inl ⟨rfl, rfl⟩⟩

/-- ErrorsByStep: a step of each kind that raises. -/
theorem witness_ErrorsByStep :
    [{ started .enc [1] with channels := 3 }, started .dec [0, 0, 0, 0], decoding 0 1 [], decoding 1 1 []].map
        (fun s => (nextOf (step s)).map (fun t => (t.err, t.ph))) =
      [some (5, .error), some (1, .error), some (3, .error), some (3, .error)] := by decide

theorem witness_ErrorHasNoReturn :
    [[], [.writeErr 0], [.writeCmd 2], [.reset]].map
        (fun h => (nextOf (step { State.reset with ph := .error, err := 3, host := h })).map (fun t => (t.ph, t.err))) =
      [some (.error, 3), some (.error, 3), some (.hdr, 0), some (.idle, 0)] := by decide

theorem witness_RefusedIsSticky :
    (nextOf (step { started .enc [] with refused := true, host := [.readReg .err] })).map (fun t => t.refused) =
      some true ∧
    (nextOf (step { State.reset with ph := .error, refused := true, halted := true, host := [.writeCmd 1] })).map
      (fun t => (t.ph, t.refused, t.halted)) = some (.hdr, true, false) := by decide

/-- RefusedIsSticky: an unwritten byte of `IN` ends the transaction, and the host's write of it while BUSY does not
resume it (60_exceptions.md R243 case 2). -/
theorem test_refused_no_further_steps :
    (nextOf (Host.Core.run Sys2Proof.core 3
        { decoding 0 1 [] with inLen := 15, host := [.engine, .writeIn 14 0xC0, .engine] })).map
      (fun t => (t.refused, t.halted, t.ph, t.px, t.pc)) = some (true, true, .body, 0, 14) := by decide

/-- EncodeHeader, DecodeHeader, RefusalCases: `COLORSPACE`, then `IN_LEN`, never written (60_exceptions.md R243 case 2):
the step reads the value at reset, and is the last. -/
theorem witness_unwritten :
    (nextOf (step { started .enc [] with channels := 4, written := { Written.everything with colorspace := false } })).map
        (fun t => (t.refused, t.halted, t.ph, t.wp)) = some (true, true, .body, 14) ∧
      (nextOf (step { started .dec [] with written := { Written.everything with inLen := false } })).map
        (fun t => (t.refused, t.halted, t.ph, t.err)) = some (true, true, .error, 2) := by decide

/-- RefusalCases: the parameters of the next states, without `STRICT` and with a capacity. -/
def lax : Params := { Params.recommended with strict := false }

def bounded (n : Nat) : Params := { Params.recommended with bufMax := some n }

/-- RefusalCases, RefusedIsSticky: a state of each of R243's three cases, in the words of NoMeaning and Unwritten. -/
theorem witness_RefusalCases :
    NoMeaning { started .enc [] with channels := 5, cfg := lax } ∧
      NoMeaning { started .dec (encode (.header 1 1 5 0)) with cfg := lax } ∧
      Unwritten { started .enc [] with written := { Written.everything with height := false } } ∧
      Unwritten { started .dec [] with written := Written.nothing } ∧
      NoMeaning { decoding 0 1 [] with inLen := 15 } ∧
      NoMeaning { decoding 0 1 [0xFE, 1, 2, 3] with cfg := bounded 17 } ∧
      NoMeaning { decoding 0 1 [0xC0] with wp := 15, cfg := bounded 18 } :=
  ⟨.fieldsEncode rfl rfl rfl (by decide) (by decide),
    .fieldsDecode (b := encode (.header 1 1 5 0)) (c := 5) rfl rfl rfl (by decide) (by decide) (by decide) (by decide)
      (by decide) (by decide),
    ⟨rfl, .inr ⟨rfl, .inr (.inl rfl)⟩⟩, ⟨rfl, .inl rfl⟩,
    .byte (.tag ⟨rfl, rfl, by decide⟩) (by decide) (k := 0) (by decide) (by decide),
    .readBeyond (.chunk (t := 0xFE) ⟨rfl, rfl, by decide⟩ (by decide)) (by decide) (by decide),
    .writeBeyond (.decodeRun (len1 := 0) ⟨rfl, rfl, by decide⟩ (by decide) (.inl (by decide))) (by decide)⟩

/-- RefusalCases, RefusedIsSticky: the hypotheses on `exec` and on the engine's step. -/
theorem witness_RefusalCases_step :
    DecReady { decoding 0 1 [] with cfg := bounded 3 } ∧ fits (bounded 3) (0 + bytesPerPixel 4) = false ∧
      (nextOf (step { started .enc [] with channels := 5, cfg := lax })).map (fun t => (t.refused, t.halted)) =
        some (true, true) ∧
      Inv { started .enc [] with channels := 5, cfg := lax } := by
  refine ⟨⟨rfl, rfl, by decide⟩, by decide, by decide, ?_⟩
  constructor <;> decide

theorem witness_ExecFrame : (nextOf (exec (.rgb 1 2 3) (decoding 0 1 []))).isSome = true := by decide

theorem witness_MemReadIsBounded :
    fits State.reset.cfg (0 + 4) = true ∧ 0 + 4 ≤ (started .dec [1, 2, 3, 4]).inLen ∧
      (started .dec [1, 2, 3]).inLen < 0 + 4 ∧ (decoding 0 1 []).inLen < 14 + 1 := by decide

/-! Invariants. -/

theorem witness_Inv_header : Inv (started .dec [1, 2, 3]) ∧ Inv (started .enc [1, 2, 3]) := by
  constructor <;> constructor <;> decide

/-- An encode in the middle: the invariant, also in the words of MemReadIsBounded and (three channels) EncodeRgba. -/
theorem witness_Inv_encode :
    Inv { encoding ⟨0, 0, 0, 255⟩ [10, 20, 30, 255] with npx := 1 } ∧
      Inv { encoding ⟨0, 0, 0, 255⟩ [10, 20, 30] with channels := 3 } := by
  constructor <;> constructor <;> decide

theorem witness_Inv_decode :
    Inv (decoding 0 2 [0xFE, 0x0A, 0x14, 0x1E]) ∧ Inv (decoding 2 2 [0, 0, 0, 0, 0, 0, 0, 1]) := by
  constructor <;> constructor <;> decide

theorem witness_StepKeepsInv : (nextOf (step (decoding 0 2 [0xFE, 0x0A, 0x14, 0x1E]))).isSome = true := by decide

theorem witness_StepKeepsEncoderStream :
    EncoderStream { started .enc [10, 20, 30, 255] with width := 1, height := 1, channels := 4 } ∧
      (nextOf (step { started .enc [10, 20, 30, 255] with width := 1, height := 1, channels := 4 })).isSome = true :=
  ⟨fun _ => ⟨fun h => absurd h (by decide), fun h => absurd h (by decide)⟩, by decide⟩

/-- In BODY too: the header is out, no pixel is consumed. -/
theorem witness_EncoderStream_body :
    EncodedSoFar
      { encoding ⟨0, 0, 0, 255⟩ [10, 20, 30, 255] with outBuf := Mem.writeBytes [] 0 (encode (.header 1 1 4 0)) } :=
  ⟨[], [], by decide, by decide, by decide, by simp, fun k h h' => absurd h' (Nat.not_lt_zero k)⟩

theorem witness_StepKeepsDecoderStream : DecoderStream (decoding 0 2 [0xFE, 0x0A, 0x14, 0x1E]) :=
  fun _ => ⟨fun _ => ⟨by decide, [], [], by decide, by decide, by decide, fun h => absurd h (by decide), by decide⟩,
    fun h => absurd h (by decide)⟩

/-- At DONE too: no pixels, the header and the marker. -/
theorem witness_DecoderStream_done :
    DecodedWhole { decoding 0 0 [0, 0, 0, 0, 0, 0, 0, 1] with ph := .done, pc := 22 } :=
  ⟨by decide, by decide, by decide, [], [], by decide, by decide, by decide, fun h => absurd h (by decide), by decide⟩

/-- TransactionTerminates, EngineIsSequential, ErrorsByStep, ParametersAreConstant: the engine's turn in a state of the
invariant. -/
theorem witness_engine_in_Inv :
    Inv (decoding 0 2 [0xFE, 0x0A, 0x14, 0x1E]) ∧ busy (decoding 0 2 [0xFE, 0x0A, 0x14, 0x1E]) = true ∧
      (decoding 0 2 [0xFE, 0x0A, 0x14, 0x1E]).halted = false ∧ (decoding 0 2 [0xFE, 0x0A, 0x14, 0x1E]).host = [] ∧
      EngineTurn (decoding 0 2 [0xFE, 0x0A, 0x14, 0x1E]) (decoding 0 2 [0xFE, 0x0A, 0x14, 0x1E]) :=
  ⟨witness_Inv_decode.1, by decide, rfl, rfl, .inl ⟨rfl, rfl⟩⟩

/-- StepRunsSelectedInstruction: the three kinds of step. -/
theorem witness_StepRunsSelectedInstruction :
    (started .enc []).ph = .hdr ∧ EncReady (encoding ⟨0, 0, 0, 255⟩ [1, 2, 3, 4]) ⟨1, 2, 3, 4⟩ ∧
      TailReady { encoding ⟨0, 0, 0, 255⟩ [1, 2, 3, 4] with px := 1 } .enc := by
  unfold EncReady PixelAt TailReady; decide

/-- RoundTrip: a 1x1 image, its three steps, and the decode of what they wrote. -/
theorem witness_RoundTrip_encode :
    Inv { started .enc [0, 0, 0, 255] with width := 1, height := 1, channels := 4 } ∧
      (started .enc [0, 0, 0, 255]).inBuf.readBytes 0 4 = some [0, 0, 0, 255] := by
  refine ⟨?_, by decide⟩
  constructor <;> decide

theorem witness_RoundTrip_decode :
    Inv (started .dec ([0x71, 0x6F, 0x69, 0x66, 0, 0, 0, 1, 0, 0, 0, 1, 4, 0] ++ [0xC0, 0, 0, 0, 0, 0, 0, 0, 1])) := by
  constructor <;> decide

end Sys2Proof.Tests
end

/-! The statements of 10_state.md: a START re-creates the history, a host write of `CMD` runs its command, and no step
changes the parameters. -/

section
namespace Sys2Proof.Machine

open Sys2Proof

/-! The two commands (44_commands.md R200, R201, R203). -/

theorem exec_startEncode (s : State) : exec .startEncode s = startCommand .enc s := rfl

theorem exec_startDecode (s : State) : exec .startDecode s = startCommand .dec s := rfl

theorem startCommand_of_busy {s : State} (h : busy s = true) (m : Mode) : startCommand m s = .next s := if_pos h

theorem startCommand_of_not_busy {s : State} (h : ¬ busy s = true) (m : Mode) :
    startCommand m s = .next (startTransaction m s) := if_neg h

/-- After a START every slot holds (0,0,0,0) (10_state.md R46). -/
@[simp] theorem readSlot_startTransaction (m : Mode) (s : State) (k : BitVec 6) :
    readSlot (startTransaction m s) k = ⟨0, 0, 0, 0⟩ := by
  simp [readSlot, Pixel.zero]

/-- Either command is a START in the mode it names. -/
theorem exec_eq_startCommand {i : Instr} {m : Mode}
    (h : (i = .startEncode ∧ m = .enc) ∨ (i = .startDecode ∧ m = .dec)) (s : State) : exec i s = startCommand m s := by
  rcases h with ⟨rfl, rfl⟩ | ⟨rfl, rfl⟩
  · exact exec_startEncode s
  · exact exec_startDecode s

/-- Settles O37: a START is ignored while BUSY and is `startTransaction` in the other three phases. -/
theorem startOrIgnored : Obligations.StartOrIgnored := by
  intro i m s hi
  rw [exec_eq_startCommand hi]
  split_ifs with hb
  · exact startCommand_of_busy (busy_eq_true.2 hb) m
  · exact ⟨_, startCommand_of_not_busy (mt busy_eq_true.1 hb) m, readSlot_startTransaction m s, rfl, rfl⟩

/-! The host's next move (44_commands.md R206). -/

/-- With a move listed, the step is that move, taken off the list. -/
theorem step_of_host {s : State} {op : HostOp} {rest : List HostOp} (h : s.host = op :: rest) :
    step s = hostMove op { s with host := rest } := by
  simp only [step, turn, h]

theorem hostMove_writeCmd_of_some {v : BitVec 2} {i : Instr} (h : decodeCommand v = some i) (s : State) :
    hostMove (.writeCmd v) s = exec i s := by
  simp only [hostMove, h]

theorem hostMove_writeCmd_of_none {v : BitVec 2} (h : decodeCommand v = none) (s : State) :
    hostMove (.writeCmd v) s = .next s := by
  simp only [hostMove, h]

/-- A `CMD` value is a START or no command (10_state.md R34). -/
theorem decodeCommand_cases (v : BitVec 2) :
    decodeCommand v = none ∨ decodeCommand v = some .startEncode ∨ decodeCommand v = some .startDecode := by
  unfold decodeCommand
  split_ifs <;> simp

/-- No `CMD` value has an effect while BUSY (44_commands.md R203). -/
theorem hostMove_writeCmd_of_busy {s : State} (h : busy s = true) (v : BitVec 2) :
    hostMove (.writeCmd v) s = .next s := by
  rcases decodeCommand_cases v with hv | hv | hv
  · exact hostMove_writeCmd_of_none hv s
  · rw [hostMove_writeCmd_of_some hv, exec_startEncode, startCommand_of_busy h]
  · rw [hostMove_writeCmd_of_some hv, exec_startDecode, startCommand_of_busy h]

/-- Settles O41: the step is the listed `CMD` move, which runs what its value decodes to. -/
theorem stepRunsCommand : Obligations.StepRunsCommand := by
  refine ⟨fun s v rest h => ?_, fun s rest h => step_of_host h⟩
  rw [step_of_host h]
  refine ⟨?_, ?_, ?_, fun hb => hostMove_writeCmd_of_busy (s := { s with host := rest }) (busy_eq_true.2 hb) v⟩
  · rintro rfl
    exact hostMove_writeCmd_of_some rfl _
  · rintro rfl
    exact hostMove_writeCmd_of_some rfl _
  · rintro (rfl | rfl)
    · exact hostMove_writeCmd_of_none rfl _
    · exact hostMove_writeCmd_of_none rfl _

/-! The parameters (10_state.md R44). -/

/-- A completed step leaves the parameters as they were. -/
theorem Completed.cfg_eq {i : Instr} {s t : State} (h : Completed i s t) : t.cfg = s.cfg := by
  cases h with
  | decodePixel _ _ _ _ _ _ h => obtain ⟨-, rfl⟩ := finish_eq_ok.1 h; rfl
  | @decodeRun l _ _ _ _ _ h =>
    rcases decodeRun_cases l s with ⟨-, he⟩ | ⟨-, -, he⟩ | ⟨-, -, he⟩ <;> rw [he] at h
    · rw [repeatPrev_eq_ok h]
    · cases h
    · rw [repeatPrev_eq_ok h]
  | encodePixel _ _ _ _ _ h => obtain ⟨p, -, -, rfl⟩ := encodeChunk_eq_ok h; rfl
  | encodeRun _ _ _ h => obtain ⟨p, -, -, ⟨-, rfl⟩ | ⟨-, rfl⟩⟩ := encodeRun_eq_ok h <;> rfl
  | decodeHeader _ _ h => obtain ⟨-, rfl⟩ := decodeHeaderStep_eq_ok.1 h; rfl
  | encodeHeader _ _ h => obtain ⟨-, -, -, rfl⟩ := encodeHeaderStep_eq_ok h; rfl
  | decodeEnd _ _ _ h => cases h; rfl
  | encodeEnd _ _ _ h => rw [encodeTail_eq_ok h]

theorem exec_keeps_cfg {i : Instr} {s t : State} (h : exec i s = .next t) : t.cfg = s.cfg := by
  rcases exec_next h with ⟨-, ⟨-, rfl⟩ | ⟨m, -, rfl⟩⟩ | ⟨-, ⟨u, hu, rfl⟩ | ⟨e, -, rfl⟩ | rfl⟩
  · rfl
  · rfl
  · exact hu.cfg_eq
  · rfl
  · rfl

theorem engineStep_keeps_cfg {s t : State} (h : engineStep s = .next t) : t.cfg = s.cfg := by
  rcases engineStep_next h with ⟨-, rfl⟩ | ⟨-, -, ⟨i, -, he⟩ | ⟨e, -, rfl⟩ | ⟨-, rfl⟩⟩
  · rfl
  · exact exec_keeps_cfg he
  · rfl
  · rfl

theorem hostMove_keeps_cfg {op : HostOp} {s t : State} (h : hostMove op s = .next t) : t.cfg = s.cfg := by
  rcases hostMove_next h with ⟨-, he⟩ | ⟨v, i, -, -, he⟩ | ⟨-, rfl⟩ | ⟨ht, -, -⟩
  · exact engineStep_keeps_cfg he
  · exact exec_keeps_cfg he
  · rfl
  · rw [ht]

/-- Settles O54: neither the engine's turn nor any move of the host, hardware reset included, changes the parameters. -/
theorem parametersAreConstant : Obligations.ParametersAreConstant := by
  intro s t h
  rcases step_next h with ⟨-, he⟩ | ⟨op, rest, -, hm⟩
  · exact engineStep_keeps_cfg he
  · exact hostMove_keeps_cfg (s := { s with host := rest }) hm

end Sys2Proof.Machine
end

/-! The statement of 20_memory.md: `MemRead` gives the bytes in rising order, or fails by phase. -/

section
namespace Sys2Proof.Machine

open Sys2Proof

/-- Where every byte has been written, `readBytes` gives a list, whose byte `k` is the one at address `a + k`. -/
theorem Mem.readBytes_of_written {m : Mem} {a n : Nat} (h : ∀ k, k < n → (m.read (a + k)).isSome = true) :
    ∃ bs, m.readBytes a n = some bs ∧ bs.length = n ∧ ∀ k, k < n → bs[k]? = m.read (a + k) := by
  cases hr : m.readBytes a n with
  | none =>
    obtain ⟨k, hk, hn⟩ := readBytes_eq_none.1 hr
    simpa [hn] using h k hk
  | some bs =>
    obtain ⟨hl, hb⟩ := (Mem.readBytes_eq_some m a n bs).1 hr
    exact ⟨bs, rfl, hl, fun k hk => (hb k hk).symm⟩

/-- While a pixel of an encode remains, its bytes lie below `IN_LEN`: `pc` is at pixel `px` of the `npx` that `IN_LEN`
counts (10_state.md R26, 42_chunk_encoder.md R140). -/
theorem Inv.encode_pixel_le_inLen {s : State} (h : Inv s) (hm : s.mode = .enc) (hp : s.ph = .body)
    (hx : s.px < s.npx) : s.pc + s.channels.toNat ≤ s.inLen := by
  obtain ⟨hpc, hlen, -⟩ := h.encBody hp hm
  calc s.pc + s.channels.toNat = (s.px + 1) * s.channels.toNat := by rw [hpc, Nat.succ_mul]
    _ ≤ s.npx * s.channels.toNat := Nat.mul_le_mul_right _ hx
    _ = s.inLen := hlen.symm

/-- Settles O53: a read of written bytes below `IN_LEN` gives them, one beyond it fails with the phase's error, and an
encode has as many pixels left as `IN` holds. -/
theorem memReadIsBounded : Obligations.MemReadIsBounded := by
  refine ⟨fun s a n hfits => ⟨fun hle hw => ?_, fun hlt hp => ?_, fun hlt hp => ?_⟩,
    fun s h hm hp hx => h.encode_pixel_le_inLen hm hp hx⟩
  · obtain ⟨bs, hr, hlen, hget⟩ := Mem.readBytes_of_written hw
    exact ⟨bs, memRead_eq_ok.2 ⟨hle, hfits, hr⟩, hlen, hget⟩
  · exact memRead_eq_raise.2 ⟨hlt, by rw [hp]; rfl⟩
  · exact memRead_eq_raise.2 ⟨hlt, by rw [hp]; rfl⟩

end Sys2Proof.Machine
end

/-! The statements of 30_encoding.md about one chunk: which tags are which chunk, how long a chunk is, and the worked
encodings. -/

section
namespace Sys2Proof

/-! Tag ranges (30_encoding.md R81). -/

/-- Bits 7:6 of a tag, as a number. -/
theorem topBits_eq_iff {t : Byte} {k : BitVec 2} : t.extractLsb' 6 2 = k ↔ t.toNat / 64 = k.toNat := by
  have ht : t.toNat < 256 := t.isLt
  rw [← BitVec.toNat_inj, BitVec.extractLsb'_toNat, Nat.shiftRight_eq_div_pow]
  omega

/-- Bits 5:0 of a tag, as a number. -/
theorem toNat_lowBits (t : Byte) : (t.extractLsb' 0 6).toNat = t.toNat % 64 := by
  simp [BitVec.extractLsb'_toNat]

/-- `tagKind` tests ranges of the tag: the two 8-bit tags are the top of the range `RUN` would have. -/
theorem tagKind_eq (t : Byte) :
    tagKind t =
      if t.toNat ≤ 0x3F then .index
      else if t.toNat ≤ 0x7F then .diff
      else if t.toNat ≤ 0xBF then .luma
      else if t.toNat ≤ 0xFD then .run
      else if t.toNat = 0xFE then .rgb
      else .rgba := by
  have ht : t.toNat < 256 := t.isLt
  have hrgb : t = 254#8 ↔ t.toNat = 0xFE := BitVec.toNat_inj.symm
  have hrgba : t = 255#8 ↔ t.toNat = 0xFF := BitVec.toNat_inj.symm
  simp only [tagKind, BitVec.ofNat_eq_ofNat, hrgb, hrgba, topBits_eq_iff, BitVec.reduceToNat]
  grind

/-- The table of R72, by tag. -/
theorem chunkLength_eq (t : Byte) :
    chunkLength t =
      if t.toNat ≤ 0x7F then 1
      else if t.toNat ≤ 0xBF then 2
      else if t.toNat ≤ 0xFD then 1
      else if t.toNat = 0xFE then 4
      else 5 := by
  rw [chunkLength, tagKind_eq]
  split_ifs <;> simp only [kindLength] <;> omega

/-! The decoder by kind of chunk (30_encoding.md R74 to R79). -/

section
variable {t : Byte} {bs ops rest : List Byte} {i : Instr}

theorem decodeChunk_index (h : tagKind t = .index) :
    decodeChunk (t :: rest) = .ok (.index (t.extractLsb' 0 6), rest) := by
  simp only [decodeChunk, h]

theorem decodeChunk_diff (h : tagKind t = .diff) :
    decodeChunk (t :: rest) =
      .ok (.diff (t.extractLsb' 4 2) (t.extractLsb' 2 2) (t.extractLsb' 0 2), rest) := by
  simp only [decodeChunk, h]

theorem decodeChunk_luma (h : tagKind t = .luma) (b2 : Byte) :
    decodeChunk (t :: b2 :: rest) =
      .ok (.luma (t.extractLsb' 0 6) (b2.extractLsb' 4 4) (b2.extractLsb' 0 4), rest) := by
  simp only [decodeChunk, h]

theorem decodeChunk_run (h : tagKind t = .run) :
    decodeChunk (t :: rest) = .ok (.run (t.extractLsb' 0 6), rest) := by
  simp only [decodeChunk, h]

theorem decodeChunk_rgb (h : tagKind t = .rgb) (r g b : Byte) :
    decodeChunk (t :: r :: g :: b :: rest) = .ok (.rgb r g b, rest) := by
  simp only [decodeChunk, h]

theorem decodeChunk_rgba (h : tagKind t = .rgba) (r g b a : Byte) :
    decodeChunk (t :: r :: g :: b :: a :: rest) = .ok (.rgba r g b a, rest) := by
  simp only [decodeChunk, h]

/-- With exactly the operand bytes its tag asks for, a chunk is decoded and the rest is left. -/
theorem decodeChunk_operands (h : ops.length + 1 = chunkLength t) (rest : List Byte) :
    ∃ i, decodeChunk (t :: (ops ++ rest)) = .ok (i, rest) := by
  rw [chunkLength] at h
  cases hk : tagKind t <;> simp only [hk, kindLength, Nat.reduceEqDiff, Nat.add_eq_right, List.length_eq_zero_iff,
    List.length_eq_one_iff, List.length_eq_three, List.length_eq_four] at h
  case index => subst h; exact ⟨_, decodeChunk_index hk⟩
  case diff => subst h; exact ⟨_, decodeChunk_diff hk⟩
  case run => subst h; exact ⟨_, decodeChunk_run hk⟩
  case luma => obtain ⟨b2, rfl⟩ := h; exact ⟨_, decodeChunk_luma hk b2⟩
  case rgb => obtain ⟨r, g, b, rfl⟩ := h; exact ⟨_, decodeChunk_rgb hk r g b⟩
  case rgba => obtain ⟨r, g, b, a, rfl⟩ := h; exact ⟨_, decodeChunk_rgba hk r g b a⟩

/-- Where enough bytes exist, decoding a chunk leaves what stands beyond its length. -/
theorem decodeChunk_of_le_length (h : chunkLength t ≤ (t :: bs).length) :
    ∃ i, decodeChunk (t :: bs) = .ok (i, (t :: bs).drop (chunkLength t)) := by
  have hpos : 0 < chunkLength t := by cases hk : tagKind t <;> simp [chunkLength, hk, kindLength]
  obtain ⟨n, hn⟩ := Nat.exists_eq_add_one.2 hpos
  rw [hn] at h ⊢
  have hops : (bs.take n).length + 1 = chunkLength t := by
    rw [hn, List.length_take_of_le (by simpa using h)]
  simpa using decodeChunk_operands hops (bs.drop n)

/-- A chunk with fewer bytes than its tag asks for is not decoded. -/
theorem decodeChunk_of_length_lt (h : (t :: bs).length < chunkLength t) : decodeChunk (t :: bs) = .error .truncated := by
  rw [chunkLength] at h
  cases hk : tagKind t <;> simp only [hk, kindLength, List.length_cons] at h
  case index => omega
  case diff => omega
  case run => omega
  case luma =>
    match bs, h with
    | [], _ => simp only [decodeChunk, hk]
  case rgb =>
    match bs, h with
    | [], _ | [_], _ | [_, _], _ => simp only [decodeChunk, hk]
  case rgba =>
    match bs, h with
    | [], _ | [_], _ | [_, _], _ | [_, _, _], _ => simp only [decodeChunk, hk]

/-- A decoded chunk takes exactly the bytes its tag announces. -/
theorem decodeChunk_length (h : decodeChunk (t :: bs) = .ok (i, rest)) :
    (t :: bs).length = chunkLength t + rest.length := by
  rcases Nat.lt_or_ge (t :: bs).length (chunkLength t) with hlt | hle
  · rw [decodeChunk_of_length_lt hlt] at h
    cases h
  · obtain ⟨j, hj⟩ := decodeChunk_of_le_length hle
    rw [hj] at h
    cases h
    rw [List.length_drop]
    omega

end

/-- Settles O4: each range of tags is one kind of chunk, and the decoder answers every chunk of that kind. -/
theorem everyTagIsAChunk : Obligations.EveryTagIsAChunk := by
  intro t rest
  have hkind := tagKind_eq t
  refine ⟨fun hi => ?index, fun lo hi => ?diff, fun lo hi b2 => ?luma, fun lo hi => ?run, fun he r g b => ?rgb,
    fun he r g b a => ?rgba⟩
  case index =>
    rw [if_pos hi] at hkind
    refine ⟨_, decodeChunk_index hkind, ?_⟩
    rw [toNat_lowBits]
    omega
  case diff =>
    rw [if_neg (by omega), if_pos hi] at hkind
    exact ⟨_, _, _, decodeChunk_diff hkind⟩
  case luma =>
    rw [if_neg (by omega), if_neg (by omega), if_pos hi] at hkind
    exact ⟨_, _, _, decodeChunk_luma hkind b2⟩
  case run =>
    rw [if_neg (by omega), if_neg (by omega), if_neg (by omega), if_pos hi] at hkind
    refine ⟨_, decodeChunk_run hkind, ?_⟩
    rw [Machine.runLength, toNat_lowBits]
    omega
  case rgb => exact decodeChunk_rgb (by simpa [he] using hkind) r g b
  case rgba => exact decodeChunk_rgba (by simpa [he] using hkind) r g b a

/-- Settles O5: the table by tag, and a chunk is decoded exactly where that many bytes exist, which it takes. -/
theorem lengthFollowsTag : Obligations.LengthFollowsTag :=
  ⟨chunkLength_eq, fun _ _ _ _ h => decodeChunk_length h,
    fun _ _ h => (decodeChunk_of_le_length h).imp fun _ hi => ⟨_, hi⟩⟩

/-- Settles O3: ten closed equations, which the model evaluates. -/
theorem workedEncodings : Obligations.WorkedEncodings := by
  unfold Obligations.WorkedEncodings
  decide

end Sys2Proof
end

/-! The statements of 41_pixel_history.md: the hash, the commit, the difference arithmetic, and what a run leaves alone. -/

section
namespace Sys2Proof.Machine

open Sys2Proof

/-! The cache hash (41_pixel_history.md R120). -/

/-- The hash, as a number. -/
theorem toNat_hashIndex (p : Pixel) :
    (hashIndex p).toNat = (p.r.toNat * 3 + p.g.toNat * 5 + p.b.toNat * 7 + p.a.toNat * 11) % 64 := by
  rw [hashIndex, BitVec.toNat_ofNat, Nat.mod_mod]

/-- The hash in 6-bit arithmetic, products and sum wrapping. -/
theorem hashIndex_eq_wrapped (p : Pixel) :
    hashIndex p =
      p.r.setWidth 6 * BitVec.ofNat 6 3 + p.g.setWidth 6 * BitVec.ofNat 6 5 + p.b.setWidth 6 * BitVec.ofNat 6 7 +
        p.a.setWidth 6 * BitVec.ofNat 6 11 := by
  apply BitVec.eq_of_toNat_eq
  rw [toNat_hashIndex]
  simp [Nat.add_mod, Nat.mul_mod]

/-- Narrowing commutes with the wrapping product and sum, so only the low 6 bits of each operand count. -/
theorem setWidth_weightedSum {k : Nat} (h : 6 ≤ k) (r g b a : Byte) (x y z w : Nat) :
    (r.setWidth k * BitVec.ofNat k x + g.setWidth k * BitVec.ofNat k y + b.setWidth k * BitVec.ofNat k z +
        a.setWidth k * BitVec.ofNat k w).setWidth 6 =
      r.setWidth 6 * BitVec.ofNat 6 x + g.setWidth 6 * BitVec.ofNat 6 y + b.setWidth 6 * BitVec.ofNat 6 z +
        a.setWidth 6 * BitVec.ofNat 6 w := by
  simp only [BitVec.setWidth_add _ _ h, BitVec.setWidth_mul _ _ h, BitVec.setWidth_setWidth_of_le _ h,
    BitVec.setWidth_ofNat_of_le h]

/-- Settles O7: the formula holds of the hash as a number, and a wider computation narrows to the 6-bit one; the corner
cases are evaluated. -/
theorem hashIsTheFormula : Obligations.HashIsTheFormula :=
  ⟨fun p => ⟨toNat_hashIndex p, fun _ hk => by rw [setWidth_weightedSum hk, hashIndex_eq_wrapped]⟩, by decide⟩

/-! The commit (41_pixel_history.md R122, R123). -/

/-- After `commit(p)` the slot of `p` holds `p` and every other slot is as before. -/
theorem readSlot_commit (p : Pixel) (s : State) (i : BitVec 6) :
    readSlot (commit p s) i = if i = hashIndex p then p else readSlot s i := by
  simp only [readSlot, commit_cache, Vector.getElem_set, BitVec.toNat_inj, eq_comm]

theorem readSlot_commit_self (p : Pixel) (s : State) : readSlot (commit p s) (hashIndex p) = p := by
  rw [readSlot_commit, if_pos rfl]

/-- A commit learns its pixel: the slot it writes is the one of the formula. -/
theorem learned_commit (p : Pixel) (s : State) : Learned s (commit p s) p := by
  intro i
  rw [readSlot_commit, ← toNat_hashIndex]
  simp only [BitVec.toNat_inj]

/-- Settles O8: slot and `prev` by the lemmas on `commit`; it writes no other field, in whichever order. -/
theorem commitWritesSlotAndPrev : Obligations.CommitWritesSlotAndPrev :=
  fun p s => ⟨readSlot_commit_self p s, commit_prev p s, learned_commit p s, rfl, rfl⟩

/-! Bytes and signed differences (00_scope.md R8, 41_pixel_history.md R128 to R130). -/

/-- `wrap8(x)` is the byte congruent to `x` modulo 256. -/
theorem wrap8_eq_iff {x : Int} {b : Byte} : wrap8 x = b ↔ x % 256 = b.toNat := by
  rw [wrap8, ← BitVec.toNat_inj, BitVec.toNat_ofInt]
  omega

/-- `s8(x)` is congruent to `x` modulo 256. -/
theorem s8_emod (x : Int) : s8 x % 256 = x % 256 := by
  unfold s8
  split_ifs <;> omega

/-- Settles O9: modulo 256 the signed difference is the difference, which `y` cancels. -/
theorem differenceAddsBack : Obligations.DifferenceAddsBack := by
  intro x y
  rw [wrap8_eq_iff]
  have hs := s8_emod (x.toNat - y.toNat)
  have hx : x.toNat < 256 := x.isLt
  omega

/-- A wrapped value lies in a signed 4-bit interval where the value does, if the value is less than 248 away from 0:
the nearest other values with the same residue in the interval are 256 away. -/
theorem s8_within_iff {x : Int} (lo : -248 < x) (hi : x < 248) : (-8 ≤ s8 x ∧ s8 x ≤ 7) ↔ (-8 ≤ x ∧ x ≤ 7) := by
  unfold s8
  split_ifs <;> omega

theorem within_eq_true {lo hi x : Int} : within lo hi x = true ↔ lo ≤ x ∧ x ≤ hi := by
  simp [within]

/-- The encoder's test is the condition of 42_chunk_encoder.md R148. -/
theorem fitsLuma_eq_true {p q : Pixel} : fitsLuma p q = true ↔ LumaFits p q := by
  simp only [fitsLuma, LumaFits, Bool.and_eq_true, decide_eq_true_eq, within_eq_true, and_assoc, componentDiff, delta]

/-- Settles O10: `dr - dg` lies in -159..159, where wrapping moves nothing into -8..7. -/
theorem secondDifferenceWrapIsMoot : Obligations.SecondDifferenceWrapIsMoot :=
  ⟨fun _ _ _ _ _ _ => (s8_within_iff (by omega) (by omega)).symm, fun _ _ => fitsLuma_eq_true⟩

/-! The history under a run (41_pixel_history.md R125). -/

theorem repeatPrev_keeps_history {n : Nat} {s t : State} (h : repeatPrev n s = .ok t) : historyOf t = historyOf s := by
  rw [repeatPrev_eq_ok h]
  rfl

theorem decodeRun_keeps_history {l : BitVec 6} {s t : State} (h : decodeRun l s = .ok t) :
    historyOf t = historyOf s := by
  rcases decodeRun_cases l s with ⟨-, he⟩ | ⟨-, -, he⟩ | ⟨-, -, he⟩ <;> rw [he] at h
  · exact repeatPrev_keeps_history h
  · cases h
  · exact repeatPrev_keeps_history h

theorem encodeRun_keeps_history {l : BitVec 6} {s t : State} (h : encodeRun l s = .ok t) :
    historyOf t = historyOf s := by
  obtain ⟨p, -, -, ⟨-, rfl⟩ | ⟨-, rfl⟩⟩ := encodeRun_eq_ok h
  · rfl
  · rfl

/-- A step that keeps the history where it completes keeps it in every next state: an error and the mark are applied to
the state before the step. -/
theorem conclude_keeps_history {s t : State} {r : Except Stop State} (hr : ∀ u, r = .ok u → historyOf u = historyOf s)
    (h : conclude s r = .next t) : historyOf t = historyOf s := by
  rcases conclude_next h with ⟨u, hu, rfl⟩ | ⟨e, -, rfl⟩ | ⟨-, rfl⟩
  · exact hr u hu
  · rfl
  · rfl

theorem exec_run (l : BitVec 6) (s : State) : exec (.run l) s = bodyStep s (decodeRun l s) (encodeRun l s) := rfl

theorem exec_run_keeps_history {l : BitVec 6} {s t : State} (h : exec (.run l) s = .next t) :
    historyOf t = historyOf s := by
  rw [exec_run] at h
  obtain ⟨-, -, ⟨-, hd⟩ | ⟨-, he⟩⟩ := bodyStep_next h
  · exact conclude_keeps_history (fun _ => decodeRun_keeps_history) hd
  · exact conclude_keeps_history (fun _ => encodeRun_keeps_history) he

/-- Settles O26: the history as a whole is kept on either side of a run, so `cache` and `prev` are. -/
theorem runKeepsHistory : Obligations.RunKeepsHistory :=
  fun _ _ _ h => History.mk.inj (exec_run_keeps_history h)

end Sys2Proof.Machine
end

/-! The statements of 42_chunk_encoder.md: the chunk a pixel step emits, its bytes, and the header and tail steps. -/

section
namespace Sys2Proof.Machine

open Sys2Proof

/-! The bytes of a chunk from its fields as numbers (30_encoding.md R74 to R77, R80). -/

/-- Two fields side by side, as a number. -/
theorem toNat_append_fields {m n : Nat} (x : BitVec m) (y : BitVec n) :
    (x ++ y).toNat = x.toNat * 2 ^ n + y.toNat := by
  rw [BitVec.toNat_append, ← Nat.shiftLeft_add_eq_or_of_lt y.isLt, Nat.shiftLeft_eq]

/-- A value whose biased form fits the field is carried exactly. -/
theorem toNat_withBias {w : Nat} {value bias : Int} (lo : 0 ≤ value + bias) (hi : value + bias < 2 ^ w) :
    ((withBias w value bias).toNat : Int) = value + bias := by
  rw [withBias, BitVec.toNat_ofInt, Int.toNat_of_nonneg (Int.emod_nonneg _ (by positivity))]
  exact Int.emod_eq_of_lt lo (by exact_mod_cast hi)

/-- A byte is given by its value. -/
theorem byte_eq_ofInt {b : Byte} {x : Int} (h : (b.toNat : Int) = x) : b = BitVec.ofInt 8 x := by
  have hb : b.toNat < 256 := b.isLt
  exact (wrap8_eq_iff.2 (by omega)).symm

/-- The byte of INDEX: the tag bits are zero. -/
theorem encode_index (i : BitVec 6) : encode (.index i) = [BitVec.ofNat 8 i.toNat] := by
  refine congrArg ([·]) (BitVec.eq_of_toNat_eq ?_)
  rw [toNat_append_fields, BitVec.toNat_ofNat, BitVec.toNat_ofNat]
  omega

/-- The byte of DIFF. -/
theorem encode_diff (dr2 dg2 db2 : BitVec 2) :
    encode (.diff dr2 dg2 db2) = [BitVec.ofInt 8 (0x40 + dr2.toNat * 16 + dg2.toNat * 4 + db2.toNat)] := by
  refine congrArg ([·]) (byte_eq_ofInt ?_)
  simp only [toNat_append_fields, BitVec.toNat_ofNat]
  omega

/-- The two bytes of LUMA. -/
theorem encode_luma (dg32 : BitVec 6) (drdg8 dbdg8 : BitVec 4) :
    encode (.luma dg32 drdg8 dbdg8) =
      [BitVec.ofInt 8 (0x80 + dg32.toNat), BitVec.ofInt 8 (drdg8.toNat * 16 + dbdg8.toNat)] := by
  refine congrArg₂ ([·, ·]) (byte_eq_ofInt ?_) (byte_eq_ofInt ?_)
  · simp only [toNat_append_fields, BitVec.toNat_ofNat]
    omega
  · simp only [toNat_append_fields]
    omega

theorem componentDiff_eq_delta (x y : Byte) : componentDiff x y = delta x y := rfl

/-- `enc_DIFF` (42_chunk_encoder.md R147): where the differences fit, each field is its difference plus 2. -/
theorem encode_diffOf {p q : Pixel} (h : DiffFits p q) :
    encode (diffOf p q) =
      [BitVec.ofInt 8 (0x40 + (delta p.r q.r + 2) * 16 + (delta p.g q.g + 2) * 4 + (delta p.b q.b + 2))] := by
  obtain ⟨-, rlo, rhi, glo, ghi, blo, bhi⟩ := h
  simp only [diffOf, encode_diff, componentDiff_eq_delta]
  rw [toNat_withBias, toNat_withBias, toNat_withBias] <;> omega

/-- `enc_LUMA` (42_chunk_encoder.md R148): where the differences fit, the fields are green plus 32 and red and blue
against green plus 8. -/
theorem encode_lumaOf {p q : Pixel} (h : LumaFits p q) :
    encode (lumaOf p q) =
      [BitVec.ofInt 8 (0x80 + (delta p.g q.g + 32)),
        BitVec.ofInt 8 ((delta p.r q.r - delta p.g q.g + 8) * 16 + (delta p.b q.b - delta p.g q.g + 8))] := by
  obtain ⟨-, glo, ghi, rlo, rhi, blo, bhi⟩ := h
  simp only [lumaOf, encode_luma, componentDiff_eq_delta]
  rw [toNat_withBias, toNat_withBias, toNat_withBias] <;> omega

/-- What `flush_run()` emits is the pending run (41_pixel_history.md R126). -/
theorem flushBytes_eq_pendingRun (run : BitVec 6) : flushBytes run = pendingRun run := by
  revert run
  decide

/-- A flush is one byte when a run is open (41_pixel_history.md R126). -/
theorem length_pendingRun (run : BitVec 6) : (pendingRun run).length = if run = 0 then 0 else 1 := by
  rw [← flushBytes_eq_pendingRun, flushBytes]
  split_ifs <;> rfl

/-! Which chunk is selected (42_chunk_encoder.md R142, R152). -/

/-- The encoder's test is the condition of 42_chunk_encoder.md R147. -/
theorem fitsDiff_eq_true {p q : Pixel} : fitsDiff p q = true ↔ DiffFits p q := by
  simp only [fitsDiff, DiffFits, Bool.and_eq_true, decide_eq_true_eq, within_eq_true, and_assoc, componentDiff, delta]

theorem lookup_eq_true {p : Pixel} {s : State} : lookup p s = true ↔ readSlot s (hashIndex p) = p := by simp [lookup]

/-- The options in their order, each with the rule's own condition. -/
theorem selectChunk_eq (p : Pixel) (s : State) [Decidable (DiffFits p s.prev)] [Decidable (LumaFits p s.prev)] :
    selectChunk p s =
      if p = s.prev then .run (if s.run < 62 then s.run else 0)
      else if readSlot s (hashIndex p) = p then .index (hashIndex p)
      else if DiffFits p s.prev then diffOf p s.prev
      else if LumaFits p s.prev then lumaOf p s.prev
      else if p.a = s.prev.a then .rgb p.r p.g p.b
      else .rgba p.r p.g p.b p.a := by
  simp only [selectChunk, lookup_eq_true, fitsDiff_eq_true, fitsLuma_eq_true]

/-- Only a pixel equal to `prev` is a run (42_chunk_encoder.md R143). -/
theorem selectChunk_ne_run {p : Pixel} {s : State} (h : p ≠ s.prev) (l : BitVec 6) : selectChunk p s ≠ .run l := by
  unfold selectChunk
  rw [if_neg h]
  split_ifs <;> simp [diffOf, lumaOf]

/-- With the alpha of `prev`, `RGBA` is never selected (42_chunk_encoder.md R150). -/
theorem selectChunk_ne_rgba {p : Pixel} {s : State} (h : p.a = s.prev.a) (r g b a : Byte) :
    selectChunk p s ≠ .rgba r g b a := by
  unfold selectChunk
  rw [if_pos h]
  split_ifs <;> simp [diffOf, lumaOf]

/-! The pixel step of a pixel other than `prev` (42_chunk_encoder.md R142, R144, R151). -/

/-- Bytes written from `a` up are stored there, and every other byte is as before (20_memory.md R53). -/
theorem stored_writeBytes (m : Mem) (a : Nat) (bs : List Byte) : Stored m (m.writeBytes a bs) a bs :=
  Mem.read_writeBytes m a bs

/-- Where the pixel step is enabled, `fetch_pixel()` gives the pixel at `pc` (42_chunk_encoder.md R141). -/
theorem EncReady.fetchPixel_eq {s : State} {p : Pixel} (h : EncReady s p) : fetchPixel s = .ok p := by
  obtain ⟨-, -, -, hle, hfits, hpix⟩ := h
  rw [fetchPixel_eq_ok]
  rcases hpix with ⟨hc, hr⟩ | ⟨hc, hr, ha⟩ <;> rw [hc] at hle hfits ⊢
  · exact ⟨_, memRead_eq_ok.2 ⟨hle, hfits, hr⟩, rfl⟩
  · exact ⟨_, memRead_eq_ok.2 ⟨hle, hfits, hr⟩, by rw [pixelOfBytes, if_pos rfl, ← ha]⟩

/-- Where the pixel step is enabled, its instruction is the chunk selected for the pixel (42_chunk_encoder.md R142). -/
theorem EncReady.currentInstr_eq {s : State} {p : Pixel} (h : EncReady s p) :
    currentInstr s = .ok (selectChunk p s) := by
  obtain ⟨hm, hp, hx, -⟩ := id h
  obtain ⟨-, -, -, henc, -⟩ := Machine.currentInstr_eq s
  rw [henc hp hx hm]
  exact fetchSelected_eq_ok.2 ⟨p, h.fetchPixel_eq, rfl⟩

/-- In phase BODY a completed step is the next state. -/
theorem conclude_ok_of_body {s t : State} (h : s.ph = .body) : conclude s (.ok t) = .next t := by
  rw [conclude, noteReads_of_ne_hdr (by simp [h])]

/-- In an encode with pixels left, a chunk other than a run means its encoder side. -/
theorem exec_chunk_enc {i : Instr} {s : State} (hi : i.place = .chunk) (hl : ∀ l, i ≠ .run l) (hm : s.mode = .enc)
    (hp : s.ph = .body) (hx : s.px < s.npx) : exec i s = conclude s (encodeChunk i s) := by
  rcases exec_chunk hi s with ⟨_, -, -, he⟩ | ⟨l, rfl, -⟩
  · rw [he, bodyStep, if_pos (bodyEnabled_eq_true.2 ⟨hp, hx⟩), hm]
  · exact absurd rfl (hl l)

/-- What a completed pixel step of the selected chunk leaves. -/
theorem EncReady.emitted_of_encodeChunk {s t : State} {p : Pixel} (h : EncReady s p)
    (ht : encodeChunk (selectChunk p s) s = .ok t) : Emitted s p (encode (selectChunk p s)) t := by
  obtain ⟨q, hq, -, rfl⟩ := encodeChunk_eq_ok ht
  obtain rfl := Except.ok.inj (h.fetchPixel_eq.symm.trans hq)
  rw [flushBytes_eq_pendingRun]
  exact ⟨rfl, learned_commit p s, stored_writeBytes _ _ _⟩

/-- The pixel step of a pixel other than `prev`: it is the selected chunk, it completes where the pending run and the
chunk fit, and it emits just these. -/
theorem EncReady.emits {s : State} {p : Pixel} {i : Instr} {bytes : List Byte} (h : EncReady s p) (hne : p ≠ s.prev)
    (hi : selectChunk p s = i) (hb : encode i = bytes) (hroom : Room s ((pendingRun s.run).length + bytes.length)) :
    currentInstr s = .ok i ∧ ∃ t, exec i s = .next t ∧ Emitted s p bytes t := by
  subst hi hb
  obtain ⟨hm, hp, hx, -⟩ := id h
  obtain ⟨t, ht⟩ := encodeChunk_completes h.fetchPixel_eq rfl
    (by rwa [flushBytes_eq_pendingRun, List.length_append] : fits s.cfg _ = true)
  refine ⟨h.currentInstr_eq, t, ?_, h.emitted_of_encodeChunk ht⟩
  rw [exec_chunk_enc (selectChunk_place p s) (selectChunk_ne_run hne) hm hp hx, ht, conclude_ok_of_body hp]

/-- Settles O19: the slot holds the pixel, so the chunk is INDEX. -/
theorem encodeIndex : Obligations.EncodeIndex := by
  classical
  intro s p h hne hslot hroom
  refine h.emits hne ?_ (encode_index _) hroom
  rw [selectChunk_eq, if_neg hne, if_pos hslot]

/-- Settles O20: the first option that applies is DIFF. -/
theorem encodeDiff : Obligations.EncodeDiff := by
  classical
  intro s p h hne hslot hdiff hroom
  refine h.emits hne ?_ (encode_diffOf hdiff) hroom
  rw [selectChunk_eq, if_neg hne, if_neg hslot, if_pos hdiff]

/-- Settles O21: the first option that applies is LUMA. -/
theorem encodeLuma : Obligations.EncodeLuma := by
  classical
  intro s p h hne hslot hdiff hluma hroom
  refine h.emits hne ?_ (encode_lumaOf hluma) hroom
  rw [selectChunk_eq, if_neg hne, if_neg hslot, if_neg hdiff, if_pos hluma]

/-- Settles O22: no shorter option applies and alpha is kept, so the chunk is RGB. -/
theorem encodeRgb : Obligations.EncodeRgb := by
  classical
  intro s p h hne hslot hdiff hluma ha hroom
  refine h.emits hne ?_ rfl hroom
  rw [selectChunk_eq, if_neg hne, if_neg hslot, if_neg hdiff, if_neg hluma, if_pos ha]

/-- A pixel fetched in a three-channel encode has alpha 255, as `prev` has (42_chunk_encoder.md R141, R150). -/
theorem EncReady.alpha_eq_of_three_channels {s : State} {p : Pixel} (h : EncReady s p) (hs : Inv s)
    (hc : s.channels = 3) : p.a = s.prev.a := by
  obtain ⟨hm, hp, -, -, -, hpix⟩ := h
  obtain ⟨-, -, -, -, hprev⟩ := hs.encBody hp hm
  rcases hpix with ⟨h4, -⟩ | ⟨-, -, ha⟩
  · rw [hc] at h4
    cases h4
  · rw [ha, hprev hc]

/-- Settles O23: another alpha rules out every option before RGBA but INDEX; with three channels alpha never differs. -/
theorem encodeRgba : Obligations.EncodeRgba := by
  classical
  refine ⟨fun s p h hslot ha hroom => ?_,
    fun p s hs hc h => selectChunk_ne_rgba (h.alpha_eq_of_three_channels hs hc)⟩
  have hne : p ≠ s.prev := fun hp => ha (congrArg Pixel.a hp)
  refine h.emits hne ?_ rfl hroom
  rw [selectChunk_eq, if_neg hne, if_neg hslot, if_neg (fun hd => ha hd.1), if_neg (fun hl => ha hl.1), if_neg ha]

/-! The header step (42_chunk_encoder.md R140). -/

/-- With its registers written, the header step carries no mark. -/
theorem noteReads_of_operandsWritten {s : State} (h : operandsWritten s = true) (t : State) : noteReads s t = t := by
  simp [noteReads, readsUnwritten, h]

/-- The header step of an encode, as the instruction of its registers. -/
theorem exec_header_enc {s : State} (hp : HdrReady s) (hm : s.mode = .enc) :
    exec (.header s.width s.height s.channels s.colorspace) s =
      conclude s (encodeHeaderStep s.width s.height s.channels s.colorspace s) := by
  simp only [exec, execHeader, if_pos (headerEnabled_eq_true.2 hp), hm]

/-- A field `check_fields` does not pass stops the header step, before the length is looked at. -/
theorem encodeHeaderStep_of_checkFields_error {s : State} {x : Stop}
    (hc : checkFields s.cfg s.channels s.colorspace = .error x) :
    encodeHeaderStep s.width s.height s.channels s.colorspace s = .error x := by
  simp only [encodeHeaderStep, and_self, if_true, hc]

/-- With fields that pass, another length stops the header step. -/
theorem encodeHeaderStep_of_length_ne {s : State} (hc : checkFields s.cfg s.channels s.colorspace = .ok ())
    (hl : s.inLen ≠ pixelTotal s.width s.height * s.channels.toNat) :
    encodeHeaderStep s.width s.height s.channels s.colorspace s = .error (.raise .pixelCountMismatch) := by
  simp only [encodeHeaderStep, and_self, if_true, hc, if_pos hl]

/-- What the header step of an encode leaves where nothing stops it. -/
def withHeader (s : State) : State :=
  { s with
    npx := pixelTotal s.width s.height
    outBuf := s.outBuf.writeBytes s.wp (encode (.header s.width s.height s.channels s.colorspace))
    wp := s.wp + 14
    ph := .body }

/-- With fields that pass and the length they ask for, the header step writes the fourteen bytes where they fit. -/
theorem encodeHeaderStep_completes {s : State} (hc : checkFields s.cfg s.channels s.colorspace = .ok ())
    (hl : s.inLen = pixelTotal s.width s.height * s.channels.toNat) (hroom : Room s 14) :
    encodeHeaderStep s.width s.height s.channels s.colorspace s = .ok (withHeader s) := by
  have he := emit_completes (v := encode (.header s.width s.height s.channels s.colorspace))
    (s := { s with npx := pixelTotal s.width s.height }) hroom
  simp only [encodeHeaderStep, and_self, if_true, hc, if_neg (not_not.2 hl), he]
  rfl

/-- Under `STRICT`, `check_fields` stops at another channel count (40_header_and_marker.md R102). -/
theorem checkFields_of_bad_channels {p : Params} {c cs : Byte} (hc : c ≠ 3 ∧ c ≠ 4) (hs : p.strict = true) :
    checkFields p c cs = .error (.raise .unsupportedChannelCount) := by
  rw [checkFields, if_pos hc, if_pos hs]

/-- Under `STRICT`, `check_fields` stops at another colour space (40_header_and_marker.md R102). -/
theorem checkFields_of_bad_colorspace {p : Params} {c cs : Byte} (hc : ¬ (c ≠ 3 ∧ c ≠ 4))
    (h : p.strict = true ∧ cs ≠ 0 ∧ cs ≠ 1) : checkFields p c cs = .error (.raise .unsupportedColorspace) := by
  rw [checkFields, if_neg hc, if_pos h.2, if_pos h.1]

theorem checkFields_of_good_fields {p : Params} {c cs : Byte} (hc : ¬ (c ≠ 3 ∧ c ≠ 4))
    (h : ¬ (p.strict = true ∧ cs ≠ 0 ∧ cs ≠ 1)) : checkFields p c cs = .ok () :=
  checkFields_eq_ok.2 ⟨by tauto, by tauto⟩

/-- The header step of an encode where nothing stops it. -/
theorem exec_header_enc_completes {s : State} (hp : HdrReady s) (hm : s.mode = .enc) (hw : operandsWritten s = true)
    (hc : checkFields s.cfg s.channels s.colorspace = .ok ())
    (hl : s.inLen = pixelTotal s.width s.height * s.channels.toNat) (hroom : Room s 14) :
    exec (.header s.width s.height s.channels s.colorspace) s = .next (withHeader s) := by
  rw [exec_header_enc hp hm, encodeHeaderStep_completes hc hl hroom, conclude, noteReads_of_operandsWritten hw]

/-- The header step of an encode where it raises an error. -/
theorem exec_header_enc_of_raise {s : State} {e : Err} (hp : HdrReady s) (hm : s.mode = .enc)
    (hw : operandsWritten s = true)
    (h : encodeHeaderStep s.width s.height s.channels s.colorspace s = .error (.raise e)) :
    exec (.header s.width s.height s.channels s.colorspace) s = .next (takeError e s) := by
  rw [exec_header_enc hp hm, h, conclude, noteReads_of_operandsWritten hw]

/-- In phase HDR of an encode the instruction is the header of the registers. -/
theorem currentInstr_header_enc {s : State} (hp : HdrReady s) (hm : s.mode = .enc) :
    currentInstr s = .ok (.header s.width s.height s.channels s.colorspace) := by
  obtain ⟨-, hheader, -⟩ := currentInstr_eq s
  exact hheader hp hm

/-- Settles O33: the checks one after another, each ending the step where it fails. -/
theorem encodeHeader : Obligations.EncodeHeader := by
  intro s hp hm hw
  refine ⟨currentInstr_header_enc hp hm, ?_⟩
  split_ifs with hch hstrict hcs hl
  · exact exec_header_enc_of_raise hp hm hw
      (encodeHeaderStep_of_checkFields_error (checkFields_of_bad_channels hch hstrict))
  · have href : checkFields s.cfg s.channels s.colorspace = .error .refuse :=
      checkFields_eq_refuse.2 ⟨eq_false_of_ne_true hstrict, hch⟩
    rw [exec_header_enc hp hm, encodeHeaderStep_of_checkFields_error href, conclude]
  · exact exec_header_enc_of_raise hp hm hw
      (encodeHeaderStep_of_checkFields_error (checkFields_of_bad_colorspace hch hcs))
  · exact exec_header_enc_of_raise hp hm hw
      (encodeHeaderStep_of_length_ne (checkFields_of_good_fields hch hcs) hl)
  · intro hroom
    have hex := exec_header_enc_completes hp hm hw (checkFields_of_good_fields hch hcs) (not_not.1 hl) hroom
    exact ⟨_, hex, rfl, stored_writeBytes _ _ _⟩

/-! The tail step (42_chunk_encoder.md R156). -/

/-- With all pixels consumed the instruction of an encode is END. -/
theorem currentInstr_end_enc {s : State} (h : TailReady s .enc) : currentInstr s = .ok .endMarker := by
  obtain ⟨hm, hp, hx⟩ := h
  obtain ⟨-, -, -, -, -, hend, -⟩ := currentInstr_eq s
  exact hend hp hx hm

/-- What the tail step of an encode leaves where the pending run and the marker fit. -/
def withTail (s : State) : State :=
  { s with
    outBuf := s.outBuf.writeBytes s.wp (pendingRun s.run ++ endMarkerBytes)
    wp := s.wp + (pendingRun s.run).length + 8
    run := 0
    outLen := s.wp + (pendingRun s.run).length + 8
    ph := .done }

theorem encodeTail_eq_withTail {s : State} (hroom : Room s ((pendingRun s.run).length + 8)) :
    encodeTail s = .ok (withTail s) := by
  obtain ⟨t, ht⟩ := encodeTail_completes
    (by rwa [flushBytes_eq_pendingRun, List.length_append] : fits s.cfg _ = true)
  rw [ht, encodeTail_eq_ok ht, flushBytes_eq_pendingRun, List.length_append, ← Nat.add_assoc]
  rfl

/-- The tail step of an encode completes where the pending run and the marker fit. -/
theorem exec_end_enc {s : State} (h : TailReady s .enc) (hroom : Room s ((pendingRun s.run).length + 8)) :
    exec .endMarker s = .next (withTail s) := by
  obtain ⟨hm, hp, hx⟩ := h
  simp only [exec, execEnd, if_pos (tailEnabled_eq_true.2 ⟨hp, hx⟩), hm, encodeTail_eq_withTail hroom]
  exact conclude_ok_of_body hp

/-- Settles O34: the pending run and the marker are one string at `wp`. -/
theorem encodeEnd : Obligations.EncodeEnd :=
  fun _ h hroom => ⟨currentInstr_end_enc h, _, exec_end_enc h hroom, rfl, stored_writeBytes _ _ _, rfl⟩

/-! An image of no pixels (42_chunk_encoder.md R158). -/

/-- With no move of the host listed, a step runs the enabled step's instruction. -/
theorem step_of_currentInstr {s : State} {i : Instr} (hh : s.host = []) (hb : busy s = true) (hn : s.halted = false)
    (hi : currentInstr s = .ok i) : step s = exec i s := by
  simp only [step, turn, hh, engineStep, hb, hn, hi]
  rfl

/-- Two steps that both complete. -/
theorem run_two {s t u : State} (h : step s = .next t) (h' : step t = .next u) :
    Host.Core.run Sys2Proof.core 2 s = .next u := by
  have hc : core.step s = .next t := h
  have hc' : core.step t = .next u := h'
  simp only [Host.Core.run, hc, hc']

/-- Where the header leaves no pixel to run, the tail step follows, and `OUT` is the header and the marker. -/
theorem outBuf_withTail_withHeader {s : State} (hwp : s.wp = 0) (hrun : s.run = 0) :
    (withTail (withHeader s)).outBuf.readBytes 0 22 =
      some (encode (.header s.width s.height s.channels s.colorspace) ++ endMarkerBytes) := by
  have hheader : (encode (.header s.width s.height s.channels s.colorspace)).length = 14 := rfl
  have hlen : (encode (.header s.width s.height s.channels s.colorspace) ++ endMarkerBytes).length = 22 := rfl
  have hpending : pendingRun 0 = [] := rfl
  have hself := Mem.readBytes_writeBytes_self s.outBuf 0
    (encode (.header s.width s.height s.channels s.colorspace) ++ endMarkerBytes)
  rw [hlen, Mem.writeBytes_append, hheader] at hself
  simpa only [withTail, withHeader, hwp, hrun, hpending, List.nil_append] using hself

/-- Settles O36: the header step leaves no pixel to run, so the tail step follows it and writes the marker at 14. -/
theorem zeroPixelImage : Obligations.ZeroPixelImage := by
  intro s hp hm hh hn hw hwp hpx hrun hch hcs hfits hzero
  have hok : checkFields s.cfg s.channels s.colorspace = .ok () := checkFields_eq_ok.2 ⟨hch, hcs⟩
  have hnpx : pixelTotal s.width s.height = 0 := by
    rcases hzero with h0 | h0 <;> simp [pixelTotal, h0]
  have hstep := step_of_currentInstr hh (busy_eq_true.2 (.inl hp)) hn (currentInstr_header_enc hp hm)
  split_ifs with hl
  · have hroom : Room s 14 := fits_of_le hfits (by omega)
    rw [exec_header_enc_completes hp hm hw hok (by rw [hl, hnpx, Nat.zero_mul]) hroom] at hstep
    have htail : TailReady (withHeader s) .enc := ⟨hm, rfl, hpx.trans hnpx.symm⟩
    have hlen : (withHeader s).wp + (pendingRun (withHeader s).run).length + 8 = 22 := by
      simp [withHeader, hwp, hrun, length_pendingRun]
    have hend := exec_end_enc htail (by rwa [Room, ← Nat.add_assoc, hlen])
    rw [← step_of_currentInstr (s := withHeader s) hh rfl hn (currentInstr_end_enc htail)] at hend
    exact ⟨_, run_two hstep hend, rfl, hlen, outBuf_withTail_withHeader hwp hrun⟩
  · have hne : s.inLen ≠ pixelTotal s.width s.height * s.channels.toNat := by rwa [hnpx, Nat.zero_mul]
    rw [hstep, exec_header_enc_of_raise hp hm hw (encodeHeaderStep_of_length_ne hok hne)]

/-! Bytes per step (42_chunk_encoder.md R154). -/

/-- The bytes a completed step of an encode emits, by its instruction: a run step only its saturation's, the header
step no pending run, every other step the pending run and its own bytes. -/
def stepBytes (s : State) : Instr → Nat
  | .run _ => if s.run.toNat < 62 then 0 else 1
  | .header _ _ _ _ => 14
  | i => (pendingRun s.run).length + (encode i).length

theorem stepBytes_of_chunk {i : Instr} (hi : i.place = .chunk) (hl : ∀ l, i ≠ .run l) (s : State) :
    stepBytes s i = (pendingRun s.run).length + (encode i).length := by
  cases i with
  | run l => exact absurd rfl (hl l)
  | header w h c cs => cases hi
  | _ => rfl

/-- A completed step of an encode advances `wp` by the bytes it emits. -/
theorem Completed.wp_enc {i : Instr} {s t : State} (h : Completed i s t) (henc : s.mode = .enc) :
    t.wp = s.wp + stepBytes s i := by
  cases h with
  | decodePixel _ _ _ _ hm => rw [henc] at hm; cases hm
  | decodeRun _ _ hm => rw [henc] at hm; cases hm
  | decodeHeader _ hm => rw [henc] at hm; cases hm
  | decodeEnd _ _ hm => rw [henc] at hm; cases hm
  | encodePixel hi hl _ _ _ h =>
    obtain ⟨p, -, -, rfl⟩ := encodeChunk_eq_ok h
    rw [stepBytes_of_chunk hi hl, ← flushBytes_eq_pendingRun, ← List.length_append]
  | encodeRun _ _ _ h =>
    obtain ⟨p, -, -, ⟨hlt, rfl⟩ | ⟨hge, rfl⟩⟩ := encodeRun_eq_ok h
    · rw [stepBytes, if_pos (show s.run.toNat < 62 from hlt)]
      rfl
    · rw [stepBytes, if_neg (show ¬ s.run.toNat < 62 from hge)]
      rfl
  | encodeHeader _ _ h => obtain ⟨-, -, -, rfl⟩ := encodeHeaderStep_eq_ok h; rfl
  | encodeEnd _ _ _ h =>
    rw [encodeTail_eq_ok h, flushBytes_eq_pendingRun, List.length_append]
    rfl

/-- A step of an encode that ends neither in an error nor in the mark alone has completed. -/
theorem exec_wp_enc {i : Instr} {s t : State} (henc : s.mode = .enc) (h : exec i s = .next t) (herr : t.ph ≠ .error)
    (hmark : t ≠ markRefused s) (hi : i.place ≠ .command) : t.wp = s.wp + stepBytes s i := by
  rcases exec_next h with ⟨hc, -⟩ | ⟨-, ⟨u, hu, rfl⟩ | ⟨e, -, rfl⟩ | ht⟩
  · exact absurd hc hi
  · exact hu.wp_enc henc
  · exact absurd rfl herr
  · exact absurd ht hmark

theorem length_pendingRun_le_one (run : BitVec 6) : (pendingRun run).length ≤ 1 := by
  rw [length_pendingRun]
  split_ifs <;> omega

/-- A pixel step emits at most a pending run and the five bytes of RGBA. -/
theorem stepBytes_le_six {i : Instr} (hi : i.place = .chunk) (s : State) : stepBytes s i ≤ 6 := by
  have hflush := length_pendingRun_le_one s.run
  cases i with
  | run l =>
    rw [stepBytes]
    split_ifs <;> omega
  | rgb | rgba | index | diff | luma => simp only [stepBytes, encode, List.length_cons, List.length_nil]; omega
  | _ => cases hi

/-- Settles O29: each count is `stepBytes` of the instruction, the pending run being one byte when a run is open. -/
theorem bytesPerEncodeStep : Obligations.BytesPerEncodeStep := by
  intro i s t henc h herr hmark
  have hwp := exec_wp_enc henc h herr hmark
  have hchunk (hi : i.place = .chunk) (hl : ∀ l, i ≠ .run l) :
      t.wp = s.wp + ((if s.run = 0 then 0 else 1) + (encode i).length) := by
    rw [hwp (by simp [hi]), stepBytes_of_chunk hi hl, length_pendingRun]
  refine ⟨?run, ?index, ?diff, ?chunk, ?rgba, ?header, ?marker⟩
  case run =>
    rintro len1 rfl
    rw [hwp (by simp [Instr.place]), stepBytes]
    split_ifs <;> rfl
  case index =>
    rintro idx rfl hrun
    rw [hchunk rfl (by simp), if_pos hrun]
    rfl
  case diff =>
    rintro r g b rfl hrun
    rw [hchunk rfl (by simp), if_pos hrun]
    rfl
  case chunk =>
    intro hi
    have hle := stepBytes_le_six hi s
    have := hwp (by simp [hi])
    omega
  case rgba =>
    rintro r g b a rfl hrun
    rw [hchunk rfl (by simp), if_neg hrun]
    rfl
  case header =>
    intro hi
    cases i <;> cases hi
    exact hwp (by simp [Instr.place])
  case marker =>
    intro hi
    cases i <;> cases hi
    have hflush := length_pendingRun_le_one s.run
    have := hwp (by simp [Instr.place])
    simp only [stepBytes, encode, endMarkerBytes, List.length_cons, List.length_nil] at this
    omega

end Sys2Proof.Machine
end

/-! The statements of 43_chunk_decoder.md: the pixels a chunk gives, the bytes it is read from, and the tail step. -/

section
namespace Sys2Proof.Machine

open Sys2Proof

/-! The bytes of a chunk (30_encoding.md R74 to R77), and the chunk they decode to. -/

theorem encode_diff_ofNat (dr2 dg2 db2 : BitVec 2) :
    encode (.diff dr2 dg2 db2) = [BitVec.ofNat 8 (0x40 + dr2.toNat * 16 + dg2.toNat * 4 + db2.toNat)] := by
  rw [encode_diff]
  norm_cast

theorem encode_luma_ofNat (dg32 : BitVec 6) (drdg8 dbdg8 : BitVec 4) :
    encode (.luma dg32 drdg8 dbdg8) =
      [BitVec.ofNat 8 (0x80 + dg32.toNat), BitVec.ofNat 8 (drdg8.toNat * 16 + dbdg8.toNat)] := by
  rw [encode_luma]
  norm_cast

theorem encode_run (len1 : BitVec 6) : encode (.run len1) = [BitVec.ofNat 8 (0xC0 + len1.toNat)] := by
  refine congrArg ([·]) (BitVec.eq_of_toNat_eq ?_)
  rw [toNat_append_fields, BitVec.toNat_ofNat, BitVec.toNat_ofNat]
  omega

theorem tagKind_index (idx : BitVec 6) : tagKind (0b00#2 ++ idx) = .index := by
  revert idx
  decide

theorem tagKind_diff (dr2 dg2 db2 : BitVec 2) : tagKind (0b01#2 ++ dr2 ++ dg2 ++ db2) = .diff := by
  revert dr2 dg2 db2
  decide

/-- The three fields of DIFF stand side by side in its tag. -/
theorem fields_of_diff (dr2 dg2 db2 : BitVec 2) :
    (0b01#2 ++ dr2 ++ dg2 ++ db2).extractLsb' 4 2 = dr2 ∧ (0b01#2 ++ dr2 ++ dg2 ++ db2).extractLsb' 2 2 = dg2 ∧
      (0b01#2 ++ dr2 ++ dg2 ++ db2).extractLsb' 0 2 = db2 := by
  revert dr2 dg2 db2
  decide

theorem tagKind_luma (dg32 : BitVec 6) : tagKind (0b10#2 ++ dg32) = .luma := by
  revert dg32
  decide

/-- The run fields 62 and 63 would be the tags of RGB and RGBA (30_encoding.md R77, R80). -/
theorem tagKind_run {len1 : BitVec 6} (h : len1.toNat ≤ 61) : tagKind (0b11#2 ++ len1) = .run := by
  revert len1
  decide

/-- The bytes of a well-formed chunk decode to it. -/
theorem decodeChunk_encode {i : Instr} (hi : i.place = .chunk) (hw : i.wf = true) :
    decodeChunk (encode i) = .ok (i, []) := by
  cases i with
  | rgb r g b => exact decodeChunk_rgb rfl r g b
  | rgba r g b a => exact decodeChunk_rgba rfl r g b a
  | index idx => rw [encode, decodeChunk_index (tagKind_index idx), BitVec.extractLsb'_append_eq_right]
  | diff dr2 dg2 db2 =>
    obtain ⟨hr, hg, hb⟩ := fields_of_diff dr2 dg2 db2
    rw [encode, decodeChunk_diff (tagKind_diff dr2 dg2 db2), hr, hg, hb]
  | luma dg32 drdg8 dbdg8 =>
    rw [encode, decodeChunk_luma (tagKind_luma dg32), BitVec.extractLsb'_append_eq_right,
      BitVec.extractLsb'_append_eq_left, BitVec.extractLsb'_append_eq_right]
  | run len1 =>
    rw [encode, decodeChunk_run (tagKind_run (of_decide_eq_true hw)), BitVec.extractLsb'_append_eq_right]
  | _ => cases hi

/-! The engine's turn in phase BODY (10_state.md R31). -/

theorem EngineTurn.step_eq {s u : State} (h : EngineTurn s u) : step s = engineStep u := by
  rcases h with ⟨hh, rfl⟩ | ⟨rest, hh, rfl⟩
  · simp only [step, turn, hh]
  · exact step_of_host hh

/-- In a transaction under way the step runs the instruction of the enabled step. -/
theorem EngineRuns.step_eq_exec {s u : State} {i : Instr} (h : EngineRuns s u) (hb : busy u = true)
    (hi : currentInstr u = .ok i) : step s = exec i u := by
  obtain ⟨hturn, hn⟩ := h
  simp [hturn.step_eq, engineStep, hb, hn, hi]

/-- In phase BODY a raised error is taken from the state before the step (60_exceptions.md R232). -/
theorem conclude_raise_of_body {s : State} (h : s.ph = .body) (e : Err) :
    conclude s (.error (.raise e)) = .next (takeError e s) := by
  rw [conclude, noteReads_of_ne_hdr (by simp [h])]

/-- In phase BODY an error met on the way to the instruction is the step's outcome. -/
theorem EngineRuns.step_eq_raise {s u : State} {e : Err} (h : EngineRuns s u) (hp : u.ph = .body)
    (hi : currentInstr u = .error (.raise e)) : step s = .next (takeError e u) := by
  obtain ⟨hturn, hn⟩ := h
  simp [hturn.step_eq, engineStep, busy_eq_true.2 (.inr hp), hn, hi, conclude_raise_of_body hp]

/-! The chunk read at `pc` (43_chunk_decoder.md R171). -/

theorem StreamHas.memRead_eq {s : State} {bs : List Byte} (h : StreamHas s bs) :
    memRead s s.pc bs.length = .ok bs := by
  obtain ⟨hr, hl, hf⟩ := h
  exact memRead_eq_ok.2 ⟨hl, hf, hr⟩

theorem StreamHas.head {s : State} {b : Byte} {bs : List Byte} (h : StreamHas s (b :: bs)) : StreamHas s [b] := by
  obtain ⟨hr, hl, hf⟩ := h
  have hle : s.pc + [b].length ≤ s.pc + (b :: bs).length := by simp
  exact ⟨Mem.readBytes_take hr (by simp), hle.trans hl, fits_of_le hf hle⟩

/-- With the whole chunk there, the fetch decodes its bytes. -/
theorem StreamHas.fetchChunk_eq {s : State} {t : Byte} {bs : List Byte} (h : StreamHas s (t :: bs))
    (hl : (t :: bs).length = chunkLength t) : fetchChunk s = decodeUnit .chunk (t :: bs) := by
  have htag : memRead s s.pc 1 = .ok [t] := h.head.memRead_eq
  have hall := h.memRead_eq
  rw [hl] at hall
  simp only [fetchChunk, htag, hall]

/-- With only the tag there, the fetch stops at the bytes after it. -/
theorem StreamHas.fetchChunk_truncated {s : State} {t : Byte} (h : StreamHas s [t])
    (hl : s.inLen < s.pc + chunkLength t) : fetchChunk s = .error (.raise (truncationError s.ph)) := by
  have htag : memRead s s.pc 1 = .ok [t] := h.memRead_eq
  simp only [fetchChunk, htag, memRead_beyond hl]

theorem DecReady.currentInstr_eq {s : State} (h : DecReady s) : currentInstr s = fetchChunk s := by
  obtain ⟨hm, hp, hx⟩ := h
  obtain ⟨-, -, hdec, -⟩ := Machine.currentInstr_eq s
  exact hdec hp hx hm

/-- Where the bytes at `pc` are a chunk's, the step is that chunk. -/
theorem DecReady.step_eq_exec {s u : State} {i : Instr} (h : DecReady u) (hr : EngineRuns s u)
    (hi : i.place = .chunk) (hw : i.wf = true) (hb : StreamHas u (encode i)) : step s = exec i u := by
  obtain ⟨-, hp, -⟩ := id h
  have hdec := decodeChunk_encode hi hw
  refine hr.step_eq_exec (busy_eq_true.2 (.inr hp)) ?_
  cases hbytes : encode i with
  | nil => rw [hbytes] at hdec; cases hdec
  | cons t bs =>
    rw [hbytes] at hb hdec
    rw [h.currentInstr_eq, hb.fetchChunk_eq (decodeChunk_length hdec)]
    exact decodeUnit_eq_ok.2 ⟨[], hdec⟩

/-- Where `IN` ends within the chunk, the step raises TruncatedStream (60_exceptions.md R224). -/
theorem DecReady.step_truncated {s u : State} {t : Byte} (h : DecReady u) (hr : EngineRuns s u)
    (hb : StreamHas u [t]) (hl : u.inLen < u.pc + chunkLength t) : step s = .next (takeError .truncatedStream u) := by
  obtain ⟨-, hp, -⟩ := id h
  refine hr.step_eq_raise hp ?_
  rw [h.currentInstr_eq, hb.fetchChunk_truncated hl, hp]
  rfl

/-! The pixels of a chunk (43_chunk_decoder.md R172 to R179). -/

/-- In a decode with pixels left, a chunk means its decoder side. -/
theorem DecReady.bodyStep_eq {s : State} (h : DecReady s) (decoder encoder : Except Stop State) :
    bodyStep s decoder encoder = conclude s decoder := by
  obtain ⟨hm, hp, hx⟩ := h
  rw [bodyStep, if_pos (bodyEnabled_eq_true.2 ⟨hp, hx⟩), hm]

theorem pixelBytes_length_eq (c : Byte) (p : Pixel) : (pixelBytes c p).length = bytesPerPixel c :=
  pixelBytes_length c p

/-- The pixel `p` is finished where its bytes fit. -/
theorem finish_produced {p : Pixel} {n : Nat} {s : State} (hroom : Room s (bytesPerPixel s.channels)) :
    ∃ t, finish p n s = .ok t ∧ Produced s p n t := by
  rw [Room, ← pixelBytes_length_eq s.channels p] at hroom
  refine ⟨_, finish_eq_ok.2 ⟨hroom, rfl⟩, ?_⟩
  rw [pixelBytes_length_eq]
  exact ⟨rfl, learned_commit p s, stored_writeBytes _ _ _⟩

/-- A chunk that finishes the pixel `p` completes where the pixel's bytes fit, and produces `p`. -/
theorem DecReady.produces {s : State} {i : Instr} {p : Pixel} {n : Nat} {encoder : Except Stop State}
    (h : DecReady s) (hroom : Room s (bytesPerPixel s.channels))
    (hi : exec i s = bodyStep s (finish p n s) encoder) : ∃ t, exec i s = .next t ∧ Produced s p n t := by
  obtain ⟨-, hp, -⟩ := id h
  obtain ⟨t, ht, hprod⟩ := finish_produced (p := p) (n := n) hroom
  exact ⟨t, by rw [hi, h.bodyStep_eq, ht, conclude_ok_of_body hp], hprod⟩

/-- A shift of `prev` is the wrapping one. -/
theorem shifted_shiftPixel (prev : Pixel) (dr dg db : Int) : Shifted prev dr dg db (shiftPixel prev dr dg db) :=
  ⟨(wrap8_eq_iff.1 rfl).symm, (wrap8_eq_iff.1 rfl).symm, (wrap8_eq_iff.1 rfl).symm, rfl⟩

/-- Settles O11: RGB finishes its three bytes with the alpha of `prev`. -/
theorem decodeRgb : Obligations.DecodeRgb :=
  ⟨fun _ _ _ _ h hroom => h.produces hroom rfl, fun _ _ _ _ _ hr h hb => h.step_eq_exec hr rfl rfl hb,
    fun _ _ hr h hb hl => h.step_truncated hr hb hl⟩

/-- Settles O12: RGBA finishes its four bytes. -/
theorem decodeRgba : Obligations.DecodeRgba :=
  ⟨fun _ _ _ _ _ h hroom => h.produces hroom rfl, fun _ _ _ _ _ _ hr h hb => h.step_eq_exec hr rfl rfl hb,
    fun _ _ hr h hb hl => h.step_truncated hr hb hl⟩

/-- Settles O13: INDEX finishes the slot's pixel, which the commit puts in the slot of its hash. -/
theorem decodeIndex : Obligations.DecodeIndex :=
  ⟨fun _ _ h hroom => h.produces hroom rfl,
    fun _ _ idx hr h hb => h.step_eq_exec hr rfl rfl (encode_index idx ▸ hb)⟩

/-- Settles O14: DIFF finishes `prev` shifted by the unbiased fields. -/
theorem decodeDiff : Obligations.DecodeDiff := by
  refine ⟨fun dr2 dg2 db2 s h hroom => ?_,
    fun s u dr2 dg2 db2 hr h hb => h.step_eq_exec hr rfl rfl (encode_diff_ofNat dr2 dg2 db2 ▸ hb)⟩
  exact ⟨pixelOfDiff dr2 dg2 db2 s.prev, (h.produces hroom rfl).imp fun t ht => ⟨shifted_shiftPixel _ _ _ _, ht⟩⟩

/-- Settles O15: LUMA finishes `prev` shifted by green's difference, and red's and blue's against it. -/
theorem decodeLuma : Obligations.DecodeLuma := by
  refine ⟨fun dg32 drdg8 dbdg8 s h hroom => ?_,
    fun s u dg32 drdg8 dbdg8 hr h hb => h.step_eq_exec hr rfl rfl (encode_luma_ofNat dg32 drdg8 dbdg8 ▸ hb),
    fun s u t hr h hb lo hi hl => h.step_truncated hr hb ?_⟩
  · refine ⟨pixelOfLuma dg32 drdg8 dbdg8 s.prev, (h.produces hroom rfl).imp fun t ht => ⟨?_, ht⟩⟩
    rw [Int.add_sub_assoc, Int.add_sub_assoc]
    exact shifted_shiftPixel _ _ _ _
  · rwa [chunkLength_eq, if_neg (by omega), if_pos hi]

/-! Runs (43_chunk_decoder.md R177). -/

/-- Repeats of `prev` complete where their bytes fit. -/
theorem repeatPrev_repeated {n : Nat} {s : State} (hroom : Room s (n * bytesPerPixel s.channels)) :
    ∃ t, repeatPrev n s = .ok t ∧ Repeated s n t := by
  rw [Room, ← pixelBytes_length_eq s.channels s.prev] at hroom
  obtain ⟨t, ht⟩ := repeatPrev_completes hroom
  refine ⟨t, ht, ?_⟩
  rw [repeatPrev_eq_ok ht, pixelBytes_length_eq]
  exact ⟨rfl, stored_writeBytes _ _ _⟩

theorem DecReady.exec_run_eq {s : State} (h : DecReady s) (l : BitVec 6) :
    exec (.run l) s = conclude s (decodeRun l s) := by
  rw [exec_run, h.bodyStep_eq]

/-- A run that is read as `n` repeats completes where their bytes fit. -/
theorem DecReady.exec_run_repeated {s : State} {l : BitVec 6} {n : Nat} (h : DecReady s)
    (hd : decodeRun l s = repeatPrev n s) (hroom : Room s (n * bytesPerPixel s.channels)) :
    ∃ t, exec (.run l) s = .next t ∧ Repeated s n t := by
  obtain ⟨-, hp, -⟩ := id h
  obtain ⟨t, ht, hrep⟩ := repeatPrev_repeated hroom
  exact ⟨t, by rw [h.exec_run_eq, hd, ht, conclude_ok_of_body hp], hrep⟩

/-- Settles O16: the three ways a run completes or stops are the three branches of the statement. -/
theorem decodeRunByPolicy : Obligations.DecodeRun := by
  refine ⟨fun l s h => ?_,
    fun s u l hr h hle hb => h.step_eq_exec hr rfl (decide_eq_true hle) (encode_run l ▸ hb)⟩
  obtain ⟨-, hp, hx⟩ := id h
  rcases decodeRun_cases l s with ⟨hle, hd⟩ | ⟨hgt, hfail, hd⟩ | ⟨hgt, htrunc, hd⟩ <;> rw [runLength] at *
  · rw [if_pos hle]
    exact h.exec_run_repeated hd
  · rw [if_neg (by omega), if_pos hfail, h.exec_run_eq, hd, conclude_raise_of_body hp]
  · rw [if_neg (by omega), if_neg (by simp [htrunc])]
    intro hroom
    obtain ⟨t, ht, hrep⟩ := h.exec_run_repeated hd hroom
    refine ⟨t, ht, hrep, ?_, ?_⟩ <;> rw [hrep.frame]
    exact Nat.add_sub_cancel' hx.le

/-! The tail step (43_chunk_decoder.md R182, 60_exceptions.md R229). -/

/-- With all pixels produced the instruction of a decode is what the eight bytes at `pc` are. -/
theorem TailReady.currentInstr_eq {s : State} (h : TailReady s .dec) : currentInstr s = fetchMarker s := by
  obtain ⟨hm, hp, hx⟩ := h
  obtain ⟨-, -, -, -, hend, -⟩ := Machine.currentInstr_eq s
  exact hend hp hx hm

theorem exec_end_dec {s : State} (h : TailReady s .dec) :
    exec .endMarker s = .next { s with pc := s.pc + 8, outLen := s.wp, ph := .done } := by
  obtain ⟨hm, hp, hx⟩ := h
  have hside : exec .endMarker s = conclude s (decodeTail s) := by
    simp only [exec, execEnd, if_pos (tailEnabled_eq_true.2 ⟨hp, hx⟩), hm]
  rw [hside, decodeTail, conclude_ok_of_body hp]

/-- Eight bytes are the marker or a bad one. -/
theorem decodeUnit_marker {m : List Byte} (h : m.length = 8) :
    decodeUnit .marker m = if m = endMarkerBytes then .ok .endMarker else .error (.raise .badEndMarker) := by
  match m, h with
  | [b0, b1, b2, b3, b4, b5, b6, b7], _ =>
    simp only [decodeUnit, decodeAt, decodeMarker]
    split_ifs <;> rfl

/-- Settles O35: the read of the marker fails, gives the marker, or gives eight other bytes. -/
theorem decodeEnd : Obligations.DecodeEnd := by
  refine ⟨fun s h => exec_end_dec h, fun s u hr h => ?_⟩
  obtain ⟨-, hp, -⟩ := id h
  split_ifs with hl
  · refine hr.step_eq_raise hp ?_
    rw [h.currentInstr_eq, fetchMarker, memRead_beyond hl, hp]
    rfl
  · intro m hfits hm
    have hread : memRead u u.pc 8 = .ok m := memRead_eq_ok.2 ⟨Nat.le_of_not_lt hl, hfits, hm⟩
    have hfetch : currentInstr u = decodeUnit .marker m := by
      rw [h.currentInstr_eq]
      simp only [fetchMarker, hread]
    rw [decodeUnit_marker (Mem.readBytes_length hm)] at hfetch
    split_ifs with hmark
    · rw [if_pos (show m = endMarkerBytes from hmark)] at hfetch
      rw [hr.step_eq_exec (busy_eq_true.2 (.inr hp)) hfetch, exec_end_dec h]
    · rw [if_neg (show m ≠ endMarkerBytes from hmark)] at hfetch
      exact hr.step_eq_raise hp hfetch

end Sys2Proof.Machine
end

/-! The statements of 60_exceptions.md: which step raises which error, the errors of the header and of the reads of BODY,
and the ways out of ERROR. -/

section
namespace Sys2Proof.Machine

open Sys2Proof

/-! The codes, and where a step of the engine sets one (60_exceptions.md R221). -/

/-- No two errors share a code. -/
theorem errCode_injective : Function.Injective errCode := by
  intro a b h
  cases a <;> cases b <;> simp [errCode] at h ⊢

/-- A completed step sets no `ERR` and does not end in ERROR. -/
theorem Completed.no_error {i : Instr} {s t : State} (h : Completed i s t) : t.err = s.err ∧ t.ph ≠ .error := by
  cases h with
  | decodePixel _ _ hp _ _ _ h => obtain ⟨-, rfl⟩ := finish_eq_ok.1 h; simp [hp]
  | @decodeRun l _ _ hp _ _ h =>
    rcases decodeRun_cases l s with ⟨-, he⟩ | ⟨-, -, he⟩ | ⟨-, -, he⟩ <;> rw [he] at h
    · rw [repeatPrev_eq_ok h]; simp [hp]
    · cases h
    · rw [repeatPrev_eq_ok h]; simp [hp]
  | encodePixel _ _ hp _ _ h => obtain ⟨p, -, -, rfl⟩ := encodeChunk_eq_ok h; simp [hp]
  | encodeRun hp _ _ h => obtain ⟨p, -, -, ⟨-, rfl⟩ | ⟨-, rfl⟩⟩ := encodeRun_eq_ok h <;> simp [hp]
  | decodeHeader _ _ h => obtain ⟨-, rfl⟩ := decodeHeaderStep_eq_ok.1 h; simp
  | encodeHeader _ _ h => obtain ⟨-, -, -, rfl⟩ := encodeHeaderStep_eq_ok h; simp
  | decodeEnd _ _ _ h => cases h; simp
  | encodeEnd _ _ _ h => rw [encodeTail_eq_ok h]; simp

/-- The engine's turn keeps `ERR` and does not enter ERROR, or it takes one of the step's errors. -/
theorem engineStep_keeps_err_or_raises {s t : State} (h : engineStep s = .next t) :
    (t.err = s.err ∧ (t.ph = .error → s.ph = .error)) ∨
      ∃ e, StepRaises s e ∧ t = noteReads s (takeError e s) := by
  rcases engineStep_cases h with ⟨-, rfl⟩ | ⟨-, -, ⟨i, u, -, hu, rfl⟩ | hraise | rfl⟩
  · exact .inl ⟨rfl, id⟩
  · obtain ⟨herr, hph⟩ := hu.no_error
    exact .inl ⟨herr, fun hp => absurd hp hph⟩
  · exact .inr hraise
  · exact .inl ⟨rfl, id⟩

/-- An engine's turn that changes `ERR` to the code of `e` raises `e`. -/
theorem EngineTurn.raises_of_err_ne {s u t : State} {e : Err} (h : EngineTurn s u) (hs : step s = .next t)
    (hc : t.err = errCode e) (hne : t.err ≠ u.err) : StepRaises u e := by
  rw [h.step_eq] at hs
  rcases engineStep_keeps_err_or_raises hs with ⟨herr, -⟩ | ⟨e', hraise, rfl⟩
  · exact absurd herr hne
  · rwa [← errCode_injective hc]

/-- Settles O17: of the engine's errors only a run past the total has code 4. -/
theorem onlyRunsOverflow : Obligations.OnlyRunsOverflow := by
  refine ⟨fun l s h hgt hfail => ?_, fun s u t hturn hs hc hne => ?_⟩
  · obtain ⟨hrun, -⟩ := decodeRunByPolicy
    rw [runLength] at hgt
    simpa only [if_neg (Nat.not_le.2 hgt), if_pos hfail] using hrun l s h
  · cases hturn.raises_of_err_ne (e := .pixelOverflow) hs hc hne with
    | overflow hp _ hm hfail hrun hgt => exact ⟨hm, hp, hfail, _, hrun, hgt⟩
    | encodeHeader _ _ h | decodeHeader _ _ h | decodeEnd _ _ _ h => simp at h

/-- Settles O47: the errors of the engine's turn by phase and mode, an encode's pixel never lying beyond `IN_LEN`. -/
theorem errorsByStep : Obligations.ErrorsByStep := by
  refine ⟨by decide, fun s u t hturn hinv hb hs ht => ?_⟩
  rw [hturn.step_eq] at hs
  rcases engineStep_keeps_err_or_raises hs with ⟨-, hph⟩ | ⟨e, hraise, rfl⟩
  · simp [busy, hph ht] at hb
  · cases hraise with
    | encodeHeader hp hm h => rcases h with rfl | ⟨-, rfl | rfl⟩ <;> simp [hp, hm, errCode]
    | decodeHeader hp hm h => rcases h with rfl | rfl | ⟨-, rfl | rfl⟩ <;> simp [hp, hm, errCode]
    | decodeChunk hp hx hm => simp [hp, hm, hx.ne, errCode]
    | overflow hp hx hm => simp [hp, hm, hx.ne, errCode]
    | decodeEnd hp hx hm h => rcases h with rfl | rfl <;> simp [hp, hm, hx, errCode]
    | encodePixel hp hx hm hl => exact absurd (hinv.encode_pixel_le_inLen hm hp hx) (Nat.not_le.2 hl)

/-! The reads of BODY (60_exceptions.md R224). -/

/-- With no byte left, the fetch stops at the tag. -/
theorem fetchChunk_of_no_tag {s : State} (h : s.inLen ≤ s.pc) :
    fetchChunk s = .error (.raise (truncationError s.ph)) := by
  have htag : memRead s s.pc 1 = .error (.raise (truncationError s.ph)) := memRead_beyond (Nat.lt_succ_of_le h)
  simp only [fetchChunk, htag]

/-- Settles O18: the read of the tag, of the bytes after it, or of the marker fails. -/
theorem truncatedStreamAtEveryRead : Obligations.TruncatedStreamAtEveryRead := by
  refine ⟨fun s u hr h hl => ?_, fun s u t hr h hb hl => h.step_truncated hr hb hl, fun s u hr h hl => ?_⟩
  · obtain ⟨-, hp, -⟩ := id h
    refine hr.step_eq_raise hp ?_
    rw [h.currentInstr_eq, fetchChunk_of_no_tag hl, hp]
    rfl
  · obtain ⟨-, htail⟩ := decodeEnd
    simpa only [if_pos hl] using htail s u hr h

/-! The reads of the header (60_exceptions.md R222, R223). -/

/-- Four bytes other than the magic stop the fetch of the header, whatever `IN_LEN` is. -/
theorem fetchHeader_of_bad_magic {s : State} {m : List Byte} (hr : memRead s 0 4 = .ok m) (hm : m ≠ magicBytes) :
    fetchHeader s = .error (.raise .invalidMagic) := by
  obtain ⟨hl, -⟩ := memRead_eq_ok.1 hr
  simp only [fetchHeader, checkMagic, if_neg (Nat.not_lt.2 hl), hr, if_neg hm]

/-- Where the magic is right or not there, fewer than fourteen bytes stop the fetch of the header. -/
theorem fetchHeader_of_short {s : State} (hm : checkMagic s = .ok ()) (hl : s.inLen < 14) :
    fetchHeader s = .error (.raise .truncatedHeader) := by
  simp only [fetchHeader, hm, if_pos hl]

/-- No step of an encode reads a header. -/
theorem StepRaises.ne_header_read_of_enc {s : State} {e : Err} (h : StepRaises s e) (hm : s.mode = .enc) :
    e ≠ .invalidMagic ∧ e ≠ .truncatedHeader := by
  cases h with
  | encodeHeader _ _ h => rcases h with rfl | ⟨-, rfl | rfl⟩ <;> simp
  | encodePixel => simp
  | decodeHeader _ hdec | decodeChunk _ _ hdec | overflow _ _ hdec | decodeEnd _ _ hdec => simp [hm] at hdec

/-- An error of the header's fetch is taken from the state before the step. -/
theorem EngineRuns.step_eq_raise_header {s u : State} {e : Err} (h : EngineRuns s u) (hp : HdrReady u)
    (hm : u.mode = .dec) (hw : operandsWritten u = true) (hf : fetchHeader u = .error (.raise e)) :
    step s = .next (takeError e u) := by
  obtain ⟨hturn, hn⟩ := h
  obtain ⟨hfetch, -⟩ := currentInstr_eq u
  rw [hturn.step_eq, engineStep, busy_eq_true.2 (.inl hp), hn, hfetch hp hm, hf]
  exact congrArg _ (noteReads_of_operandsWritten hw _)

/-- Settles O31: the magic is wrong, is not there, or is right with too few bytes after it; an encode raises neither
error. -/
theorem headerReadErrors : Obligations.HeaderReadErrors := by
  refine ⟨fun s u m hr hp hm hw hl hfits hb hne => ?_, fun s u hr hp hm hw hl => ?_,
    fun s u hr hp hm hw hl hl' hfits hb => ?_, fun s u t hturn hm hs hc => ?_, fun u => ⟨rfl, rfl, rfl, rfl⟩⟩
  · exact hr.step_eq_raise_header hp hm hw (fetchHeader_of_bad_magic (memRead_eq_ok.2 ⟨hl, hfits, hb⟩) hne)
  · have hmagic : checkMagic u = .ok () := if_pos hl
    exact hr.step_eq_raise_header hp hm hw (fetchHeader_of_short hmagic (by omega))
  · have hread : memRead u 0 4 = .ok magicBytes := memRead_eq_ok.2 ⟨hl, hfits, hb⟩
    have hmagic : checkMagic u = .ok () := by simp only [checkMagic, if_neg (Nat.not_lt.2 hl), hread, if_true]
    exact hr.step_eq_raise_header hp hm hw (fetchHeader_of_short hmagic hl')
  · by_contra hne
    rcases hc with hc | hc
    · have hraise := hturn.raises_of_err_ne (e := .invalidMagic) hs hc hne
      exact (hraise.ne_header_read_of_enc hm).1 rfl
    · have hraise := hturn.raises_of_err_ne (e := .truncatedHeader) hs hc hne
      exact (hraise.ne_header_read_of_enc hm).2 rfl

/-! The fields of the header (60_exceptions.md R227, R228). -/

theorem exec_header_dec {w h : BitVec 32} {c cs : Byte} {s : State} (hp : HdrReady s) (hm : s.mode = .dec) :
    exec (.header w h c cs) s = conclude s (decodeHeaderStep w h c cs s) := by
  simp only [exec, execHeader, if_pos (headerEnabled_eq_true.2 hp), hm]

/-- In both modes a field `check_fields` does not pass ends the header step. -/
theorem exec_header_of_checkFields_error {w h : BitVec 32} {c cs : Byte} {s : State} {x : Stop} (hp : HdrReady s)
    (hr : s.mode = .enc → w = s.width ∧ h = s.height ∧ c = s.channels ∧ cs = s.colorspace)
    (hc : checkFields s.cfg c cs = .error x) : exec (.header w h c cs) s = conclude s (.error x) := by
  cases hm : s.mode with
  | enc =>
    obtain ⟨rfl, rfl, rfl, rfl⟩ := hr hm
    rw [exec_header_enc hp hm, encodeHeaderStep_of_checkFields_error hc]
  | dec => rw [exec_header_dec hp hm, decodeHeaderStep, hc]

/-- With its registers written, the header step raises the error of `check_fields`. -/
theorem exec_header_of_checkFields_raise {w h : BitVec 32} {c cs : Byte} {s : State} {e : Err} (hp : HdrReady s)
    (hr : s.mode = .enc → w = s.width ∧ h = s.height ∧ c = s.channels ∧ cs = s.colorspace)
    (hw : operandsWritten s = true) (hc : checkFields s.cfg c cs = .error (.raise e)) :
    exec (.header w h c cs) s = .next (takeError e s) := by
  rw [exec_header_of_checkFields_error hp hr hc, conclude, noteReads_of_operandsWritten hw]

/-- The header step of a decode where the fields pass. -/
theorem exec_header_dec_completes {w h : BitVec 32} {c cs : Byte} {s : State} (hp : HdrReady s) (hm : s.mode = .dec)
    (hw : operandsWritten s = true) (hc : checkFields s.cfg c cs = .ok ()) :
    exec (.header w h c cs) s =
      .next { s with
        width := w, height := h, channels := c, colorspace := cs, written := s.written.withGeometry
        npx := pixelTotal w h, pc := 14, ph := .body } := by
  rw [exec_header_dec hp hm, decodeHeaderStep_eq_ok.2 ⟨hc, rfl⟩, conclude, noteReads_of_operandsWritten hw]

/-- The last byte of the header an encode writes is the colour space (30_encoding.md R71). -/
theorem withHeader_colorspace_byte (s : State) : (withHeader s).outBuf.read (s.wp + 13) = some s.colorspace := by
  have hbyte : (encode (.header s.width s.height s.channels s.colorspace))[13]? = some s.colorspace := rfl
  have hlen : (encode (.header s.width s.height s.channels s.colorspace)).length = 14 := rfl
  rw [withHeader, Mem.read_writeBytes, hlen, if_pos (by omega), Nat.add_sub_cancel_left, hbyte]

/-- The field errors are raised under `STRICT` alone. -/
theorem Raises.strict_of_field_error {i : Instr} {s : State} {e : Err} (h : Raises i s e)
    (he : e = .unsupportedChannelCount ∨ e = .unsupportedColorspace) : s.cfg.strict = true := by
  cases h with
  | fields _ hc => exact (checkFields_eq_raise hc).1
  | fetch _ hp _ _ h => obtain ⟨rfl, -⟩ := fetchPixel_eq_raise hp h; simp at he
  | overflow | mismatch => simp at he

/-- Without `STRICT` no instruction newly sets `ERR` to the code of a field error. -/
theorem exec_keeps_err_of_not_strict {i : Instr} {s t : State} (h : exec i s = .next t) (hs : s.cfg.strict = false)
    (hc : t.err = 6 ∨ t.err = 7) : t.err = s.err := by
  rcases exec_next h with ⟨-, ⟨-, rfl⟩ | ⟨m, -, rfl⟩⟩ | ⟨-, ⟨u, hu, rfl⟩ | ⟨e, hraise, rfl⟩ | rfl⟩
  · rfl
  · simp at hc
  · exact hu.no_error.1
  · have hfield : e = .unsupportedChannelCount ∨ e = .unsupportedColorspace :=
      hc.imp (errCode_injective.eq_iff' rfl).1 (errCode_injective.eq_iff' rfl).1
    simp [hraise.strict_of_field_error hfield] at hs
  · rfl

/-- Settles O32: the outcome of `check_fields` decides the header step in both modes. -/
theorem headerFieldErrors : Obligations.HeaderFieldErrors := by
  refine ⟨fun w h c cs s hp hr => ⟨fun h3 h4 hs hw => ?_, fun h3 h4 hs => ?_, fun hc h0 h1 hs hw => ?_,
    fun hc hs hw hm => ?_, fun hc hs hw hm hl hroom => ?_⟩, fun i s t h hs hc => exec_keeps_err_of_not_strict h hs hc⟩
  · exact exec_header_of_checkFields_raise hp hr hw (checkFields_of_bad_channels ⟨h3, h4⟩ hs)
  · rw [exec_header_of_checkFields_error hp hr (checkFields_eq_refuse.2 ⟨hs, h3, h4⟩), conclude]
  · exact exec_header_of_checkFields_raise hp hr hw (checkFields_of_bad_colorspace (by tauto) ⟨hs, h0, h1⟩)
  · have hok : checkFields s.cfg c cs = .ok () := checkFields_eq_ok.2 ⟨hc, by simp [hs]⟩
    exact ⟨_, exec_header_dec_completes hp hm hw hok, rfl, rfl⟩
  · have hok : checkFields s.cfg c cs = .ok () := checkFields_eq_ok.2 ⟨hc, by simp [hs]⟩
    obtain ⟨rfl, rfl, rfl, rfl⟩ := hr hm
    exact ⟨_, exec_header_enc_completes hp hm hw hok hl hroom, rfl, withHeader_colorspace_byte s⟩

/-! The ways out of ERROR (60_exceptions.md R233). -/

theorem engineStep_of_not_busy {s : State} (h : busy s = false) : engineStep s = .next s := by
  simp [engineStep, h]

/-- The `CMD` values that are commands are 1 and 2 (10_state.md R34). -/
theorem decodeCommand_eq_some {v : BitVec 2} {i : Instr} (h : decodeCommand v = some i) :
    (v = 1 ∧ i = .startEncode) ∨ (v = 2 ∧ i = .startDecode) := by
  unfold decodeCommand at h
  split_ifs at h with h1 h2
  · exact .inl ⟨h1, (Option.some.inj h).symm⟩
  · exact .inr ⟨h2, (Option.some.inj h).symm⟩

/-- While the block is not busy, a command starts a transaction. -/
theorem writeCmd_starts {v : BitVec 2} {i : Instr} {s t : State} (hb : busy s = false)
    (hv : decodeCommand v = some i) (h : exec i s = .next t) : (v = 1 ∨ v = 2) ∧ ∃ m, t = startTransaction m s := by
  obtain ⟨hv, m, hi⟩ : (v = 1 ∨ v = 2) ∧ ∃ m, exec i s = startCommand m s := by
    rcases decodeCommand_eq_some hv with ⟨rfl, rfl⟩ | ⟨rfl, rfl⟩
    · exact ⟨.inl rfl, _, exec_startEncode s⟩
    · exact ⟨.inr rfl, _, exec_startDecode s⟩
  rw [hi, startCommand_of_not_busy (by simp [hb])] at h
  exact ⟨hv, m, (Host.Outcome.next.inj h).symm⟩

/-- What a move of the host makes of ERROR. -/
theorem hostMove_from_error {op : HostOp} {s t : State} (hp : s.ph = .error) (h : hostMove op s = .next t) :
    (t.ph = .error ∧ t.err = s.err) ∨
      ((op = .writeCmd 1 ∨ op = .writeCmd 2) ∧ ∃ m, t = startTransaction m s) ∨
      (op = .reset ∧ t = hardReset s) := by
  have hb : busy s = false := busy_eq_false.2 (.inr (.inr hp))
  rcases hostMove_next h with ⟨-, he⟩ | ⟨v, i, rfl, hv, he⟩ | hreset | ⟨ht, -, -⟩
  · rw [engineStep_of_not_busy hb] at he
    cases he
    exact .inl ⟨hp, rfl⟩
  · obtain ⟨hv, hstart⟩ := writeCmd_starts hb hv he
    exact .inr (.inl ⟨by simpa using hv, hstart⟩)
  · exact .inr (.inr hreset)
  · rw [ht]
    exact .inl ⟨hp, rfl⟩

/-- Settles O48: the engine has no step in ERROR, and of the host's moves only a START and reset leave it. -/
theorem errorHasNoReturn : Obligations.ErrorHasNoReturn := by
  intro s t hp h
  rcases step_next h with ⟨-, he⟩ | ⟨op, rest, hhost, hmove⟩
  · rw [engineStep_of_not_busy (busy_eq_false.2 (.inr (.inr hp)))] at he
    cases he
    exact .inl ⟨hp, rfl⟩
  · rcases hostMove_from_error (s := { s with host := rest }) hp hmove with hstay | ⟨hop, m, rfl⟩ | ⟨rfl, rfl⟩
    · exact .inl hstay
    · exact .inr (.inl ⟨rest, by rcases hop with rfl | rfl <;> simp [hhost], rfl, rfl, rfl⟩)
    · exact .inr (.inr ⟨rest, hhost, rfl, rfl⟩)

end Sys2Proof.Machine
end

/-! The statements of 30_encoding.md about every place: the decoder and the encoder are inverse to each other, and the
bytes are the sums given for them. -/

section
namespace Sys2Proof.Machine

open Sys2Proof

/-! A chunk and its bytes determine each other (30_encoding.md R73 to R80, R85). -/

/-- The byte of INDEX is the tag bits and its field. -/
theorem index_byte_eq {t : Byte} (h : tagKind t = .index) : 0b00#2 ++ t.extractLsb' 0 6 = t := by
  revert t
  decide

theorem diff_byte_eq {t : Byte} (h : tagKind t = .diff) :
    0b01#2 ++ t.extractLsb' 4 2 ++ t.extractLsb' 2 2 ++ t.extractLsb' 0 2 = t := by
  revert t
  decide

theorem luma_byte_eq {t : Byte} (h : tagKind t = .luma) : 0b10#2 ++ t.extractLsb' 0 6 = t := by
  revert t
  decide

/-- The tags a run field of 62 or 63 would give are the 8-bit tags, tested first (30_encoding.md R73, R80). -/
theorem run_byte_eq {t : Byte} (h : tagKind t = .run) :
    (t.extractLsb' 0 6).toNat ≤ 61 ∧ 0b11#2 ++ t.extractLsb' 0 6 = t := by
  revert t
  decide

theorem rgb_byte_eq {t : Byte} (h : tagKind t = .rgb) : 0xFE = t := by
  revert t
  decide

theorem rgba_byte_eq {t : Byte} (h : tagKind t = .rgba) : 0xFF = t := by
  revert t
  decide

theorem nibbles_append (b : Byte) : b.extractLsb' 4 4 ++ b.extractLsb' 0 4 = b := by
  rw [BitVec.extractLsb'_append_extractLsb'_eq_extractLsb' (start₂ := 4) (start₁ := 0) rfl, BitVec.extractLsb'_eq_self]

/-- With exactly the operand bytes its tag asks for, a chunk is one well-formed instruction, which these bytes encode,
whatever bytes follow them. -/
theorem exists_chunk_of_operands {t : Byte} {ops : List Byte} (h : ops.length + 1 = chunkLength t) :
    ∃ i, (∀ rest, decodeChunk (t :: (ops ++ rest)) = .ok (i, rest)) ∧ i.wf = true ∧ encode i = t :: ops := by
  rw [chunkLength] at h
  cases hk : tagKind t <;> simp only [hk, kindLength, Nat.reduceEqDiff, Nat.add_eq_right, List.length_eq_zero_iff,
    List.length_eq_one_iff, List.length_eq_three, List.length_eq_four] at h
  case index =>
    subst h
    exact ⟨_, fun _ => decodeChunk_index hk, rfl, congrArg ([·]) (index_byte_eq hk)⟩
  case diff =>
    subst h
    exact ⟨_, fun _ => decodeChunk_diff hk, rfl, congrArg ([·]) (diff_byte_eq hk)⟩
  case run =>
    subst h
    obtain ⟨hle, hbyte⟩ := run_byte_eq hk
    exact ⟨_, fun _ => decodeChunk_run hk, decide_eq_true hle, congrArg ([·]) hbyte⟩
  case luma =>
    obtain ⟨b2, rfl⟩ := h
    exact ⟨_, fun _ => decodeChunk_luma hk b2, rfl, congrArg₂ ([·, ·]) (luma_byte_eq hk) (nibbles_append b2)⟩
  case rgb =>
    obtain ⟨r, g, b, rfl⟩ := h
    exact ⟨_, fun _ => decodeChunk_rgb hk r g b, rfl, congrArg (· :: [r, g, b]) (rgb_byte_eq hk)⟩
  case rgba =>
    obtain ⟨r, g, b, a, rfl⟩ := h
    exact ⟨_, fun _ => decodeChunk_rgba hk r g b a, rfl, congrArg (· :: [r, g, b, a]) (rgba_byte_eq hk)⟩

/-- A decoded chunk is well formed, the bytes taken are its encoding, and the decoder looks at no byte after them. -/
theorem decodeChunk_eq_ok {bs rest : List Byte} {i : Instr} (h : decodeChunk bs = .ok (i, rest)) :
    i.wf = true ∧ encode i ++ rest = bs ∧ ∀ more, decodeChunk (bs ++ more) = .ok (i, rest ++ more) := by
  cases bs with
  | nil => cases h
  | cons t bs =>
    have hlen := decodeChunk_length h
    rw [List.length_cons] at hlen
    have hsplit : bs = bs.take (bs.length - rest.length) ++ bs.drop (bs.length - rest.length) :=
      (List.take_append_drop _ _).symm
    obtain ⟨j, hdec, hwf, henc⟩ := exists_chunk_of_operands (t := t) (ops := bs.take (bs.length - rest.length)) (by
      have hpos : 0 < chunkLength t := by cases hk : tagKind t <;> simp [chunkLength, hk, kindLength]
      rw [List.length_take]
      omega)
    obtain ⟨rfl, hrest⟩ : j = i ∧ bs.drop (bs.length - rest.length) = rest := by
      simpa [← hsplit, h, eq_comm] using hdec (bs.drop (bs.length - rest.length))
    rw [hrest] at hsplit
    refine ⟨hwf, by rw [henc, List.cons_append, ← hsplit], fun more => ?_⟩
    rw [List.cons_append]
    conv_lhs => rw [hsplit, List.append_assoc]
    exact hdec (rest ++ more)

/-! The frames (30_encoding.md R71, R83). -/

theorem unbe32_extract (v : BitVec 32) :
    unbe32 (v.extractLsb' 24 8) (v.extractLsb' 16 8) (v.extractLsb' 8 8) (v.extractLsb' 0 8) = v := by
  rw [unbe32, BitVec.extractLsb'_append_extractLsb'_eq_extractLsb' (start₂ := 24) (start₁ := 16) rfl,
    BitVec.extractLsb'_append_extractLsb'_eq_extractLsb' (start₂ := 16) (start₁ := 8) rfl,
    BitVec.extractLsb'_append_extractLsb'_eq_extractLsb' (start₂ := 8) (start₁ := 0) rfl, BitVec.extractLsb'_eq_self]

/-- `unbe32` is the sum of its bytes at their weights (00_scope.md R8). -/
theorem toNat_unbe32 (b0 b1 b2 b3 : Byte) :
    (unbe32 b0 b1 b2 b3).toNat = b0.toNat * 2 ^ 24 + b1.toNat * 2 ^ 16 + b2.toNat * 2 ^ 8 + b3.toNat := by
  simp only [unbe32, toNat_append_fields]
  omega

/-- Byte `k` of a word, as a number. -/
theorem toNat_byteOfWord (v : BitVec 32) (k : Nat) : (v.extractLsb' k 8).toNat = v.toNat / 2 ^ k % 256 := by
  rw [BitVec.extractLsb'_toNat, Nat.shiftRight_eq_div_pow]

/-- `be32` gives back the bytes `unbe32` joined (00_scope.md R8). -/
theorem be32_unbe32 (b0 b1 b2 b3 : Byte) : be32 (unbe32 b0 b1 b2 b3) = [b0, b1, b2, b3] := by
  have h0 := b0.isLt
  have h1 := b1.isLt
  have h2 := b2.isLt
  have h3 := b3.isLt
  simp only [be32, List.cons.injEq, and_true, ← BitVec.toNat_inj, toNat_byteOfWord, toNat_unbe32]
  omega

/-- A header reads back, whatever bytes follow it (40_header_and_marker.md R100, R101). -/
theorem decodeHeader_encode (w h : BitVec 32) (c cs : Byte) (rest : List Byte) :
    decodeHeader (encode (.header w h c cs) ++ rest) = .ok (.header w h c cs, rest) := by
  simp only [encode, magicBytes, be32, List.cons_append, List.nil_append, decodeHeader, ne_eq,
    not_true_eq_false, if_false, unbe32_extract]

/-- A decoded header's encoding is the bytes taken. -/
theorem decodeHeader_eq_ok {bs rest : List Byte} {i : Instr} (h : decodeHeader bs = .ok (i, rest)) :
    i.wf = true ∧ encode i ++ rest = bs := by
  unfold decodeHeader at h
  split at h
  swap
  · cases h
  split_ifs at h with hmagic
  split at h
  swap
  · cases h
  cases h
  exact ⟨rfl, by simp [encode, be32_unbe32, ← not_not.1 hmagic]⟩

/-- A decoded marker's encoding is the bytes taken. -/
theorem decodeMarker_eq_ok {bs rest : List Byte} {i : Instr} (h : decodeMarker bs = .ok (i, rest)) :
    i = .endMarker ∧ endMarkerBytes ++ rest = bs := by
  unfold decodeMarker at h
  split at h
  swap
  · cases h
  split_ifs at h with hmarker
  cases h
  exact ⟨rfl, by simp [← hmarker]⟩

/-! Commands (10_state.md R34). -/

/-- Settles O1: a chunk reads back by its kind, the frames and the commands by their fixed bytes. -/
theorem decodeOfEncode : Obligations.DecodeOfEncode := by
  intro i rest hw
  cases hi : i.place with
  | chunk =>
    obtain ⟨-, -, hmore⟩ := decodeChunk_eq_ok (decodeChunk_encode hi hw)
    exact hmore rest
  | header =>
    cases i <;> cases hi
    exact decodeHeader_encode _ _ _ _ rest
  | marker =>
    cases i <;> cases hi
    rfl
  | command => cases i <;> cases hi <;> rfl

/-- A byte below 4 is the `CMD` value it carries. -/
theorem command_byte_eq {b : Byte} {v : BitVec 2} (hb : b.toNat < 4) (hv : b.setWidth 2 = v) :
    b = BitVec.ofNat 8 v.toNat := by
  subst hv
  apply BitVec.eq_of_toNat_eq
  rw [BitVec.toNat_ofNat, BitVec.toNat_setWidth]
  omega

/-- A decoded command's encoding is the byte taken. -/
theorem decodeCommandByte_eq_ok {bs rest : List Byte} {i : Instr} (h : decodeCommandByte bs = .ok (i, rest)) :
    i.wf = true ∧ encode i ++ rest = bs := by
  unfold decodeCommandByte at h
  split at h
  · cases h
  split_ifs at h with hb
  split at h
  · rename_i hv
    cases h
    rcases decodeCommand_eq_some hv with ⟨hval, rfl⟩ | ⟨hval, rfl⟩
    · exact ⟨rfl, congrArg (· :: rest) (command_byte_eq hb hval).symm⟩
    · exact ⟨rfl, congrArg (· :: rest) (command_byte_eq hb hval).symm⟩
  · cases h

/-- Settles O2: at each place the decoder takes just the bytes the encoder gives. -/
theorem encodeOfDecode : Obligations.EncodeOfDecode := by
  intro place bytes i rest h
  suffices hbytes : i.wf = true ∧ encode i ++ rest = bytes from ⟨hbytes.1, decodeAt_place h, hbytes.2⟩
  cases place with
  | header => exact decodeHeader_eq_ok h
  | chunk =>
    obtain ⟨hwf, henc, -⟩ := decodeChunk_eq_ok h
    exact ⟨hwf, henc⟩
  | marker =>
    obtain ⟨rfl, henc⟩ := decodeMarker_eq_ok h
    exact ⟨rfl, henc⟩
  | command => exact decodeCommandByte_eq_ok h

/-! The bytes as sums (30_encoding.md R80, R85). -/

/-- Taking the bias off a field that holds a value with it gives the value. -/
theorem unbias_withBias {w : Nat} {value bias : Int} (lo : 0 ≤ value + bias) (hi : value + bias < 2 ^ w) :
    unbias (withBias w value bias) bias = value := by
  rw [unbias, toNat_withBias lo hi]
  omega

/-- Settles O6: each byte is the sum of its fields' numbers, and each field holds its value exactly. -/
theorem bytesFromFieldValues : Obligations.BytesFromFieldValues := by
  refine ⟨fun dr dg db rlo rhi glo ghi blo bhi => ⟨?_, ?_, ?_, ?_⟩,
    fun dg drdg dbdg glo ghi rlo rhi blo bhi => ⟨?_, ?_, ?_, ?_⟩, fun len1 hle => ⟨encode_run len1, ?_, ?_⟩,
    encode_index⟩
  · rw [encode_diff, toNat_withBias, toNat_withBias, toNat_withBias] <;> omega
  · exact unbias_withBias (by omega) (by omega)
  · exact unbias_withBias (by omega) (by omega)
  · exact unbias_withBias (by omega) (by omega)
  · rw [encode_luma, toNat_withBias, toNat_withBias, toNat_withBias] <;> omega
  · exact unbias_withBias (by omega) (by omega)
  · exact unbias_withBias (by omega) (by omega)
  · exact unbias_withBias (by omega) (by omega)
  · rw [runLength]; omega
  · rw [runLength]; omega

end Sys2Proof.Machine
end

/-! The statements of 42_chunk_encoder.md and 43_chunk_decoder.md about one step: the run steps, what the encoder selects
and how it reads back, and the instruction a step runs. -/

section
namespace Sys2Proof.Machine

open Sys2Proof

/-! The run steps (42_chunk_encoder.md R143, R145). -/

/-- A pixel equal to `prev` is the run pending after the step. -/
theorem selectChunk_prev (s : State) : selectChunk s.prev s = .run (if s.run < 62 then s.run else 0) := if_pos rfl

/-- In an encode with pixels left, a run means its encoder side. -/
theorem EncReady.exec_run_eq {s : State} {p : Pixel} (h : EncReady s p) (l : BitVec 6) :
    exec (.run l) s = conclude s (encodeRun l s) := by
  obtain ⟨hm, hp, hx, -⟩ := h
  rw [exec_run, bodyStep, if_pos (bodyEnabled_eq_true.2 ⟨hp, hx⟩), hm]

/-- Settles O24: below 62 the run grows and the pixel is passed, and nothing is emitted. -/
theorem encodeRunContinues : Obligations.EncodeRunContinues := by
  intro s h hrun
  have hlt : s.run < 62 := hrun
  have hsel := selectChunk_prev s
  rw [if_pos hlt] at hsel
  obtain ⟨-, hp, -⟩ := id h
  refine ⟨by rw [h.currentInstr_eq, hsel], ?_⟩
  rw [h.exec_run_eq, encodeRun]
  simp only [h.fetchPixel_eq, if_pos hsel, if_pos hlt, conclude_ok_of_body hp]
  rfl

/-- Settles O25: at 62 the byte `FD` is emitted and the pixel opens the next run. -/
theorem encodeRunSaturates : Obligations.EncodeRunSaturates := by
  intro s h hrun hroom
  have hge : ¬ s.run < 62 := by rw [hrun]; decide
  have hsel := selectChunk_prev s
  rw [if_neg hge] at hsel
  obtain ⟨-, hp, -⟩ := id h
  have hemit := emit_completes (v := [0xFD]) hroom
  have hex : exec (.run 0) s =
      .next (advancePixel { s with outBuf := s.outBuf.writeBytes s.wp [0xFD], wp := s.wp + 1, run := 1 }) := by
    rw [h.exec_run_eq, encodeRun]
    simp only [h.fetchPixel_eq, if_pos hsel, if_neg hge, hemit, conclude_ok_of_body hp]
    rfl
  exact ⟨by rw [h.currentInstr_eq, hsel], _, hex, rfl, stored_writeBytes _ _ _⟩

/-! What the encoder selects (42_chunk_encoder.md R142, R152, R155). -/

/-- Which chunk is selected, and what is known of the pixel where it is. -/
theorem selectChunk_cases (p : Pixel) (s : State) :
    (p = s.prev ∧ selectChunk p s = .run (if s.run < 62 then s.run else 0)) ∨
    (p ≠ s.prev ∧
      ((readSlot s (hashIndex p) = p ∧ selectChunk p s = .index (hashIndex p)) ∨
       (DiffFits p s.prev ∧ selectChunk p s = diffOf p s.prev) ∨
       (LumaFits p s.prev ∧ selectChunk p s = lumaOf p s.prev) ∨
       (p.a = s.prev.a ∧ selectChunk p s = .rgb p.r p.g p.b) ∨
       (p.a ≠ s.prev.a ∧ selectChunk p s = .rgba p.r p.g p.b p.a))) := by
  classical
  rw [selectChunk_eq]
  split_ifs <;> simp_all

/-- `prev` plus the differences of the components is the pixel (41_pixel_history.md R129). -/
theorem shiftPixel_delta {p q : Pixel} (h : p.a = q.a) :
    shiftPixel q (delta p.r q.r) (delta p.g q.g) (delta p.b q.b) = p := by
  simp only [shiftPixel, delta, differenceAddsBack _ _, ← h]

/-- DIFF read back (43_chunk_decoder.md R175). -/
theorem pixelOfDiff_diffOf {p q : Pixel} (h : DiffFits p q) :
    pixelOfDiff (withBias 2 (componentDiff p.r q.r) 2) (withBias 2 (componentDiff p.g q.g) 2)
      (withBias 2 (componentDiff p.b q.b) 2) q = p := by
  obtain ⟨ha, rlo, rhi, glo, ghi, blo, bhi⟩ := h
  simp only [pixelOfDiff, componentDiff_eq_delta]
  rw [unbias_withBias (by omega) (by omega), unbias_withBias (by omega) (by omega),
    unbias_withBias (by omega) (by omega), shiftPixel_delta ha]

/-- LUMA read back (43_chunk_decoder.md R176). -/
theorem pixelOfLuma_lumaOf {p q : Pixel} (h : LumaFits p q) :
    pixelOfLuma (withBias 6 (componentDiff p.g q.g) 32) (withBias 4 (componentDiff p.r q.r - componentDiff p.g q.g) 8)
      (withBias 4 (componentDiff p.b q.b - componentDiff p.g q.g) 8) q = p := by
  obtain ⟨ha, glo, ghi, rlo, rhi, blo, bhi⟩ := h
  simp only [pixelOfLuma, componentDiff_eq_delta]
  rw [unbias_withBias (by omega) (by omega), unbias_withBias (by omega) (by omega),
    unbias_withBias (by omega) (by omega), add_sub_cancel, add_sub_cancel, shiftPixel_delta ha]

/-- The field of a run step is that of a run of 1 to 62. -/
theorem runField_le (run : BitVec 6) : (if run < 62 then run else 0).toNat ≤ 61 := by
  revert run
  decide

/-- The history a commit leaves is the one that has learned the pixel. -/
theorem historyOf_commit (p : Pixel) (s : State) : historyOf (commit p s) = (historyOf s).learn p := rfl

/-- Settles O28: each option's fields give back the pixel they were made from. -/
theorem selectedChunkReadsBack : Obligations.SelectedChunkReadsBack := by
  intro p s hne
  rw [historyOf_commit]
  rcases selectChunk_cases p s with ⟨h, -⟩ | ⟨-, ⟨hslot, h⟩ | ⟨hdiff, h⟩ | ⟨hluma, h⟩ | ⟨ha, h⟩ | ⟨-, h⟩⟩
  case inl => exact absurd h hne
  all_goals rw [h]
  · exact congrArg (historyOf s).single hslot
  · exact congrArg (historyOf s).single (pixelOfDiff_diffOf hdiff)
  · exact congrArg (historyOf s).single (pixelOfLuma_lumaOf hluma)
  · refine congrArg (historyOf s).single ?_
    show Pixel.mk p.r p.g p.b s.prev.a = p
    rw [← ha]
  · rfl

/-- A selected chunk that reads as `prev` would be for `prev`, which is a run. -/
theorem selectChunk_ne_of_reads_prev {p : Pixel} {s : State} {i : Instr} (hi : ∀ l, i ≠ .run l)
    (hread : ((historyOf s).chunk i).1 = [s.prev]) : selectChunk p s ≠ i := by
  rintro rfl
  have hne : p ≠ s.prev := by
    rintro rfl
    exact hi _ (selectChunk_prev s)
  rw [selectedChunkReadsBack p s hne] at hread
  exact hne (List.singleton_inj.1 hread)

theorem shiftPixel_zero (q : Pixel) : shiftPixel q 0 0 0 = q := by
  have hwrap (x : Byte) : wrap8 x.toNat = x := wrap8_eq_iff.2 (by have := x.isLt; omega)
  simp only [shiftPixel, add_zero, hwrap]

/-- Settles O27: a DIFF or LUMA of differences 0 reads as `prev`, so it is never selected. -/
theorem encoderNeverSelects : Obligations.EncoderNeverSelects := by
  intro p s
  refine ⟨selectChunk_ne_of_reads_prev (by simp) (congrArg ([·]) (shiftPixel_zero s.prev)),
    selectChunk_ne_of_reads_prev (by simp) (congrArg ([·]) (shiftPixel_zero s.prev)), ?_, selectChunk_ne_rgba, ?_,
    selectChunk_place p s⟩
  · rintro rfl
    exact ⟨_, selectChunk_prev s⟩
  · rcases selectChunk_cases p s with ⟨-, h⟩ | ⟨-, ⟨-, h⟩ | ⟨-, h⟩ | ⟨-, h⟩ | ⟨-, h⟩ | ⟨-, h⟩⟩ <;> rw [h]
    case inl => exact decide_eq_true (runField_le s.run)
    all_goals rfl

/-! The instruction a step runs (40_header_and_marker.md R101, 43_chunk_decoder.md R171, R182; 42_chunk_encoder.md
R140, R142, R156). -/

/-- Settles O40: the header of the registers, the selected chunk, and the marker are the instructions of the three
steps. -/
theorem stepRunsSelectedInstruction : Obligations.StepRunsSelectedInstruction := by
  intro s u hr hm
  refine ⟨fun hp => ?_, fun p h => ?_, fun hp hx => ?_⟩
  · exact hr.step_eq_exec (busy_eq_true.2 (.inl hp)) (currentInstr_header_enc hp hm)
  · obtain ⟨-, hp, -⟩ := id h
    exact hr.step_eq_exec (busy_eq_true.2 (.inr hp)) h.currentInstr_eq
  · exact hr.step_eq_exec (busy_eq_true.2 (.inr hp)) (currentInstr_end_enc ⟨hm, hp, hx⟩)

/-- In phase HDR of a decode the instruction is what the header's bytes are. -/
theorem currentInstr_header_dec {s : State} (hp : HdrReady s) (hm : s.mode = .dec) :
    currentInstr s = fetchHeader s := by
  obtain ⟨hfetch, -⟩ := currentInstr_eq s
  exact hfetch hp hm

/-- With fourteen bytes there and the magic right, the fetch decodes them. -/
theorem fetchHeader_eq_decodeUnit {s : State} {b : List Byte} (hb : s.inBuf.readBytes 0 14 = some b)
    (hl : 14 ≤ s.inLen) (hf : fits s.cfg 14 = true) (hq : b.take 4 = magicBytes) :
    fetchHeader s = decodeUnit .header b := by
  have hmagic : memRead s 0 4 = .ok magicBytes :=
    memRead_eq_ok.2 ⟨by omega, fits_of_le hf (by omega), hq ▸ Mem.readBytes_take hb (by omega)⟩
  have hall : memRead s 0 14 = .ok b := memRead_eq_ok.2 ⟨by omega, hf, hb⟩
  simp only [fetchHeader, checkMagic, if_neg (show ¬ s.inLen < 4 by omega), hmagic, if_true,
    if_neg (show ¬ s.inLen < 14 by omega), hall]

/-- Settles O39: the bytes that decode to an instruction are its encoding, which the fetch of its place reads. -/
theorem stepRunsDecodedInstruction : Obligations.StepRunsDecodedInstruction := by
  intro s u i bytes hr hm
  refine ⟨fun hp hb hl hf hd => ?_, fun hp hx hb hl hf hd => ?_, fun hp hx hb hl hf hd => ?_⟩
  · have hplace := decodeAt_place hd
    have henc : encode i ++ [] = bytes := (decodeHeader_eq_ok hd).2
    rw [List.append_nil] at henc
    have hq : bytes.take 4 = magicBytes := by
      cases i <;> cases hplace
      rw [← henc]
      rfl
    refine hr.step_eq_exec (busy_eq_true.2 (.inl hp)) ?_
    rw [currentInstr_header_dec hp hm, fetchHeader_eq_decodeUnit hb hl hf hq]
    exact decodeUnit_eq_ok.2 ⟨[], hd⟩
  · obtain ⟨hwf, henc, -⟩ := decodeChunk_eq_ok hd
    rw [List.append_nil] at henc
    exact DecReady.step_eq_exec ⟨hm, hp, hx⟩ hr (decodeAt_place hd) hwf (henc ▸ ⟨hb, hl, hf⟩)
  · have hread : memRead u u.pc 8 = .ok bytes := memRead_eq_ok.2 ⟨hl, hf, hb⟩
    refine hr.step_eq_exec (busy_eq_true.2 (.inr hp)) ?_
    rw [TailReady.currentInstr_eq ⟨hm, hp, hx⟩, fetchMarker]
    simp only [hread]
    exact decodeUnit_eq_ok.2 ⟨[], hd⟩

/-! The header step of a decode (40_header_and_marker.md R101, R102; 43_chunk_decoder.md R170; 60_exceptions.md R230). -/

/-- Fourteen bytes with the magic are a header, its fields at their offsets. -/
theorem decodeUnit_header {b : List Byte} (hl : b.length = 14) (hq : b.take 4 = magicBytes) :
    decodeUnit .header b =
      .ok (.header (unbe32 (b.getD 4 0) (b.getD 5 0) (b.getD 6 0) (b.getD 7 0))
        (unbe32 (b.getD 8 0) (b.getD 9 0) (b.getD 10 0) (b.getD 11 0)) (b.getD 12 0) (b.getD 13 0)) := by
  match b, hl with
  | [m0, m1, m2, m3, w0, w1, w2, w3, h0, h1, h2, h3, c, cs], _ =>
    have hmagic : [m0, m1, m2, m3] = magicBytes := hq
    simp only [decodeUnit, decodeAt, decodeHeader, ne_eq, hmagic, not_true_eq_false, if_false]
    rfl

/-- The magic's test passes where it is not four bytes or is right. -/
theorem checkMagic_eq_ok {s : State} {b : List Byte} {n : Nat} (hb : s.inBuf.readBytes 0 n = some b)
    (h4 : 4 ≤ s.inLen → 4 ≤ n) (hf : fits s.cfg n = true)
    (hq : ¬ (4 ≤ s.inLen ∧ b.take 4 ≠ magicBytes)) : checkMagic s = .ok () := by
  by_cases h : s.inLen < 4
  · exact if_pos h
  · have hle : 4 ≤ s.inLen := Nat.le_of_not_lt h
    have hread : memRead s 0 4 = .ok magicBytes := by
      have hmagic : b.take 4 = magicBytes := by tauto
      exact memRead_eq_ok.2 ⟨by omega, fits_of_le hf (by have := h4 hle; omega), hmagic ▸ Mem.readBytes_take hb (h4 hle)⟩
    simp only [checkMagic, if_neg h, hread, if_true]

/-- The header step of a decode once its bytes are there: `check_fields`, then the registers. -/
theorem EngineRuns.step_eq_exec_header {s u : State} {b : List Byte} (hr : EngineRuns s u) (hp : HdrReady u)
    (hm : u.mode = .dec) (hb : u.inBuf.readBytes 0 14 = some b) (hl : 14 ≤ u.inLen) (hf : fits u.cfg 14 = true)
    (hq : b.take 4 = magicBytes) :
    step s =
      exec (.header (unbe32 (b.getD 4 0) (b.getD 5 0) (b.getD 6 0) (b.getD 7 0))
        (unbe32 (b.getD 8 0) (b.getD 9 0) (b.getD 10 0) (b.getD 11 0)) (b.getD 12 0) (b.getD 13 0)) u := by
  refine hr.step_eq_exec (busy_eq_true.2 (.inl hp)) ?_
  rw [currentInstr_header_dec hp hm, fetchHeader_eq_decodeUnit hb hl hf hq, decodeUnit_header (Mem.readBytes_length hb) hq]

/-- Settles O30: the magic, the length, the channels and the colour space are tested in this order, each ending the step
where it fails. -/
theorem decodeHeaderInOrder : Obligations.DecodeHeader := by
  refine ⟨fun s u b hr hp hm hw hf hb => ?_, toNat_unbe32, fun w h c cs rest => decodeHeader_encode w h c cs rest,
    fun w h c cs s hp hm hw hc hcs => exec_header_dec_completes hp hm hw (checkFields_eq_ok.2 ⟨hc, hcs⟩)⟩
  have hnotEnc : u.mode = .enc → False := by simp [hm]
  split_ifs with hmagic hlen hch hstrict hcs
  · obtain ⟨hl, hne⟩ := hmagic
    have hread : memRead u 0 4 = .ok (b.take 4) :=
      memRead_eq_ok.2 ⟨by omega, fits_of_le hf (by omega), Mem.readBytes_take hb (by omega)⟩
    exact hr.step_eq_raise_header hp hm hw (fetchHeader_of_bad_magic hread hne)
  · refine hr.step_eq_raise_header hp hm hw (fetchHeader_of_short ?_ hlen)
    exact checkMagic_eq_ok hb (by omega) (fits_of_le hf (by omega)) hmagic
  all_goals
    rw [Nat.min_eq_right (by omega)] at hb
    rw [hr.step_eq_exec_header hp hm hb (by omega) hf (by_contra fun hq => hmagic ⟨by omega, hq⟩)]
  · exact exec_header_of_checkFields_raise hp (fun h => (hnotEnc h).elim) hw (checkFields_of_bad_channels hch hstrict)
  · exact exec_header_of_checkFields_error hp (fun h => (hnotEnc h).elim)
      (checkFields_eq_refuse.2 ⟨eq_false_of_ne_true hstrict, hch⟩)
  · exact exec_header_of_checkFields_raise hp (fun h => (hnotEnc h).elim) hw (checkFields_of_bad_colorspace hch hcs)
  · exact exec_header_dec_completes hp hm hw (checkFields_of_good_fields hch hcs)

end Sys2Proof.Machine
end

/-! The statements about the host and about taking an error: its accesses to registers and buffers, a START, hardware
reset, and what the engine leaves alone (10_state.md R43, 20_memory.md R50, 44_commands.md R205, R209,
60_exceptions.md R232, R242, 70_reset_and_hazards.md R250). -/

section
namespace Sys2Proof.Machine

open Sys2Proof

/-! The registers (10_state.md R35, R43). -/

theorem hostWrite_of_busy {s : State} (h : busy s = true) (after : State) : hostWrite s after = s := if_pos h

theorem hostWrite_of_not_busy {s : State} (h : ¬ busy s = true) (after : State) : hostWrite s after = after := if_neg h

/-- Settles O42: a write stores the value and its bit of the record unless `STATUS` is 1; a read returns the register. -/
theorem hostRegisterAccess : Obligations.HostRegisterAccess := by
  refine ⟨rfl, fun s op rest h => ?_⟩
  have hbusy : s.status = 1 ↔ busy s = true := status_eq_one
  rw [step_of_host h]
  refine ⟨?_, ?_, ?_, ?_, ?_, ?_, ?_, ?_, ?_⟩
  case refine_1 | refine_2 | refine_3 => rintro v rfl; rfl
  case refine_9 =>
    rintro reg rfl
    cases reg
    case status =>
      cases hp : s.ph <;> simp [hostMove, hostReturns, readReg, State.status]
    all_goals rfl
  all_goals
    rintro v rfl
    by_cases hb : s.status = 1
    · simp only [if_pos hb]
      exact congrArg _ (hostWrite_of_busy (s := { s with host := rest }) (hbusy.1 hb) _)
    · simp only [if_neg hb]
      exact congrArg _ (hostWrite_of_not_busy (s := { s with host := rest }) (mt hbusy.2 hb) _)

/-! The buffers (20_memory.md R50, 44_commands.md R205). -/

section
variable {s : State} {a : Nat} {v : Byte}

theorem hostMove_writeIn (hf : fits s.cfg (a + 1) = true) (hb : ¬ busy s = true) :
    hostMove (.writeIn a v) s = .next { s with inBuf := s.inBuf.write a v } := by
  rw [hostMove, bufferAccess, if_pos hf, hostWriteIn, if_neg hb]

theorem hostMove_readIn (hf : fits s.cfg (a + 1) = true) (hv : s.inBuf.read a = some v) :
    hostMove (.readIn a) s = .next { s with rdata := v.toNat } := by
  rw [hostMove, bufferAccess, if_pos hf, hostReadIn, hv]
  rfl

theorem hostMove_readOut (hf : fits s.cfg (a + 1) = true) (hp : s.ph = .done) (hl : a < s.outLen)
    (hv : s.outBuf.read a = some v) : hostMove (.readOut a) s = .next { s with rdata := v.toNat } := by
  rw [hostMove, bufferAccess, if_pos hf, hostReadOut, if_pos ⟨hp, hl⟩, hv]
  rfl

end

/-- Settles O43: below the capacity each defined access stores or returns its one byte. -/
theorem hostBufferAccess : Obligations.HostBufferAccess := by
  intro s rest a hf
  refine ⟨fun v h hs => ?_, fun v h hv => ?_, fun v h hp hl hv => ?_⟩ <;> rw [step_of_host h]
  · have hmove := hostMove_writeIn (s := { s with host := rest }) (v := v) hf (mt status_eq_one.2 hs)
    exact ⟨_, hmove, rfl, stored_writeBytes s.inBuf a [v]⟩
  · exact hostMove_readIn (s := { s with host := rest }) hf hv
  · exact hostMove_readOut (s := { s with host := rest }) hf hp hl hv

/-! A START and hardware reset (44_commands.md R209, 70_reset_and_hazards.md R250). -/

/-- Settles O38: stream start writes every field in which the two states differ. -/
theorem startForgetsTheHistory : Obligations.StartForgetsTheHistory := by
  intro i s t hi hs ht hst
  obtain ⟨m, hex⟩ : ∃ m, ∀ s, exec i s = startCommand m s := by
    cases i <;> cases hi
    · exact ⟨.enc, exec_startEncode⟩
    · exact ⟨.dec, exec_startDecode⟩
  have hsame : startTransaction m t = startTransaction m s := by rw [hst]; rfl
  rw [hex, hex, startCommand_of_not_busy (by simp [hs]), startCommand_of_not_busy (by simp [ht]), hsame]

/-- Settles O44: the move is `hardReset`, which keeps the parameters and the moves left. -/
theorem hardwareReset : Obligations.HardwareReset :=
  fun _ _ h => ⟨_, step_of_host h, rfl, rfl, rfl, rfl, rfl, rfl, rfl, rfl⟩

/-! The engine's turn and its errors (60_exceptions.md R232, R242). -/

/-- Settles O45: in these three phases the block is not busy. -/
theorem noStepWhenNotBusy : Obligations.NoStepWhenNotBusy := by
  intro s u h hp
  rw [h.step_eq, engineStep_of_not_busy (busy_eq_false.2 hp)]

/-- Settles O46: `takeError` writes these fields, the geometry registers in a decode only. -/
theorem errorEntry : Obligations.ErrorEntry := by
  refine fun e s => ⟨rfl, rfl, rfl, rfl, fun hm => ?_, fun _ => rfl⟩
  simp [takeError, hm]

/-! The reset state (10_state.md R47). -/

/-- A state in IDLE without history of a transaction: nothing but the buffers has to be asked for. -/
theorem inv_of_idle {s : State} (hp : s.ph = .idle) (hmem : MemoryInv s) (herr : s.err = 0) (hout : s.outLen = 0)
    (hrun : s.run = 0) (hhalt : s.halted = false) : Inv s where
  memory := hmem
  err := ⟨by simp [hp], fun _ => herr⟩
  outLen := fun _ => hout
  run := ⟨by simp [hrun], fun _ => hrun⟩
  hdr := fun h => by simp [hp] at h
  body := fun h => by simp [hp] at h
  encBody := fun h => by simp [hp] at h
  decBody := fun h => by simp [hp] at h
  done := fun h => by simp [hp] at h
  written := fun h => by simp [hp] at h
  halted := fun h => by simp [hhalt] at h

/-- Settles O56: the reset state is idle, its buffers empty and its result registers 0. -/
theorem resetMeetsInv : Obligations.ResetMeetsInv := inv_of_idle rfl reset_memory_wf rfl rfl rfl rfl

end Sys2Proof.Machine
end

/-! The frames of an instruction and of the engine's turn (10_state.md R22 to R44, 20_memory.md R53): what a completed
step writes, said once for all ten rows, and what every step leaves. -/

section
namespace Sys2Proof.Machine

open Sys2Proof

/-! What a completed step writes. -/

/-- The states a completed step can end in, field by field (42_chunk_encoder.md R140, R143 to R151, R156;
43_chunk_decoder.md R170, R177, R178, R182). -/
inductive Effect : Instr → State → State → Prop where
  | decodedPixel {i s p} (hi : i.place = .chunk) (hl : ∀ l, i ≠ .run l) (hp : s.ph = .body) (hx : s.px < s.npx)
      (hm : s.mode = .dec) (hd : (historyOf s).chunk i = (historyOf s).single p) :
      Effect i s { commit p s with
        outBuf := s.outBuf.writeBytes s.wp (pixelBytes s.channels p)
        wp := s.wp + (pixelBytes s.channels p).length
        px := s.px + 1
        pc := s.pc + (encode i).length }
  | decodedRun {l s n} (hp : s.ph = .body) (hm : s.mode = .dec) (hpos : 0 < n) (hle : n ≤ runLength l)
      (hx : s.px + n ≤ s.npx) (hcut : n < runLength l → s.px + n = s.npx ∧ s.cfg.overshoot = .truncate) :
      Effect (.run l) s { s with
        outBuf := s.outBuf.writeBytes s.wp (List.replicate n (pixelBytes s.channels s.prev)).flatten
        wp := s.wp + n * (pixelBytes s.channels s.prev).length
        px := s.px + n
        pc := s.pc + 1 }
  | encodedPixel {i s p} (hi : i.place = .chunk) (hl : ∀ l, i ≠ .run l) (hp : s.ph = .body) (hx : s.px < s.npx)
      (hm : s.mode = .enc) (hf : fetchPixel s = .ok p) (hs : selectChunk p s = i) :
      Effect i s { commit p s with
        outBuf := s.outBuf.writeBytes s.wp (pendingRun s.run ++ encode i)
        wp := s.wp + (pendingRun s.run ++ encode i).length
        run := 0
        pc := s.pc + s.channels.toNat
        px := s.px + 1 }
  | runGrown {l s} (hp : s.ph = .body) (hx : s.px < s.npx) (hm : s.mode = .enc) (hf : fetchPixel s = .ok s.prev)
      (hr : s.run < 62) :
      Effect (.run l) s { s with run := s.run + 1, pc := s.pc + s.channels.toNat, px := s.px + 1 }
  | runRestarted {l s} (hp : s.ph = .body) (hx : s.px < s.npx) (hm : s.mode = .enc) (hf : fetchPixel s = .ok s.prev)
      (hr : ¬ s.run < 62) :
      Effect (.run l) s { s with
        outBuf := s.outBuf.writeBytes s.wp [0xFD]
        wp := s.wp + 1
        run := 1
        pc := s.pc + s.channels.toNat
        px := s.px + 1 }
  | headerRead {w h c cs s} (hp : s.ph = .hdr) (hm : s.mode = .dec) (hc : checkFields s.cfg c cs = .ok ()) :
      Effect (.header w h c cs) s { s with
        width := w, height := h, channels := c, colorspace := cs, written := s.written.withGeometry
        npx := pixelTotal w h, pc := 14, ph := .body }
  | headerWritten {s} (hp : s.ph = .hdr) (hm : s.mode = .enc)
      (hc : checkFields s.cfg s.channels s.colorspace = .ok ())
      (hl : s.inLen = pixelTotal s.width s.height * s.channels.toNat) :
      Effect (.header s.width s.height s.channels s.colorspace) s (withHeader s)
  | decodeEnded {s} (hp : s.ph = .body) (hx : s.px = s.npx) (hm : s.mode = .dec) :
      Effect .endMarker s { s with pc := s.pc + 8, outLen := s.wp, ph := .done }
  | encodeEnded {s} (hp : s.ph = .body) (hx : s.px = s.npx) (hm : s.mode = .enc) : Effect .endMarker s (withTail s)

/-- A decoded run that completes repeats `prev` for its whole length, or under `truncate` up to the total
(43_chunk_decoder.md R177). -/
theorem decodeRun_eq_ok {l : BitVec 6} {s t : State} (h : decodeRun l s = .ok t) (hx : s.px < s.npx) :
    ∃ n, repeatPrev n s = .ok t ∧ 0 < n ∧ n ≤ runLength l ∧ s.px + n ≤ s.npx ∧
      (n < runLength l → s.px + n = s.npx ∧ s.cfg.overshoot = .truncate) := by
  rcases decodeRun_cases l s with ⟨hle, he⟩ | ⟨-, -, he⟩ | ⟨hgt, htrunc, he⟩ <;> rw [he] at h
  · exact ⟨_, h, Nat.succ_pos _, le_rfl, hle, fun hlt => absurd hlt (lt_irrefl _)⟩
  · cases h
  · exact ⟨_, h, by omega, by omega, by omega, fun _ => ⟨by omega, htrunc⟩⟩

/-- Only a pixel equal to `prev` is a run step's (42_chunk_encoder.md R143). -/
theorem eq_prev_of_selectChunk_eq_run {p : Pixel} {s : State} {l : BitVec 6} (h : selectChunk p s = .run l) :
    p = s.prev := by
  by_contra hne
  exact selectChunk_ne_run hne l h

theorem Completed.effect {i : Instr} {s t : State} (h : Completed i s t) : Effect i s t := by
  cases h with
  | decodePixel hi hl hp hx hm hd h =>
    obtain ⟨-, rfl⟩ := finish_eq_ok.1 h
    exact .decodedPixel hi hl hp hx hm hd
  | decodeRun hp hx hm h =>
    obtain ⟨n, hrep, hpos, hle, hx', hcut⟩ := decodeRun_eq_ok h hx
    rw [repeatPrev_eq_ok hrep]
    exact .decodedRun hp hm hpos hle hx' hcut
  | encodePixel hi hl hp hx hm h =>
    obtain ⟨p, hf, hs, rfl⟩ := encodeChunk_eq_ok h
    rw [flushBytes_eq_pendingRun]
    exact .encodedPixel hi hl hp hx hm hf hs
  | encodeRun hp hx hm h =>
    obtain ⟨p, hf, hs, hnext⟩ := encodeRun_eq_ok h
    obtain rfl := eq_prev_of_selectChunk_eq_run hs
    obtain ⟨hr, rfl⟩ | ⟨hr, rfl⟩ := hnext
    · exact .runGrown hp hx hm hf hr
    · exact .runRestarted hp hx hm hf hr
  | decodeHeader hp hm h =>
    obtain ⟨hc, rfl⟩ := decodeHeaderStep_eq_ok.1 h
    exact .headerRead hp hm hc
  | encodeHeader hp hm h =>
    obtain ⟨⟨rfl, rfl, rfl, rfl⟩, hc, hl, rfl⟩ := encodeHeaderStep_eq_ok h
    exact .headerWritten hp hm hc hl
  | decodeEnd hp hx hm h =>
    cases h
    exact .decodeEnded hp hx hm
  | encodeEnd hp hx hm h =>
    rw [encodeTail_eq_ok h, flushBytes_eq_pendingRun, List.length_append, ← Nat.add_assoc]
    exact .encodeEnded hp hx hm

section
variable {i : Instr} {s t : State}

/-- The fields no completed step writes: the mark, the record's `halted`, `mode`, `ERR`, `IN`, `IN_LEN`, the parameters
and what is the host's. -/
theorem Effect.frame (h : Effect i s t) :
    t = { s with
      cache := t.cache, prev := t.prev, run := t.run, pc := t.pc, wp := t.wp, px := t.px, npx := t.npx, ph := t.ph
      width := t.width, height := t.height, channels := t.channels, colorspace := t.colorspace
      outLen := t.outLen, outBuf := t.outBuf, written := t.written } := by
  cases h <;> rfl

/-- What a completed step emits is one string at `wp` (20_memory.md R53). -/
theorem Effect.emits (h : Effect i s t) :
    ∃ v, t.outBuf = s.outBuf.writeBytes s.wp v ∧ t.wp = s.wp + v.length := by
  cases h with
  | decodedRun => exact ⟨_, rfl, by simp⟩
  | runGrown | headerRead | decodeEnded => exact ⟨[], rfl, rfl⟩
  | encodeEnded => exact ⟨_, rfl, by simp [withTail, endMarkerBytes, Nat.add_assoc]⟩
  | _ => exact ⟨_, rfl, rfl⟩

/-- Every byte of `OUT` outside the string emitted is as before. -/
theorem Effect.keeps_out (h : Effect i s t) {a : Nat} (ha : a < s.wp ∨ t.wp ≤ a) :
    t.outBuf.read a = s.outBuf.read a := by
  obtain ⟨v, hout, hwp⟩ := h.emits
  rw [hwp] at ha
  rw [hout]
  rcases ha with ha | ha
  · exact Mem.read_writeBytes_of_lt _ _ _ ha
  · exact Mem.read_writeBytes_of_ge _ _ _ ha

/-- Only the header step of a decode writes the geometry registers. -/
theorem Effect.keeps_geometry (h : Effect i s t) (hg : s.mode = .enc ∨ i.place ≠ .header) : SameGeometry s t := by
  cases h with
  | headerRead _ hm => simp [hm, Instr.place] at hg
  | _ => exact ⟨rfl, rfl, rfl, rfl⟩

theorem Effect.keeps_run_of_dec (h : Effect i s t) (hm : s.mode = .dec) : t.run = s.run := by
  cases h with
  | decodedPixel | decodedRun | headerRead | decodeEnded => rfl
  | encodedPixel _ _ _ _ henc | runGrown _ _ henc | runRestarted _ _ henc | headerWritten _ henc
  | encodeEnded _ _ henc => rw [hm] at henc; cases henc

/-- Frames and runs leave the pixel history (41_pixel_history.md R125). -/
theorem Effect.keeps_history (h : Effect i s t)
    (hi : i.place = .header ∨ i.place = .marker ∨ ∃ l, i = .run l) : historyOf t = historyOf s := by
  cases h with
  | decodedPixel hchunk hl | encodedPixel hchunk hl =>
    obtain ⟨l, rfl⟩ : ∃ l, i = .run l := by simpa [hchunk] using hi
    exact absurd rfl (hl l)
  | _ => rfl

theorem Effect.keeps_npx (h : Effect i s t) (hi : i.place ≠ .header) : t.npx = s.npx := by
  cases h with
  | headerRead | headerWritten => exact absurd rfl hi
  | _ => rfl

/-- Only the header step of a decode counts the geometry registers as written. -/
theorem Effect.written_eq (h : Effect i s t) :
    t.written =
      if i.place = .header ∧ s.mode = .dec ∧ t.ph = .body then s.written.withGeometry else s.written := by
  cases h with
  | headerRead _ hm => simp [Instr.place, hm]
  | headerWritten _ hm => simp [hm, withHeader]
  | decodedPixel hi | encodedPixel hi => simp [hi]
  | decodedRun | runGrown | runRestarted | decodeEnded | encodeEnded => simp [Instr.place, withTail]

/-- The header step is the step of HDR. -/
theorem Effect.place_eq_header_iff (h : Effect i s t) : i.place = .header ↔ s.ph = .hdr := by
  cases h with
  | headerRead hp | headerWritten hp => simp [Instr.place, hp]
  | decodedPixel hi _ hp | encodedPixel hi _ hp => simp [hi, hp]
  | decodedRun hp | runGrown hp | runRestarted hp | decodeEnded hp | encodeEnded hp => simp [Instr.place, hp]

theorem Raises.place_of_hdr {e : Err} (h : Raises i s e) (hp : s.ph = .hdr) : i.place = .header := by
  cases h with
  | fields | mismatch => rfl
  | overflow hb | fetch _ hb => rw [hp] at hb; cases hb

theorem ph_of_exec_header (h : exec i s = .next t) (hi : i.place = .header) : s.ph = .hdr := by
  cases i <;> cases hi
  exact (execHeader_next h).1

/-- A step notes nothing, or sets the mark and ends the transaction because it read a register nothing has written. -/
theorem noteReads_marks (s t : State) :
    ((noteReads s t).refused = t.refused ∧ (noteReads s t).halted = t.halted) ∨
      ((noteReads s t).refused = true ∧ (noteReads s t).halted = true ∧ Unwritten s) := by
  cases h : readsUnwritten s with
  | false => simp [h]
  | true => exact .inr ⟨by simp [h], by simp [h], readsUnwritten_eq_true.1 h⟩

/-- The marks after a step that itself keeps them. -/
theorem noteReads_frame {i : Instr} {s u : State} (hr : u.refused = s.refused) (hh : u.halted = s.halted)
    (hi : s.ph = .hdr → i.place = .header) :
    ((noteReads s u).refused = s.refused ∧
        ((noteReads s u).halted = s.halted ∨ i.place = .command ∧ (noteReads s u).halted = false)) ∨
      noteReads s u = markRefused s ∨
      (i.place = .header ∧ (noteReads s u).refused = true ∧ (noteReads s u).halted = true ∧ Unwritten s) := by
  rcases noteReads_marks s u with ⟨hr', hh'⟩ | ⟨hr', hh', hun⟩
  · exact .inl ⟨hr'.trans hr, .inl (hh'.trans hh)⟩
  · exact .inr (.inr ⟨hi hun.1, hr', hh', hun⟩)

/-- Settles O51: the fields a completed step, an error and the mark write are all there is to write. -/
theorem execFrame : Obligations.ExecFrame := by
  intro i s t h
  rcases exec_next h with ⟨hi, ⟨-, rfl⟩ | ⟨m, -, rfl⟩⟩ | ⟨hi, ⟨u, hu, rfl⟩ | ⟨e, he, rfl⟩ | rfl⟩
  · simp [SameGeometry, hi]
  · have hrun (l : BitVec 6) : i ≠ .run l := by
      rintro rfl
      cases hi
    simp [SameGeometry, hi, hrun]
  · have heff := hu.effect
    obtain ⟨herr, hph⟩ := hu.no_error
    have hframe := heff.frame
    refine ⟨?_, fun a => heff.keeps_out, fun hg => heff.keeps_geometry (hg.imp_right And.right),
      fun _ => ⟨?_, fun _ => herr⟩,
      fun _ => heff.keeps_run_of_dec, fun hi => ?_, heff.keeps_npx, heff.written_eq,
      noteReads_frame ?_ ?_ heff.place_eq_header_iff.2, .inl ?_⟩
    · rw [hframe]; exact ⟨rfl, rfl, rfl, rfl, rfl⟩
    · rw [hframe]; rfl
    · exact History.mk.inj (heff.keeps_history hi)
    all_goals rw [hframe]
    rfl
  · refine ⟨⟨rfl, rfl, rfl, rfl, rfl⟩, fun a _ => rfl, fun hg => ?_, fun _ => ⟨rfl, fun hne => absurd rfl hne⟩,
      fun _ _ => rfl, fun _ => ⟨rfl, rfl⟩, fun _ => rfl, ?_, noteReads_frame rfl rfl he.place_of_hdr, ?_⟩
    · have hm : s.mode = .enc := hg.resolve_right fun hg => hg.1 rfl
      simp [SameGeometry, hm]
    · simp
    · cases hm : s.mode <;> simp [hm]
  · have hwritten : ¬ (i.place = .header ∧ s.mode = .dec ∧ s.ph = .body) := fun ⟨hi, _, hp⟩ => by
      rw [ph_of_exec_header h hi] at hp
      cases hp
    simp [SameGeometry, hwritten]

/-! The engine's turn (20_memory.md R53, 10_state.md R26, R27). -/

/-- A completed step moves no pointer down: in HDR, where the header step of a decode sets `pc`, it is still 0. -/
theorem Effect.pointers_le {i : Instr} {s t : State} (h : Effect i s t) (hs : HdrInv s) :
    s.pc ≤ t.pc ∧ s.wp ≤ t.wp ∧ s.px ≤ t.px := by
  obtain ⟨v, -, hwp⟩ := h.emits
  refine ⟨?_, by omega, ?_⟩
  · cases h with
    | headerRead hp =>
      obtain ⟨hpc, -⟩ := hs hp
      simp [hpc]
    | headerWritten | encodeEnded => exact le_rfl
    | _ => exact Nat.le_add_right _ _
  · cases h with
    | headerRead | headerWritten | decodeEnded | encodeEnded => exact le_rfl
    | _ => exact Nat.le_add_right _ _

/-- A completed step leaves its phase or passes a pixel. -/
theorem Effect.progress {i : Instr} {s t : State} (h : Effect i s t) : t.ph ≠ s.ph ∨ s.px < t.px := by
  cases h with
  | decodedPixel | encodedPixel | runGrown | runRestarted => exact .inr (Nat.lt_succ_self _)
  | decodedRun _ _ hpos => exact .inr (Nat.lt_add_of_pos_right hpos)
  | headerRead hp | headerWritten hp | decodeEnded hp | encodeEnded hp => exact .inl (by rw [hp]; nofun)

/-- Settles O52: a completed step emits at `wp` and moves no pointer down, and an error or the mark moves none. -/
theorem engineIsSequential : Obligations.EngineIsSequential := by
  intro s u t hturn hinv h
  rw [hturn.step_eq] at h
  rcases engineStep_cases h with ⟨-, rfl⟩ | ⟨-, -, ⟨i, v, -, hv, rfl⟩ | ⟨e, -, rfl⟩ | rfl⟩
  case inr.inl =>
    have heff := hv.effect
    have hframe := heff.frame
    obtain ⟨hpc, hwp, hpx⟩ := heff.pointers_le hinv.hdr
    refine ⟨?_, ?_, hpc, hwp, hpx, fun a => heff.keeps_out⟩ <;> rw [hframe] <;> rfl
  all_goals exact ⟨rfl, rfl, le_rfl, le_rfl, le_rfl, fun a _ => rfl⟩

end

end Sys2Proof.Machine
end

/-! The invariant of the block is kept by every step, whatever the host or the engine does (10_state.md R24 to R36, R42;
41_pixel_history.md R124; 20_memory.md R52). -/

section
namespace Sys2Proof.Machine

open Sys2Proof

/-! What the instruction of a decode step says about `IN` (40_header_and_marker.md R101, 43_chunk_decoder.md R171,
R182). -/

section
variable {s : State} {i : Instr}

/-- The chunk a decode step runs stands at `pc`. -/
theorem streamHas_of_currentInstr_chunk (h : DecReady s) (hc : currentInstr s = .ok i) :
    i.place = .chunk ∧ i.wf = true ∧ StreamHas s (encode i) := by
  rw [h.currentInstr_eq] at hc
  obtain ⟨t, ts, bytes, rest, htag, hall, hd⟩ := fetchChunk_eq_ok hc
  obtain ⟨-, -, htag⟩ := memRead_eq_ok.1 htag
  obtain ⟨hl, hf, hall⟩ := memRead_eq_ok.1 hall
  obtain ⟨hwf, henc, -⟩ := decodeChunk_eq_ok hd
  have hlen := Mem.readBytes_length hall
  cases bytes with
  | nil => cases hd
  | cons b bs =>
    obtain ⟨-, htag⟩ := (Mem.readBytes_eq_some _ _ _ _).1 htag
    obtain ⟨-, hbytes⟩ := (Mem.readBytes_eq_some _ _ _ _).1 hall
    obtain rfl : t = b := by
      have hpos : 0 < chunkLength t := by cases hk : tagKind t <;> simp [chunkLength, hk, kindLength]
      exact Option.some.inj ((htag 0 Nat.one_pos).symm.trans (hbytes 0 hpos))
    have hrest : rest = [] := List.length_eq_zero_iff.1 (by have := decodeChunk_length hd; omega)
    rw [hrest, List.append_nil] at henc
    rw [henc]
    exact ⟨decodeAt_place hd, hwf, hlen ▸ hall, hlen ▸ hl, hlen ▸ hf⟩

/-- The header a decode step runs is the first fourteen bytes. -/
theorem readBytes_of_currentInstr_header (hp : HdrReady s) (hm : s.mode = .dec) (hc : currentInstr s = .ok i) :
    14 ≤ s.inLen ∧ s.inBuf.readBytes 0 14 = some (encode i) := by
  rw [currentInstr_header_dec hp hm] at hc
  obtain ⟨bytes, rest, hall, hd⟩ := fetchHeader_eq_ok hc
  obtain ⟨hl, -, hall⟩ := memRead_eq_ok.1 hall
  obtain ⟨-, henc⟩ := decodeHeader_eq_ok hd
  have hplace := decodeAt_place hd
  have hlen := Mem.readBytes_length hall
  have hrest : rest = [] := by
    cases i <;> cases hplace
    rw [← henc, List.length_append] at hlen
    exact List.length_eq_zero_iff.1 (Nat.add_left_cancel hlen)
  rw [hrest, List.append_nil] at henc
  exact ⟨by omega, henc ▸ hall⟩

/-- The marker a decode step runs stands at `pc`. -/
theorem streamHas_of_currentInstr_marker (h : TailReady s .dec) (hc : currentInstr s = .ok i) :
    StreamHas s endMarkerBytes := by
  rw [h.currentInstr_eq] at hc
  obtain ⟨bytes, rest, hall, hd⟩ := fetchMarker_eq_ok hc
  obtain ⟨hl, hf, hall⟩ := memRead_eq_ok.1 hall
  obtain ⟨-, henc⟩ := decodeMarker_eq_ok hd
  have hlen := Mem.readBytes_length hall
  have hrest : rest = [] := by
    rw [← henc, List.length_append] at hlen
    exact List.length_eq_zero_iff.1 (Nat.add_left_cancel hlen)
  rw [hrest, List.append_nil] at henc
  exact henc ▸ ⟨hlen ▸ hall, hlen ▸ hl, hlen ▸ hf⟩

end

/-! Parts of the invariant in BODY. -/

/-- A transaction has one mode (10_state.md R30). -/
theorem not_dec_of_enc {s : State} (henc : s.mode = .enc) : s.mode ≠ .dec := by
  rw [henc]
  exact Mode.noConfusion

theorem historyOk_learn (h : History) (p : Pixel) : HistoryOk (h.learn p) :=
  .inr (Vector.getElem_set_self _)

theorem toNat_run_succ {run : BitVec 6} (h : run < 62) : (run + 1).toNat = run.toNat + 1 := by
  revert run
  decide

/-- A pixel takes as many bytes as there are channels (20_memory.md R59). -/
theorem pixelBytes_length_of_channels {c : Byte} (hc : c = 3 ∨ c = 4) (p : Pixel) :
    (pixelBytes c p).length = c.toNat := by
  rcases hc with rfl | rfl <;> rfl

/-- A fetched pixel of three-channel data has alpha 255 (42_chunk_encoder.md R141). -/
theorem alpha_of_fetchPixel {s : State} {p : Pixel} (h : fetchPixel s = .ok p) (hc : s.channels = 3) : p.a = 255 := by
  obtain ⟨bs, -, hp⟩ := fetchPixel_eq_ok.1 h
  rw [hc] at hp
  unfold pixelOfBytes at hp
  split at hp
  · cases hp
  · cases hp
    rfl
  · cases hp

/-- A step that stays in BODY writes at most the history, `run`, `OUT` and the pointers; the parts of the invariant that
speak of these are what is left to show. -/
theorem Inv.of_body_step {s t : State} (hs : Inv s) (hp : s.ph = .body)
    (hframe : t = { s with
      cache := t.cache, prev := t.prev, run := t.run, pc := t.pc, wp := t.wp, px := t.px, outBuf := t.outBuf })
    (hout : ∃ v, t.outBuf = s.outBuf.writeBytes s.wp v) (hrun : RunInv t) (hpx : t.px ≤ s.npx)
    (hhist : HistoryOk (historyOf t)) (henc : EncBodyInv t) (hdec : DecBodyInv t) : Inv t := by
  obtain ⟨hin, hout'⟩ := hs.memory
  obtain ⟨-, hnpx, hch, hcs, -⟩ := hs.body hp
  obtain ⟨v, hout⟩ := hout
  have hph : t.ph = .body := by rw [hframe]; exact hp
  exact
    { memory := ⟨by rw [hframe]; exact hin, by rw [hout]; exact Mem.wf_writeBytes hout' _ _⟩
      err := by rw [hframe]; exact hs.err
      outLen := by rw [hframe]; exact hs.outLen
      run := hrun
      hdr := fun h => by rw [hph] at h; cases h
      body := fun _ => ⟨by rw [hframe]; exact hpx, by rw [hframe]; exact hnpx, by rw [hframe]; exact hch,
        by rw [hframe]; exact hcs, hhist⟩
      encBody := henc
      decBody := hdec
      done := fun h => by rw [hph] at h; cases h
      written := by rw [hframe]; exact hs.written
      halted := by rw [hframe]; exact hs.halted }

/-- A completed body step keeps the invariant. -/
theorem Effect.keeps_inv_body {i : Instr} {s t : State} (h : Effect i s t) (hc : currentInstr s = .ok i) (hs : Inv s)
    (hp : s.ph = .body) (hi : i.place = .chunk) : Inv t := by
  obtain ⟨hpx, hnpx, hch, -, hhist⟩ := hs.body hp
  obtain ⟨hrun, hrunDec⟩ := hs.run
  have hemits := h.emits
  cases h with
  | decodedPixel _ _ _ hx hm _ =>
    obtain ⟨hwp, hpc, -⟩ := hs.decBody hp hm
    obtain ⟨-, -, -, hle, -⟩ := streamHas_of_currentInstr_chunk ⟨hm, hp, hx⟩ hc
    refine hs.of_body_step hp rfl ⟨_, rfl⟩ hs.run hx (historyOk_learn (historyOf s) _)
      (fun _ henc => absurd hm (not_dec_of_enc (s := s) henc)) fun _ _ => ⟨?_, Nat.le_add_right_of_le hpc, hle⟩
    simp [pixelBytes_length_of_channels hch, hwp, Nat.succ_mul]
  | decodedRun _ hm hpos hle hx hcut =>
    obtain ⟨hwp, hpc, -⟩ := hs.decBody hp hm
    obtain ⟨-, -, -, hle, -⟩ := streamHas_of_currentInstr_chunk ⟨hm, hp, by omega⟩ hc
    refine hs.of_body_step hp rfl ⟨_, rfl⟩ hs.run hx hhist
      (fun _ henc => absurd hm (not_dec_of_enc (s := s) henc)) fun _ _ => ⟨?_, Nat.le_add_right_of_le hpc, hle⟩
    simp [pixelBytes_length_of_channels hch, hwp, Nat.add_mul]
  | encodedPixel _ _ _ hx hm hf _ =>
    obtain ⟨hpc, hlen, hwp, hrunPx, -⟩ := hs.encBody hp hm
    refine hs.of_body_step hp rfl ⟨_, rfl⟩ ⟨Nat.zero_le _, fun _ => rfl⟩ hx (historyOk_learn (historyOf s) _)
      (fun _ _ => ⟨?_, hlen, Nat.le_add_right_of_le hwp, Nat.zero_le _, alpha_of_fetchPixel (s := s) hf⟩)
      fun _ hdec => absurd hdec (not_dec_of_enc (s := s) hm)
    simp [hpc, Nat.succ_mul]
  | runGrown _ hx hm hf hr =>
    obtain ⟨hpc, hlen, hwp, hrunPx, halpha⟩ := hs.encBody hp hm
    have hlt : s.run.toNat < 62 := hr
    have hsucc := toNat_run_succ hr
    refine hs.of_body_step hp rfl ⟨[], rfl⟩
      ⟨by simp only [hsucc]; omega, fun hdec => absurd hdec (not_dec_of_enc (s := s) hm)⟩ hx hhist
      (fun _ _ => ⟨?_, hlen, hwp, by simp only [hsucc]; omega, halpha⟩)
      fun _ hdec => absurd hdec (not_dec_of_enc (s := s) hm)
    simp [hpc, Nat.succ_mul]
  | runRestarted _ hx hm hf hr =>
    obtain ⟨hpc, hlen, hwp, hrunPx, halpha⟩ := hs.encBody hp hm
    have hone : (1 : BitVec 6).toNat ≤ 62 := by decide
    refine hs.of_body_step hp rfl ⟨_, rfl⟩ ⟨hone, fun hdec => absurd hdec (not_dec_of_enc (s := s) hm)⟩ hx hhist
      (fun _ _ => ⟨?_, hlen, Nat.le_add_right_of_le hwp, Nat.le_add_left _ _, halpha⟩)
      fun _ hdec => absurd hdec (not_dec_of_enc (s := s) hm)
    simp [hpc, Nat.succ_mul]
  | headerRead | headerWritten | decodeEnded | encodeEnded => cases hi

/-! The header and the tail step. -/

/-- Where the header step notes nothing, its operands have been written. -/
theorem operandsWritten_of_noteReads {s t : State} (hp : s.ph = .hdr) (h : (noteReads s t).halted = false) :
    operandsWritten s = true := by
  simp only [noteReads_halted, Bool.or_eq_false_iff] at h
  simpa [readsUnwritten, hp] using h.2

/-- A step that notes an unwritten register sets the mark with it. -/
theorem haltedInv_noteReads {s t : State} (hh : t.halted = false) (hp : t.ph ≠ .idle ∧ t.ph ≠ .done) :
    HaltedInv (noteReads s t) := by
  intro h
  rw [noteReads_halted, hh, Bool.false_or] at h
  exact ⟨by rw [noteReads_refused, h, Bool.or_true], hp⟩

/-- The header step of a decode enters BODY at stream start, with fields that passed `check_fields`. -/
theorem Inv.of_headerRead {w h : BitVec 32} {c cs : Byte} {s : State} (hs : Inv s) (hp : s.ph = .hdr)
    (hm : s.mode = .dec) (hh : s.halted = false) (hc : checkFields s.cfg c cs = .ok ()) (hl : 14 ≤ s.inLen) :
    Inv (noteReads s { s with
      width := w, height := h, channels := c, colorspace := cs, written := s.written.withGeometry
      npx := pixelTotal w h, pc := 14, ph := .body }) := by
  obtain ⟨-, hwp, hpx, -, hhist⟩ := hs.hdr hp
  obtain ⟨hch, hcs⟩ := checkFields_eq_ok.1 hc
  exact
    { memory := hs.memory
      err := ⟨nofun, fun _ => hs.err.2 (by simp [hp])⟩
      outLen := fun _ => hs.outLen (by simp [hp])
      run := hs.run
      hdr := nofun
      body := fun _ => ⟨by simp [hpx], rfl, hch, hcs, .inl hhist⟩
      encBody := fun _ henc => absurd hm (not_dec_of_enc (s := s) henc)
      decBody := fun _ _ => ⟨by simp [hwp, hpx], le_rfl, hl⟩
      done := nofun
      written := fun _ hn =>
        ⟨by simpa [operandsWritten, hm, Written.withGeometry] using operandsWritten_of_noteReads hp hn, rfl⟩
      halted := haltedInv_noteReads hh ⟨nofun, nofun⟩ }

/-- The header step of an encode enters BODY at stream start, the header written. -/
theorem Inv.of_headerWritten {s : State} (hs : Inv s) (hp : s.ph = .hdr) (hm : s.mode = .enc) (hh : s.halted = false)
    (hc : checkFields s.cfg s.channels s.colorspace = .ok ())
    (hl : s.inLen = pixelTotal s.width s.height * s.channels.toNat) : Inv (noteReads s (withHeader s)) := by
  obtain ⟨hpc, hwp, hpx, hrun, hhist⟩ := hs.hdr hp
  obtain ⟨hch, hcs⟩ := checkFields_eq_ok.1 hc
  have halpha : s.prev.a = 255 := congrArg (fun h => h.prev.a) hhist
  exact
    { memory := ⟨hs.memory.1, Mem.wf_writeBytes hs.memory.2 _ _⟩
      err := ⟨nofun, fun _ => hs.err.2 (by simp [hp])⟩
      outLen := fun _ => hs.outLen (by simp [hp])
      run := hs.run
      hdr := nofun
      body := fun _ => ⟨by simp [withHeader, hpx], rfl, hch, hcs, .inl hhist⟩
      encBody := fun _ _ => ⟨by simp [withHeader, hpc, hpx], hl, Nat.le_add_left _ _, by simp [withHeader, hrun],
        fun _ => halpha⟩
      decBody := fun _ hdec => absurd hdec (not_dec_of_enc (s := s) hm)
      done := nofun
      written := fun _ hn => by
        simpa [operandsWritten, hm, withHeader, and_comm] using operandsWritten_of_noteReads hp hn
      halted := haltedInv_noteReads hh ⟨nofun, nofun⟩ }

/-- A tail step ends at DONE with all pixels done, no run pending and `OUT_LEN` at `wp`. -/
theorem Inv.of_tail_step {s t : State} (hs : Inv s) (hp : s.ph = .body) (hh : s.halted = false) (hx : s.px = s.npx)
    (hframe : t = { s with
      run := 0, pc := t.pc, wp := t.wp, outLen := t.wp, outBuf := t.outBuf, ph := .done })
    (hout : ∃ v, t.outBuf = s.outBuf.writeBytes s.wp v) (hwp : s.mode = .enc → 22 ≤ t.wp) : Inv t := by
  obtain ⟨hin, hout'⟩ := hs.memory
  obtain ⟨v, hv⟩ := hout
  rw [hframe]
  exact
    { memory := ⟨hin, by rw [hv]; exact Mem.wf_writeBytes hout' _ _⟩
      err := ⟨nofun, fun _ => hs.err.2 (by simp [hp])⟩
      outLen := fun h => absurd rfl h
      run := ⟨Nat.zero_le _, fun _ => rfl⟩
      hdr := nofun
      body := nofun
      encBody := nofun
      decBody := nofun
      done := fun _ => ⟨hx, rfl, rfl, hwp⟩
      written := nofun
      halted := fun h => by rw [show s.halted = true from h] at hh; cases hh }

/-- Every completed step keeps the invariant. -/
theorem Effect.keeps_inv {i : Instr} {s t : State} (h : Effect i s t) (hc : currentInstr s = .ok i) (hs : Inv s)
    (hh : s.halted = false) : Inv (noteReads s t) := by
  have hbody (hp : s.ph = .body) (ht : Inv t) : Inv (noteReads s t) := by
    rwa [noteReads_of_ne_hdr (by simp [hp])]
  have hchunk := h.keeps_inv_body hc hs
  cases h with
  | decodedPixel hi _ hp | encodedPixel hi _ hp => exact hbody hp (hchunk hp hi)
  | decodedRun hp | runGrown hp | runRestarted hp => exact hbody hp (hchunk hp rfl)
  | headerRead hp hm hcf => exact hs.of_headerRead hp hm hh hcf (readBytes_of_currentInstr_header hp hm hc).1
  | headerWritten hp hm hcf hl => exact hs.of_headerWritten hp hm hh hcf hl
  | decodeEnded hp hx hm =>
    have hrun : s.run = 0 := hs.run.2 hm
    refine hbody hp (hs.of_tail_step hp hh hx (by rw [← hrun]) ⟨[], rfl⟩ fun henc => ?_)
    exact absurd hm (not_dec_of_enc henc)
  | encodeEnded hp hx hm =>
    obtain ⟨-, -, hwp, -⟩ := hs.encBody hp hm
    refine hbody hp (hs.of_tail_step hp hh hx rfl ⟨_, rfl⟩ fun _ => ?_)
    simp only [withTail]
    omega

/-! Errors, the mark, and the host's moves. -/

theorem errCode_bounds (e : Err) : 1 ≤ (errCode e).toNat ∧ (errCode e).toNat ≤ 8 := by
  cases e <;> decide

/-- Taking an error keeps the invariant. -/
theorem Inv.of_takeError {s : State} (hs : Inv s) (hh : s.halted = false) (e : Err) :
    Inv (noteReads s (takeError e s)) where
  memory := hs.memory
  err := ⟨fun _ => errCode_bounds e, fun h => absurd rfl h⟩
  outLen := fun _ => rfl
  run := hs.run
  hdr := nofun
  body := nofun
  encBody := nofun
  decBody := nofun
  done := nofun
  written := nofun
  halted := haltedInv_noteReads hh ⟨nofun, nofun⟩

/-- The mark keeps the invariant of a transaction under way. -/
theorem Inv.of_markRefused {s : State} (hs : Inv s) (hb : busy s = true) : Inv (markRefused s) where
  memory := hs.memory
  err := hs.err
  outLen := hs.outLen
  run := hs.run
  hdr := hs.hdr
  body := hs.body
  encBody := hs.encBody
  decBody := hs.decBody
  done := hs.done
  written := fun _ h => by cases h
  halted := fun _ => ⟨rfl, by rcases busy_eq_true.1 hb with hp | hp <;> simp [hp]⟩

theorem engineStep_keeps_inv {s t : State} (hs : Inv s) (h : engineStep s = .next t) : Inv t := by
  rcases engineStep_cases h with ⟨-, rfl⟩ | ⟨hb, hh, ⟨i, u, hc, hu, rfl⟩ | ⟨e, -, rfl⟩ | rfl⟩
  · exact hs
  · exact hu.effect.keeps_inv hc hs hh
  · exact hs.of_takeError hh e
  · exact hs.of_markRefused hb

/-- Stream start meets the invariant. -/
theorem Inv.of_startTransaction {s : State} (hs : Inv s) (m : Mode) : Inv (startTransaction m s) where
  memory := hs.memory
  err := ⟨nofun, fun _ => rfl⟩
  outLen := fun _ => rfl
  run := ⟨Nat.zero_le _, fun _ => rfl⟩
  hdr := fun _ => ⟨rfl, rfl, rfl, rfl, rfl⟩
  body := nofun
  encBody := nofun
  decBody := nofun
  done := nofun
  written := nofun
  halted := nofun

/-- A move of the host that writes no more than the host-owned registers (none while BUSY), `IN` and the host's own
fields keeps the invariant. -/
theorem Inv.of_host_access {s t : State} (hs : Inv s)
    (hframe : t = { s with
      width := t.width, height := t.height, channels := t.channels, colorspace := t.colorspace, inLen := t.inLen
      written := t.written, inBuf := t.inBuf, rdata := t.rdata, fresh := t.fresh })
    (hbusy : busy s = true →
      t.width = s.width ∧ t.height = s.height ∧ t.channels = s.channels ∧ t.colorspace = s.colorspace ∧
        t.inLen = s.inLen ∧ t.written = s.written)
    (hin : t.inBuf = s.inBuf ∨ ∃ a v, t.inBuf = s.inBuf.write a v) : Inv t := by
  have hwf : Mem.wf t.inBuf = true := by
    rcases hin with h | ⟨a, v, h⟩ <;> rw [h]
    · exact hs.memory.1
    · exact Mem.wf_write hs.memory.1 a v
  have hbody (hp : s.ph = .body) := hbusy (busy_eq_true.2 (.inr hp))
  rw [hframe]
  exact
    { memory := ⟨hwf, hs.memory.2⟩
      err := hs.err
      outLen := hs.outLen
      run := hs.run
      hdr := hs.hdr
      body := fun hp => by
        obtain ⟨hw, hh, hc, hcs, -, -⟩ := hbody hp
        simp only [hw, hh, hc, hcs]
        exact hs.body hp
      encBody := fun hp => by
        obtain ⟨-, -, hc, -, hl, -⟩ := hbody hp
        simp only [hc, hl]
        exact hs.encBody hp
      decBody := fun hp => by
        obtain ⟨-, -, hc, -, hl, -⟩ := hbody hp
        simp only [hc, hl]
        exact hs.decBody hp
      done := hs.done
      written := fun hp => by
        obtain ⟨-, -, -, -, -, hw⟩ := hbody hp
        simp only [hw]
        exact hs.written hp
      halted := hs.halted }

theorem hostMove_keeps_inv {op : HostOp} {s t : State} (hs : Inv s) (h : hostMove op s = .next t) : Inv t := by
  rcases hostMove_next h with ⟨-, he⟩ | ⟨v, i, -, hv, he⟩ | ⟨-, rfl⟩ | ⟨hframe, hbusy, hin⟩
  · exact engineStep_keeps_inv hs he
  · rcases exec_next he with ⟨-, ⟨-, rfl⟩ | ⟨m, -, rfl⟩⟩ | ⟨hi, -⟩
    · exact hs
    · exact hs.of_startTransaction m
    · rcases decodeCommand_eq_some hv with ⟨-, rfl⟩ | ⟨-, rfl⟩ <;> exact absurd rfl hi
  · exact inv_of_idle rfl reset_memory_wf rfl rfl rfl rfl
  · exact hs.of_host_access hframe hbusy hin

/-- The invariant does not speak of the moves the host has listed. -/
theorem Inv.of_host {s : State} (hs : Inv s) (rest : List HostOp) : Inv { s with host := rest } :=
  ⟨hs.memory, hs.err, hs.outLen, hs.run, hs.hdr, hs.body, hs.encBody, hs.decBody, hs.done, hs.written, hs.halted⟩

/-- Settles O57: the engine's turn and each move of the host keep the invariant. -/
theorem stepKeepsInv : Obligations.StepKeepsInv := by
  intro s t hs h
  rcases step_next h with ⟨-, he⟩ | ⟨op, rest, -, hm⟩
  · exact engineStep_keeps_inv hs he
  · exact hostMove_keeps_inv (hs.of_host rest) hm

end Sys2Proof.Machine
end

/-! The two stream invariants: what an encode leaves in `OUT` reads as the pixels consumed, and what a decode leaves in
`OUT` is the pixels its chunks read as (10_state.md R25, 42_chunk_encoder.md R157, 43_chunk_decoder.md R184, R185). -/

section
namespace Sys2Proof.Machine

open Sys2Proof

/-! Reading a chunk stream (43_chunk_decoder.md R171 to R178). -/

@[simp] theorem decodeChunks_nil (n : Nat) (h : History) : decodeChunks n h [] = some ([], h) := by
  cases n <;> rfl

/-- A stream that is not empty reads as its first chunk and the stream after it. -/
theorem decodeChunks_cons_eq_some {n : Nat} {h h' : History} {b : Byte} {bs : List Byte} {ps : List Pixel} :
    decodeChunks n h (b :: bs) = some (ps, h') ↔
      ∃ m i rest qs, n = m + 1 ∧ decodeChunk (b :: bs) = .ok (i, rest) ∧
        decodeChunks m (h.chunk i).2 rest = some (qs, h') ∧ ps = (h.chunk i).1 ++ qs := by
  cases n with
  | zero => simp [decodeChunks]
  | succ m =>
    rw [decodeChunks]
    constructor
    · intro hr
      split at hr
      · cases hr
      · rename_i i rest hd
        split at hr
        · cases hr
        · rename_i qs h'' hrest
          cases hr
          exact ⟨m, i, rest, qs, rfl, hd, hrest, rfl⟩
    · rintro ⟨m', i, rest, qs, hm, hd, hrest, rfl⟩
      obtain rfl : m = m' := by omega
      simp only [hd, hrest]

/-- More fuel than a stream needs changes nothing. -/
theorem decodeChunks_mono {n m : Nat} {h : History} {bs : List Byte} {r : List Pixel × History}
    (hr : decodeChunks n h bs = some r) (hle : n ≤ m) : decodeChunks m h bs = some r := by
  obtain ⟨ps, h'⟩ := r
  induction n generalizing m h bs ps with
  | zero =>
    cases bs with
    | nil => simpa using hr
    | cons b bs => simp [decodeChunks] at hr
  | succ n ih =>
    cases bs with
    | nil => simpa using hr
    | cons b bs =>
      obtain ⟨k, i, rest, qs, hk, hd, hrest, rfl⟩ := decodeChunks_cons_eq_some.1 hr
      obtain ⟨m, rfl⟩ := Nat.exists_eq_add_one.2 (Nat.lt_of_lt_of_le (Nat.succ_pos n) hle)
      obtain rfl : n = k := by omega
      exact decodeChunks_cons_eq_some.2 ⟨m, i, rest, qs, rfl, hd, ih (Nat.le_of_succ_le_succ hle) qs hrest, rfl⟩

/-- Streams read one after the other: the second from the history the first leaves. -/
theorem decodeChunks_append {n m : Nat} {h h' h'' : History} {xs ys : List Byte} {ps qs : List Pixel}
    (hx : decodeChunks n h xs = some (ps, h')) (hy : decodeChunks m h' ys = some (qs, h'')) :
    decodeChunks (n + m) h (xs ++ ys) = some (ps ++ qs, h'') := by
  induction n generalizing h xs ps with
  | zero =>
    cases xs with
    | nil =>
      obtain ⟨rfl, rfl⟩ : [] = ps ∧ h = h' := by simpa using hx
      exact decodeChunks_mono hy (by omega)
    | cons b bs => simp [decodeChunks] at hx
  | succ n ih =>
    cases xs with
    | nil =>
      obtain ⟨rfl, rfl⟩ : [] = ps ∧ h = h' := by simpa using hx
      exact decodeChunks_mono hy (by omega)
    | cons b bs =>
      obtain ⟨k, i, rest, rs, hk, hd, hrest, rfl⟩ := decodeChunks_cons_eq_some.1 hx
      obtain rfl : n = k := by omega
      obtain ⟨-, -, hmore⟩ := decodeChunk_eq_ok hd
      refine decodeChunks_cons_eq_some.2 ⟨n + m, i, rest ++ ys, rs ++ qs, by omega, hmore ys, ih hrest, ?_⟩
      rw [List.append_assoc]

/-- One chunk, read alone. -/
theorem decodeChunks_encode {i : Instr} (hi : i.place = .chunk) (hw : i.wf = true) (h : History) :
    decodeChunks (encode i).length h (encode i) = some (h.chunk i) := by
  have hd := decodeChunk_encode hi hw
  cases hb : encode i with
  | nil => rw [hb] at hd; cases hd
  | cons b bs =>
    rw [hb] at hd
    exact decodeChunks_cons_eq_some.2 ⟨bs.length, i, [], [], rfl, hd, decodeChunks_nil _ _, (List.append_nil _).symm⟩

section
variable {bs : List Byte} {ps : List Pixel} {h : History}

/-- A stream with one more chunk. -/
theorem streamPixels_append_chunk (hs : streamPixels bs = some (ps, h)) {i : Instr} (hi : i.place = .chunk)
    (hw : i.wf = true) : streamPixels (bs ++ encode i) = some (ps ++ (h.chunk i).1, (h.chunk i).2) := by
  rw [streamPixels, List.length_append]
  exact decodeChunks_append hs (decodeChunks_encode hi hw h)

/-- The run an encoder flushes is a chunk of the pending run's length (41_pixel_history.md R126). -/
theorem pendingRun_eq_encode {run : BitVec 6} (h : run ≠ 0) (hle : run.toNat ≤ 62) :
    pendingRun run = encode (.run (run - 1)) ∧ (Instr.run (run - 1)).wf = true ∧ runLength (run - 1) = run.toNat := by
  revert run
  decide

/-- A stream with the pending run flushed. -/
theorem streamPixels_append_pendingRun (hs : streamPixels bs = some (ps, h)) {run : BitVec 6} (hle : run.toNat ≤ 62) :
    streamPixels (bs ++ pendingRun run) = some (ps ++ List.replicate run.toNat h.prev, h) := by
  by_cases h0 : run = 0
  · subst h0
    simpa [pendingRun] using hs
  · obtain ⟨henc, hwf, hlen⟩ := pendingRun_eq_encode h0 hle
    rw [henc, ← hlen]
    exact streamPixels_append_chunk hs rfl hwf

end

/-! Bytes and pixels of the buffers. -/

/-- A buffer read up to where a string is then written. -/
theorem Mem.readBytes_writeBytes_append {m : Mem} {a : Nat} {xs : List Byte} (h : m.readBytes 0 a = some xs)
    (v : List Byte) : (m.writeBytes a v).readBytes 0 (a + v.length) = some (xs ++ v) := by
  refine Mem.readBytes_add _ _ _ _ _ _ ?_ ?_
  · rwa [Mem.readBytes_writeBytes_below _ _ _ (by omega)]
  · rw [Nat.zero_add]
    exact Mem.readBytes_writeBytes_self m a v

/-- The first pixels of a raw buffer are `ps`. -/
def RawPixels (m : Mem) (c : Byte) (ps : List Pixel) : Prop := ∀ k p, ps[k]? = some p → rawPixel m c k = some p

theorem RawPixels.append_replicate {m : Mem} {c : Byte} {ps : List Pixel} {q : Pixel} {n : Nat}
    (h : RawPixels m c ps) (hq : ∀ k, ps.length ≤ k → k < ps.length + n → rawPixel m c k = some q) :
    RawPixels m c (ps ++ List.replicate n q) := by
  intro k p hk
  by_cases hlt : k < ps.length
  · rw [List.getElem?_append_left hlt] at hk
    exact h k p hk
  · rw [List.getElem?_append_right (Nat.le_of_not_lt hlt), List.getElem?_replicate] at hk
    split_ifs at hk with hn
    cases hk
    exact hq k (by omega) (by omega)

theorem RawPixels.append_singleton {m : Mem} {c : Byte} {ps : List Pixel} {q : Pixel}
    (h : RawPixels m c ps) (hq : rawPixel m c ps.length = some q) : RawPixels m c (ps ++ [q]) := by
  refine h.append_replicate (n := 1) fun k hlo hhi => ?_
  rwa [show k = ps.length by omega]

/-- In an encode the pixel fetched is pixel `px` of the data (42_chunk_encoder.md R141). -/
theorem rawPixel_of_fetchPixel {s : State} {p : Pixel} (hf : fetchPixel s = .ok p)
    (hpc : s.pc = s.px * s.channels.toNat) : rawPixel s.inBuf s.channels s.px = some p := by
  obtain ⟨bs, hread, hp⟩ := fetchPixel_eq_ok.1 hf
  obtain ⟨-, -, hread⟩ := memRead_eq_ok.1 hread
  rw [hpc] at hread
  simp only [rawPixel, hread, hp]

/-! The stream of an encode (42_chunk_encoder.md R157). -/

theorem selectChunk_wf (p : Pixel) (s : State) : (selectChunk p s).wf = true := by
  obtain ⟨-, -, -, -, hwf, -⟩ := encoderNeverSelects p s
  exact hwf

/-- A run that cannot grow is full (10_state.md R24). -/
theorem Inv.run_eq_of_not_lt {s : State} (hs : Inv s) (hr : ¬ s.run < 62) : s.run = 62 := by
  obtain ⟨hle, -⟩ := hs.run
  have hge : ¬ s.run.toNat < 62 := hr
  exact BitVec.eq_of_toNat_eq (by simp; omega)

/-- The header an encode writes starts the stream. -/
theorem encodedSoFar_withHeader {s : State} (hs : HdrInv s) (hp : s.ph = .hdr) : EncodedSoFar (withHeader s) := by
  obtain ⟨-, hwp, hpx, hrun, hhist⟩ := hs hp
  have hself := Mem.readBytes_writeBytes_self s.outBuf 0 (encode (.header s.width s.height s.channels s.colorspace))
  have hstart : historyOf (withHeader s) = History.start := hhist
  refine ⟨[], [], ?_, by rw [hstart]; rfl, by simp [withHeader, hrun, hpx], by simp, fun k _ hk => ?_⟩
  · simp only [withHeader, hwp]
    exact hself
  · rw [show (withHeader s).px = 0 from hpx] at hk
    omega

/-- Every body step of an encode keeps the stream. -/
theorem EncodedSoFar.step {i : Instr} {s t : State} (he : EncodedSoFar s) (h : Effect i s t) (hs : Inv s)
    (hp : s.ph = .body) (hm : s.mode = .enc) (hi : i.place = .chunk) : EncodedSoFar t := by
  obtain ⟨bs, ps, hout, hread, hlen, hraw, hrun⟩ := he
  obtain ⟨hle, -⟩ := hs.run
  obtain ⟨hpc, -⟩ := hs.encBody hp hm
  have hflush := streamPixels_append_pendingRun hread hle
  have hrawFlush : RawPixels s.inBuf s.channels (ps ++ List.replicate s.run.toNat s.prev) :=
    RawPixels.append_replicate hraw fun k hlo hhi => hrun k hlo (by omega)
  cases h with
  | decodedPixel _ _ _ _ hdec | decodedRun _ hdec => exact absurd hdec (not_dec_of_enc hm)
  | headerRead | headerWritten | decodeEnded | encodeEnded => cases hi
  | @encodedPixel _ _ p _ hl _ _ _ hf hsel =>
    subst hsel
    have hne : p ≠ s.prev := by
      rintro rfl
      exact hl _ (selectChunk_prev s)
    have hchunk := streamPixels_append_chunk hflush hi (selectChunk_wf p s)
    rw [selectedChunkReadsBack p s hne, List.append_assoc] at hchunk
    refine ⟨_, _, ?_, hchunk, by simp; omega, hrawFlush.append_singleton ?_, fun k hlo hhi => ?_⟩
    · rw [← List.append_assoc]
      exact Mem.readBytes_writeBytes_append hout _
    · rw [List.length_append, List.length_replicate, hlen]
      exact rawPixel_of_fetchPixel hf hpc
    · simp at hlo hhi
      omega
  | runGrown _ _ _ hf hr =>
    have hsucc := toNat_run_succ hr
    refine ⟨bs, ps, hout, hread, by simp only [hsucc]; omega, hraw, fun k hlo hhi => ?_⟩
    rcases Nat.lt_succ_iff_lt_or_eq.1 hhi with hk | rfl
    · exact hrun k hlo hk
    · exact rawPixel_of_fetchPixel hf hpc
  | runRestarted _ _ _ hf hr =>
    rw [hs.run_eq_of_not_lt hr] at hflush hrawFlush hlen
    refine ⟨_, _, ?_, hflush, ?_, hrawFlush, fun k hlo hhi => ?_⟩
    · rw [← List.append_assoc]
      exact Mem.readBytes_writeBytes_append hout _
    · simpa using hlen
    · obtain rfl : k = s.px := by
        have : k < s.px + 1 := hhi
        simp at hlo hlen
        omega
      exact rawPixel_of_fetchPixel hf hpc

/-- The tail step of an encode flushes the run and ends the stream with the marker. -/
theorem EncodedSoFar.whole_of_tail {s : State} (he : EncodedSoFar s) (hs : Inv s) (hx : s.px = s.npx) :
    EncodedWhole (withTail s) := by
  obtain ⟨bs, ps, hout, hread, hlen, hraw, hrun⟩ := he
  refine ⟨_, _, ?_, streamPixels_append_pendingRun hread hs.run.1, ?_,
    RawPixels.append_replicate hraw fun k hlo hhi => hrun k hlo (by omega)⟩
  · have happend := Mem.readBytes_writeBytes_append hout (pendingRun s.run ++ endMarkerBytes)
    rw [List.length_append, ← Nat.add_assoc] at happend
    rw [← List.append_assoc, List.append_assoc _ bs] at happend
    exact happend
  · simp only [List.length_append, List.length_replicate]
    exact hlen.trans hx

theorem engineStep_keeps_encoderStream {s t : State} (hs : Inv s) (he : EncoderStream s)
    (h : engineStep s = .next t) : EncoderStream t := by
  rcases engineStep_cases h with ⟨-, rfl⟩ | ⟨-, -, ⟨i, u, -, hu, rfl⟩ | ⟨e, -, rfl⟩ | rfl⟩
  · exact he
  · intro hm
    have heff := hu.effect
    have hm' : s.mode = .enc := by rw [heff.frame] at hm; exact hm
    have hstep := fun hp => ((he hm').1 hp).step heff hs hp hm'
    cases heff with
    | decodedPixel _ _ _ _ hdec | decodedRun _ hdec | headerRead _ hdec | decodeEnded _ _ hdec =>
      exact absurd hdec (not_dec_of_enc hm')
    | encodedPixel hi _ hp => exact ⟨fun _ => hstep hp hi, fun hd => absurd (hp.symm.trans hd) nofun⟩
    | runGrown hp | runRestarted hp => exact ⟨fun _ => hstep hp rfl, fun hd => absurd (hp.symm.trans hd) nofun⟩
    | headerWritten hp =>
      have hstart := encodedSoFar_withHeader hs.hdr hp
      exact ⟨fun _ => hstart, nofun⟩
    | encodeEnded hp hx =>
      have hwhole := ((he hm').1 hp).whole_of_tail hs hx
      exact ⟨nofun, fun _ => hwhole⟩
  · exact fun _ => ⟨nofun, nofun⟩
  · exact he

/-- Settles O58: with the host standing aside the step is the engine's. -/
theorem stepKeepsEncoderStream : Obligations.StepKeepsEncoderStream := by
  intro s t hs he hh h
  rw [EngineTurn.step_eq (.inl ⟨hh, rfl⟩)] at h
  exact engineStep_keeps_encoderStream hs he h

/-! The stream of a decode (43_chunk_decoder.md R184). -/

/-- The chunk stream with the chunk at `pc` read. -/
theorem StreamHas.readBytes_append {s : State} {bs v : List Byte} (h : StreamHas s v) (hpc : 14 ≤ s.pc)
    (hbs : s.inBuf.readBytes 14 (s.pc - 14) = some bs) :
    s.inBuf.readBytes 14 (s.pc + v.length - 14) = some (bs ++ v) := by
  obtain ⟨hv, -⟩ := h
  rw [Nat.sub_add_comm hpc]
  exact Mem.readBytes_add _ _ _ _ _ _ hbs (by rwa [Nat.add_sub_cancel' hpc])

/-- The header step of a decode has read the header, no chunk yet, and produced no pixel. -/
theorem decodedSoFar_of_headerRead {w h : BitVec 32} {c cs : Byte} {s : State} (hs : HdrInv s) (hp : s.ph = .hdr)
    (hb : s.inBuf.readBytes 0 14 = some (encode (.header w h c cs))) :
    DecodedSoFar { s with
      width := w, height := h, channels := c, colorspace := cs, written := s.written.withGeometry
      npx := pixelTotal w h, pc := 14, ph := .body } := by
  obtain ⟨-, hwp, hpx, -, hhist⟩ := hs hp
  refine ⟨hb, [], [], rfl, congrArg (fun h => some ([], h)) hhist.symm, by simp [hpx], by simp, ?_⟩
  simp [hwp]

/-- Every body step of a decode keeps the stream: before it, no chunk has been cut. -/
theorem DecodedSoFar.step {i : Instr} {s t : State} (hd : DecodedSoFar s) (h : Effect i s t) (hs : Inv s)
    (hc : currentInstr s = .ok i) (hp : s.ph = .body) (hm : s.mode = .dec) (hi : i.place = .chunk) :
    DecodedSoFar t := by
  obtain ⟨hheader, bs, ps, hbs, hread, hlen, hcut, hout⟩ := hd
  obtain ⟨-, hpc, -⟩ := hs.decBody hp hm
  have hwhole (hx : s.px < s.npx) : ps.length = s.px := by
    by_contra hne
    exact absurd (hcut (by omega)).1 (by omega)
  have hstream (hx : s.px < s.npx) := streamHas_of_currentInstr_chunk ⟨hm, hp, hx⟩ hc
  cases h with
  | encodedPixel _ _ _ _ henc | runGrown _ _ henc | runRestarted _ _ henc => exact absurd hm (not_dec_of_enc henc)
  | headerRead | headerWritten | decodeEnded | encodeEnded => cases hi
  | @decodedPixel _ _ p _ _ _ hx _ hchunk =>
    obtain ⟨-, hwf, hhas⟩ := hstream hx
    have hlen := hwhole hx
    have hone : (historyOf s).chunk i = ([p], historyOf (commit p s)) := hchunk
    have happend := streamPixels_append_chunk hread hi hwf
    rw [hone] at happend
    refine ⟨hheader, _, _, hhas.readBytes_append hpc hbs, happend, by simp [hlen], by simp [hlen], ?_⟩
    rw [List.take_of_length_le (by simp [hlen]), List.flatMap_append]
    rw [← hlen, List.take_length] at hout
    simpa using Mem.readBytes_writeBytes_append hout (pixelBytes s.channels p)
  | @decodedRun l _ n _ _ hpos hle hx hcut =>
    obtain ⟨-, hwf, hhas⟩ := hstream (by omega)
    have hlen := hwhole (by omega)
    have happend := streamPixels_append_chunk hread hi hwf
    refine ⟨hheader, _, _, hhas.readBytes_append hpc hbs, happend, ?_, fun hlt => hcut ?_, ?_⟩
    · simpa [History.chunk, hlen] using hle
    · simpa [History.chunk, hlen] using hlt
    · have htake : (ps ++ List.replicate (runLength l) s.prev).take (s.px + n) = ps ++ List.replicate n s.prev := by
        rw [← hlen, List.take_length_add_append, List.take_replicate, Nat.min_eq_left hle]
      rw [show ((historyOf s).chunk (.run l)).1 = List.replicate (runLength l) s.prev from rfl, htake,
        List.flatMap_append, List.flatMap_replicate]
      rw [← hlen, List.take_length] at hout
      simpa using Mem.readBytes_writeBytes_append hout (List.replicate n (pixelBytes s.channels s.prev)).flatten

/-- The tail step of a decode has read the marker after the chunks. -/
theorem DecodedSoFar.whole_of_tail {s : State} (hd : DecodedSoFar s) (hpc : 14 ≤ s.pc) (hx : s.px = s.npx)
    (hhas : StreamHas s endMarkerBytes) :
    DecodedWhole { s with pc := s.pc + 8, outLen := s.wp, ph := .done } := by
  obtain ⟨hheader, bs, ps, hbs, hread, hlen, hcut, hout⟩ := hd
  obtain ⟨hmarker, -⟩ := hhas
  rw [hx] at hlen hcut hout
  exact ⟨hheader, Nat.add_le_add_right hpc 8, hmarker, bs, ps, hbs, hread, hlen, fun hlt => (hcut hlt).2, hout⟩

theorem engineStep_keeps_decoderStream {s t : State} (hs : Inv s) (hd : DecoderStream s)
    (h : engineStep s = .next t) : DecoderStream t := by
  rcases engineStep_cases h with ⟨-, rfl⟩ | ⟨-, -, ⟨i, u, hc, hu, rfl⟩ | ⟨e, -, rfl⟩ | rfl⟩
  · exact hd
  · intro hm
    have heff := hu.effect
    have hm' : s.mode = .dec := by rw [heff.frame] at hm; exact hm
    have hstep := fun hp => ((hd hm').1 hp).step heff hs hc hp hm'
    cases heff with
    | encodedPixel _ _ _ _ henc | runGrown _ _ henc | runRestarted _ _ henc | headerWritten _ henc
    | encodeEnded _ _ henc => exact absurd hm' (not_dec_of_enc henc)
    | decodedPixel hi _ hp => exact ⟨fun _ => hstep hp hi, fun h => absurd (hp.symm.trans h) nofun⟩
    | decodedRun hp => exact ⟨fun _ => hstep hp rfl, fun h => absurd (hp.symm.trans h) nofun⟩
    | headerRead hp =>
      obtain ⟨-, hheader⟩ := readBytes_of_currentInstr_header (s := s) hp hm' hc
      have hread := decodedSoFar_of_headerRead hs.hdr hp hheader
      exact ⟨fun _ => hread, nofun⟩
    | decodeEnded hp hx =>
      obtain ⟨-, hpc, -⟩ := hs.decBody hp hm'
      have hhas := streamHas_of_currentInstr_marker (s := s) ⟨hm', hp, hx⟩ hc
      have hwhole := ((hd hm').1 hp).whole_of_tail hpc hx hhas
      exact ⟨nofun, fun _ => hwhole⟩
  · exact fun _ => ⟨nofun, nofun⟩
  · exact hd

/-- Settles O59: with the host standing aside the step is the engine's. -/
theorem stepKeepsDecoderStream : Obligations.StepKeepsDecoderStream := by
  intro s t hs hd hh h
  rw [EngineTurn.step_eq (.inl ⟨hh, rfl⟩)] at h
  exact engineStep_keeps_decoderStream hs hd h

end Sys2Proof.Machine
end

/-! The statements of 60_exceptions.md R243: the situations in which a step has no meaning are exactly those that set the
mark and end the transaction. -/

section
namespace Sys2Proof.Machine

open Sys2Proof

/-! The step as the outcome of one computation, which `conclude` turns into the next state. -/

/-- The side of a meaning that the mode takes, where its step is the enabled one. -/
def enabledSide (s : State) (enabled : Bool) (decoder encoder : Except Stop State) : Except Stop State :=
  if enabled then
    match s.mode with
    | .dec => decoder
    | .enc => encoder
  else .error .noStep

/-- What an instruction of a stream computes before the step is concluded. -/
def meaning (i : Instr) (s : State) : Except Stop State :=
  match i with
  | .rgb r g b => enabledSide s (bodyEnabled s) (finish (pixelOfRgb r g b s.prev) 4 s) (encodeChunk i s)
  | .rgba r g b a => enabledSide s (bodyEnabled s) (finish (pixelOfRgba r g b a) 5 s) (encodeChunk i s)
  | .index idx => enabledSide s (bodyEnabled s) (finish (readSlot s idx) 1 s) (encodeChunk i s)
  | .diff dr2 dg2 db2 => enabledSide s (bodyEnabled s) (finish (pixelOfDiff dr2 dg2 db2 s.prev) 1 s) (encodeChunk i s)
  | .luma dg32 drdg8 dbdg8 =>
    enabledSide s (bodyEnabled s) (finish (pixelOfLuma dg32 drdg8 dbdg8 s.prev) 2 s) (encodeChunk i s)
  | .run l => enabledSide s (bodyEnabled s) (decodeRun l s) (encodeRun l s)
  | .header w h c cs => enabledSide s (headerEnabled s) (decodeHeaderStep w h c cs s) (encodeHeaderStep w h c cs s)
  | .endMarker => enabledSide s (tailEnabled s) (decodeTail s) (encodeTail s)
  | .startEncode => .error .noStep
  | .startDecode => .error .noStep

/-- What the engine's step computes: the instruction of the enabled step, and its meaning. -/
def stepResult (s : State) : Except Stop State :=
  match currentInstr s with
  | .ok i => meaning i s
  | .error x => .error x

section
variable {s : State} {i : Instr}

theorem enabledSide_of_dec {enabled : Bool} (he : enabled = true) (hm : s.mode = .dec)
    (decoder encoder : Except Stop State) : enabledSide s enabled decoder encoder = decoder := by
  simp only [enabledSide, he, if_true, hm]

theorem enabledSide_of_enc {enabled : Bool} (he : enabled = true) (hm : s.mode = .enc)
    (decoder encoder : Except Stop State) : enabledSide s enabled decoder encoder = encoder := by
  simp only [enabledSide, he, if_true, hm]

/-- `exec` of a stream's instruction concludes its meaning. -/
theorem exec_eq_conclude (hi : i.place ≠ .command) : exec i s = conclude s (meaning i s) := by
  have hside (enabled : Bool) (d e : Except Stop State) :
      conclude s (enabledSide s enabled d e) =
        if enabled then
          match s.mode with
          | .dec => conclude s d
          | .enc => conclude s e
        else .refused .notEnabled := by
    cases enabled
    · rfl
    · cases hm : s.mode <;> simp [enabledSide, hm]
  cases i with
  | startEncode | startDecode => exact absurd rfl hi
  | _ => rw [meaning, hside]; rfl

theorem stepResult_of_ok (hc : currentInstr s = .ok i) : stepResult s = meaning i s := by
  simp only [stepResult, hc]

theorem stepResult_of_error {x : Stop} (hc : currentInstr s = .error x) : stepResult s = .error x := by
  simp only [stepResult, hc]

/-- In a transaction under way the engine's turn concludes the step's result. -/
theorem engineStep_eq_conclude (hb : busy s = true) (hh : s.halted = false) :
    engineStep s = conclude s (stepResult s) := by
  rw [engineStep, hb, hh]
  cases hc : currentInstr s with
  | ok i => exact (exec_eq_conclude (currentInstr_place hc)).trans (by rw [stepResult_of_ok hc])
  | error x => rw [stepResult_of_error hc]; rfl

/-- In a decode with pixels left a chunk finishes its pixel, or is a run. -/
theorem meaning_chunk_dec (h : DecReady s) (hi : i.place = .chunk) :
    (∃ p, (∀ l, i ≠ .run l) ∧ meaning i s = finish p (encode i).length s) ∨
      ∃ l, i = .run l ∧ meaning i s = decodeRun l s := by
  obtain ⟨hm, hp, hx⟩ := h
  have hen := bodyEnabled_eq_true.2 ⟨hp, hx⟩
  cases i with
  | header | endMarker | startEncode | startDecode => cases hi
  | run l => exact .inr ⟨l, rfl, enabledSide_of_dec hen hm _ _⟩
  | _ => exact .inl ⟨_, by simp, enabledSide_of_dec hen hm _ _⟩

/-- In an encode with pixels left a chunk other than a run is emitted for its pixel. -/
theorem meaning_chunk_enc (hm : s.mode = .enc) (hp : s.ph = .body) (hx : s.px < s.npx) (hi : i.place = .chunk)
    (hl : ∀ l, i ≠ .run l) : meaning i s = encodeChunk i s := by
  have hen := bodyEnabled_eq_true.2 ⟨hp, hx⟩
  cases i with
  | header | endMarker | startEncode | startDecode => cases hi
  | run l => exact absurd rfl (hl l)
  | _ => exact enabledSide_of_enc hen hm _ _

theorem meaning_run_enc (hm : s.mode = .enc) (hp : s.ph = .body) (hx : s.px < s.npx) (l : BitVec 6) :
    meaning (.run l) s = encodeRun l s := enabledSide_of_enc (bodyEnabled_eq_true.2 ⟨hp, hx⟩) hm _ _

end

/-! Reads that are refused (60_exceptions.md R243 cases 2 and 3). -/

theorem decodeUnit_ne_refuse {place : Place} {b : List Byte} : decodeUnit place b ≠ .error .refuse := by
  intro h
  obtain ⟨e, -, hx⟩ := decodeUnit_eq_error h
  cases e <;> simp [decodeStop] at hx

/-- Bytes below `IN_LEN` that have been written are read, or lie beyond the capacity. -/
theorem memRead_of_readBytes {s : State} {a n : Nat} {bs : List Byte} (hl : a + n ≤ s.inLen)
    (hb : s.inBuf.readBytes a n = some bs) : memRead s a n = .ok bs ∨ memRead s a n = .error .refuse := by
  cases hf : fits s.cfg (a + n)
  · exact .inr (memRead_eq_refuse.2 ⟨hl, .inl hf⟩)
  · exact .inl (memRead_eq_ok.2 ⟨hl, hf, hb⟩)

theorem checkMagic_eq_refuse {s : State} : checkMagic s = .error .refuse ↔ memRead s 0 4 = .error .refuse := by
  unfold checkMagic
  split_ifs with hl
  · have hread : memRead s 0 4 ≠ .error .refuse := fun h => absurd (memRead_eq_refuse.1 h).1 (by omega)
    simp [hread]
  · cases hm : memRead s 0 4 with
    | error x => simp
    | ok m => simp only [reduceCtorEq, iff_false]; split_ifs <;> simp

/-- The test of the magic passes where `IN` is too short for it or its four bytes are the magic. -/
theorem readBytes_of_checkMagic {s : State} (h : checkMagic s = .ok ()) (hl : 4 ≤ s.inLen) :
    s.inBuf.readBytes 0 4 = some magicBytes := by
  simp only [checkMagic, if_neg (Nat.not_lt.2 hl)] at h
  cases hm : memRead s 0 4 with
  | error x => simp [hm] at h
  | ok m =>
    simp only [hm] at h
    split_ifs at h with hmagic
    exact hmagic ▸ (memRead_eq_ok.1 hm).2.2

theorem fetchHeader_eq_refuse {s : State} :
    fetchHeader s = .error .refuse ↔
      memRead s 0 4 = .error .refuse ∨
        (s.inBuf.readBytes 0 4 = some magicBytes ∧ memRead s 0 14 = .error .refuse) := by
  constructor
  · intro h
    unfold fetchHeader at h
    cases hm : checkMagic s with
    | error x =>
      simp only [hm, Except.error.injEq] at h
      exact .inl (checkMagic_eq_refuse.1 (h ▸ hm))
    | ok u =>
      simp only [hm] at h
      split_ifs at h with hl
      · simp at h
      · cases hr : memRead s 0 14 with
        | error x =>
          simp only [hr, Except.error.injEq] at h
          exact .inr ⟨readBytes_of_checkMagic hm (by omega), h ▸ rfl⟩
        | ok b =>
          simp only [hr] at h
          exact absurd h decodeUnit_ne_refuse
  · rintro (h | ⟨hb, h⟩)
    · simp only [fetchHeader, checkMagic_eq_refuse.2 h]
    · obtain ⟨hl, -⟩ := memRead_eq_refuse.1 h
      rcases memRead_of_readBytes (by omega) hb with hm | hm
      · simp only [fetchHeader, checkMagic, if_neg (show ¬ s.inLen < 4 by omega), hm, if_true,
          if_neg (show ¬ s.inLen < 14 by omega), h]
      · simp only [fetchHeader, checkMagic_eq_refuse.2 hm]

theorem fetchChunk_eq_refuse {s : State} :
    fetchChunk s = .error .refuse ↔
      memRead s s.pc 1 = .error .refuse ∨
        ∃ t, s.inBuf.read s.pc = some t ∧ memRead s s.pc (chunkLength t) = .error .refuse := by
  have hone (t : Byte) : s.inBuf.readBytes s.pc 1 = some [t] ↔ s.inBuf.read s.pc = some t := by
    simp [Mem.readBytes_eq_some]
  constructor
  · intro h
    unfold fetchChunk at h
    split at h
    · rename_i hr
      cases h
      exact .inl hr
    · cases h
    · rename_i t ts hr
      obtain ⟨-, -, hb⟩ := memRead_eq_ok.1 hr
      obtain rfl : ts = [] := List.length_eq_zero_iff.1 (Nat.succ.inj (Mem.readBytes_length hb))
      split at h
      · rename_i hr
        cases h
        exact .inr ⟨t, (hone t).1 hb, hr⟩
      · exact absurd h decodeUnit_ne_refuse
  · rintro (h | ⟨t, ht, h⟩)
    · simp only [fetchChunk, h]
    · obtain ⟨hl, -⟩ := memRead_eq_refuse.1 h
      have hpos : 0 < chunkLength t := by cases hk : tagKind t <;> simp [chunkLength, hk, kindLength]
      rcases memRead_of_readBytes (by omega) ((hone t).2 ht) with hm | hm <;> simp only [fetchChunk, hm, h]

theorem fetchMarker_eq_refuse {s : State} : fetchMarker s = .error .refuse ↔ memRead s s.pc 8 = .error .refuse := by
  unfold fetchMarker
  cases memRead s s.pc 8 with
  | error x => simp
  | ok b => simp [decodeUnit_ne_refuse]

/-- As many bytes as there are channels are a pixel. -/
theorem exists_pixelOfBytes {c : Byte} (hc : c = 3 ∨ c = 4) {bs : List Byte} (hl : bs.length = c.toNat) :
    ∃ p, pixelOfBytes c bs = some p := by
  rcases hc with rfl | rfl
  · obtain ⟨r, g, b, rfl⟩ := List.length_eq_three.1 hl
    exact ⟨_, rfl⟩
  · obtain ⟨r, g, b, a, rfl⟩ := List.length_eq_four.1 hl
    exact ⟨_, rfl⟩

theorem fetchPixel_eq_refuse {s : State} (hc : s.channels = 3 ∨ s.channels = 4) :
    fetchPixel s = .error .refuse ↔ memRead s s.pc s.channels.toNat = .error .refuse := by
  unfold fetchPixel
  cases hm : memRead s s.pc s.channels.toNat with
  | error x => simp
  | ok bs =>
    obtain ⟨-, -, hb⟩ := memRead_eq_ok.1 hm
    obtain ⟨p, hp⟩ := exists_pixelOfBytes hc (Mem.readBytes_length hb)
    simp [hp]

/-- The six kinds of step of a transaction under way (10_state.md R31). -/
theorem Inv.step_kind {s : State} (hs : Inv s) (hb : busy s = true) :
    (HdrReady s ∧ s.mode = .enc) ∨ (HdrReady s ∧ s.mode = .dec) ∨ BodyStep s .enc ∨ BodyStep s .dec ∨
      TailReady s .enc ∨ TailReady s .dec := by
  rcases busy_eq_true.1 hb with hp | hp
  · cases hm : s.mode
    · exact .inl ⟨hp, rfl⟩
    · exact .inr (.inl ⟨hp, rfl⟩)
  · obtain ⟨hle, -⟩ := hs.body hp
    rcases Nat.lt_or_eq_of_le hle with hx | hx <;> cases hm : s.mode
    · exact .inr (.inr (.inl ⟨hp, hm, hx⟩))
    · exact .inr (.inr (.inr (.inl ⟨hp, hm, hx⟩)))
    · exact .inr (.inr (.inr (.inr (.inl ⟨hm, hp, hx⟩))))
    · exact .inr (.inr (.inr (.inr (.inr ⟨hm, hp, hx⟩))))

theorem BodyStep.currentInstr_enc {s : State} (h : BodyStep s .enc) : currentInstr s = fetchSelected s := by
  obtain ⟨hp, hm, hx⟩ := h
  obtain ⟨-, -, -, hsel, -⟩ := currentInstr_eq s
  exact hsel hp hx hm

theorem BodyStep.decReady {s : State} (h : BodyStep s .dec) : DecReady s := ⟨h.2.1, h.1, h.2.2⟩

theorem BodyStep.channels_eq {s : State} {m : Mode} (h : BodyStep s m) (hs : Inv s) :
    s.channels = 3 ∨ s.channels = 4 := by
  obtain ⟨-, -, hch, -⟩ := hs.body h.1
  exact hch

/-- The fetch of the step is refused exactly where a read the step makes is. -/
theorem currentInstr_eq_refuse {s : State} (hs : Inv s) (hb : busy s = true) :
    currentInstr s = .error .refuse ↔ ∃ a n, StepReads s a n ∧ memRead s a n = .error .refuse := by
  constructor
  · intro h
    rcases hs.step_kind hb with ⟨hp, hm⟩ | ⟨hp, hm⟩ | hk | hk | hk | hk
    · rw [currentInstr_header_enc hp hm] at h
      cases h
    · rw [currentInstr_header_dec hp hm] at h
      rcases fetchHeader_eq_refuse.1 h with hr | ⟨hmagic, hr⟩
      · exact ⟨0, 4, .magic hp hm (by have := (memRead_eq_refuse.1 hr).1; omega), hr⟩
      · exact ⟨0, 14, .header hp hm (by have := (memRead_eq_refuse.1 hr).1; omega) hmagic, hr⟩
    · rw [hk.currentInstr_enc] at h
      exact ⟨_, _, .pixel hk, (fetchPixel_eq_refuse (hk.channels_eq hs)).1 (fetchSelected_eq_error h)⟩
    · rw [hk.decReady.currentInstr_eq] at h
      rcases fetchChunk_eq_refuse.1 h with hr | ⟨t, ht, hr⟩
      · exact ⟨_, _, .tag hk, hr⟩
      · exact ⟨_, _, .chunk hk ht, hr⟩
    · rw [currentInstr_end_enc hk] at h
      cases h
    · rw [hk.currentInstr_eq] at h
      exact ⟨_, _, .marker hk.2.1 hk.1 hk.2.2, fetchMarker_eq_refuse.1 h⟩
  · rintro ⟨a, n, hr, h⟩
    cases hr with
    | magic hp hm => rw [currentInstr_header_dec hp hm, fetchHeader_eq_refuse]; exact .inl h
    | header hp hm _ hmagic => rw [currentInstr_header_dec hp hm, fetchHeader_eq_refuse]; exact .inr ⟨hmagic, h⟩
    | tag hk => rw [hk.decReady.currentInstr_eq, fetchChunk_eq_refuse]; exact .inl h
    | chunk hk ht => rw [hk.decReady.currentInstr_eq, fetchChunk_eq_refuse]; exact .inr ⟨_, ht, h⟩
    | marker hp hm hx => rw [TailReady.currentInstr_eq ⟨hm, hp, hx⟩, fetchMarker_eq_refuse]; exact h
    | pixel hk =>
      rw [hk.currentInstr_enc]
      simp only [fetchSelected, (fetchPixel_eq_refuse (hk.channels_eq hs)).2 h]

/-- A read of the step that is refused is one of the situations of R243. -/
theorem StepReads.noMeaning {s : State} {a n : Nat} (hr : StepReads s a n) (h : memRead s a n = .error .refuse) :
    NoMeaning s := by
  obtain ⟨hl, hf | hb⟩ := memRead_eq_refuse.1 h
  · exact .readBeyond hr hl hf
  · obtain ⟨k, hk, hb⟩ := readBytes_eq_none.1 hb
    exact .byte hr hl hk hb

/-! Emissions that are refused (60_exceptions.md R243 case 3). -/

section
variable {s : State}

theorem finish_eq_refuse {p : Pixel} {n : Nat} :
    finish p n s = .error .refuse ↔ fits s.cfg (s.wp + bytesPerPixel s.channels) = false := by
  rw [← pixelBytes_length_eq s.channels p]
  refine ⟨fun h => ?_, finish_beyond⟩
  by_contra hf
  rw [finish_eq_ok.2 ⟨eq_true_of_ne_false hf, rfl⟩] at h
  cases h

theorem repeatPrev_eq_refuse {n : Nat} (hn : 0 < n) :
    repeatPrev n s = .error .refuse ↔ fits s.cfg (s.wp + n * bytesPerPixel s.channels) = false := by
  rw [← pixelBytes_length_eq s.channels s.prev]
  refine ⟨fun h => ?_, repeatPrev_beyond hn⟩
  by_contra hf
  obtain ⟨t, ht⟩ := repeatPrev_completes (eq_true_of_ne_false hf)
  rw [ht] at h
  cases h

theorem decodeRun_eq_refuse {l : BitVec 6} (hx : s.px < s.npx) :
    decodeRun l s = .error .refuse ↔
      (s.px + runLength l ≤ s.npx ∨ s.cfg.overshoot = .truncate) ∧
        fits s.cfg (s.wp + min (runLength l) (s.npx - s.px) * bytesPerPixel s.channels) = false := by
  have hpos : 0 < runLength l := Nat.succ_pos _
  rcases decodeRun_cases l s with ⟨hle, h⟩ | ⟨hgt, hfail, h⟩ | ⟨hgt, htrunc, h⟩ <;> rw [h]
  · rw [repeatPrev_eq_refuse hpos, Nat.min_eq_left (by omega)]
    simp [hle]
  · simp [hfail, hgt]
  · rw [repeatPrev_eq_refuse (by omega), Nat.min_eq_right (by omega)]
    simp [htrunc]

theorem encodeChunk_eq_refuse {p : Pixel} (hf : fetchPixel s = .ok p) :
    encodeChunk (selectChunk p s) s = .error .refuse ↔
      fits s.cfg (s.wp + (pendingRun s.run ++ encode (selectChunk p s)).length) = false := by
  rw [← flushBytes_eq_pendingRun]
  refine ⟨fun h => ?_, encodeChunk_beyond hf rfl⟩
  by_contra hfit
  obtain ⟨t, ht⟩ := encodeChunk_completes hf rfl (eq_true_of_ne_false hfit)
  rw [ht] at h
  cases h

theorem encodeRun_eq_refuse {l : BitVec 6} (hf : fetchPixel s = .ok s.prev) (hsel : selectChunk s.prev s = .run l) :
    encodeRun l s = .error .refuse ↔ ¬ s.run < 62 ∧ fits s.cfg (s.wp + 1) = false := by
  have hemit : emit [0xFD] s = .error .refuse ↔ fits s.cfg (s.wp + 1) = false := emit_eq_refuse
  rw [← hemit]
  simp only [encodeRun, hf, if_pos hsel]
  split_ifs with hr
  · exact ⟨nofun, fun h => absurd hr h.1⟩
  · cases emit [0xFD] s with
    | error x => simp only [hr, not_false_eq_true, true_and]
    | ok t => exact ⟨nofun, fun h => nomatch h.2⟩

theorem encodeTail_eq_refuse :
    encodeTail s = .error .refuse ↔ fits s.cfg (s.wp + ((pendingRun s.run).length + 8)) = false := by
  have hlen : (pendingRun s.run).length + 8 = (flushBytes s.run ++ endMarkerBytes).length := by
    rw [flushBytes_eq_pendingRun, List.length_append]
    rfl
  rw [hlen]
  refine ⟨fun h => ?_, encodeTail_beyond⟩
  by_contra hfit
  obtain ⟨t, ht⟩ := encodeTail_completes (eq_true_of_ne_false hfit)
  rw [ht] at h
  cases h

/-- The pixel fetched stands at `pc` (42_chunk_encoder.md R141). -/
theorem pixelAt_of_fetchPixel {p : Pixel} (hf : fetchPixel s = .ok p) : PixelAt s.inBuf s.pc s.channels p := by
  obtain ⟨bs, hread, hp⟩ := fetchPixel_eq_ok.1 hf
  obtain ⟨-, -, hb⟩ := memRead_eq_ok.1 hread
  unfold pixelOfBytes at hp
  split at hp
  · split_ifs at hp with hc
    cases hp
    rw [hc] at hb
    exact .inl ⟨hc, hb⟩
  · split_ifs at hp with hc
    cases hp
    rw [hc] at hb
    exact .inr ⟨hc, hb, rfl⟩
  · cases hp

/-- Where a pixel of an encode stands at `pc`, it is fetched, or it lies beyond the capacity. -/
theorem fetchPixel_of_pixelAt {p : Pixel} (hs : Inv s) (hk : BodyStep s .enc)
    (h : PixelAt s.inBuf s.pc s.channels p) : fetchPixel s = .ok p ∨ fetchPixel s = .error .refuse := by
  obtain ⟨hp, hm, hx⟩ := id hk
  have hl := hs.encode_pixel_le_inLen hm hp hx
  cases hf : fits s.cfg (s.pc + s.channels.toNat)
  · exact .inr ((fetchPixel_eq_refuse (hk.channels_eq hs)).2 (memRead_eq_refuse.2 ⟨hl, .inl hf⟩))
  · exact .inl (EncReady.fetchPixel_eq ⟨hm, hp, hx, hl, hf, h⟩)

end

/-! What the step computes, by kind. -/

section
variable {s : State}

theorem stepResult_header_enc (hp : HdrReady s) (hm : s.mode = .enc) :
    stepResult s = encodeHeaderStep s.width s.height s.channels s.colorspace s := by
  rw [stepResult_of_ok (currentInstr_header_enc hp hm)]
  exact enabledSide_of_enc (headerEnabled_eq_true.2 hp) hm _ _

theorem stepResult_header_dec {w h : BitVec 32} {c cs : Byte} (hp : HdrReady s) (hm : s.mode = .dec)
    (hc : currentInstr s = .ok (.header w h c cs)) : stepResult s = decodeHeaderStep w h c cs s := by
  rw [stepResult_of_ok hc]
  exact enabledSide_of_dec (headerEnabled_eq_true.2 hp) hm _ _

theorem stepResult_tail_enc (h : TailReady s .enc) : stepResult s = encodeTail s := by
  rw [stepResult_of_ok (currentInstr_end_enc h)]
  exact enabledSide_of_enc (tailEnabled_eq_true.2 h.2) h.1 _ _

theorem stepResult_tail_dec (h : TailReady s .dec) {i : Instr} (hc : currentInstr s = .ok i) :
    stepResult s = decodeTail s := by
  have hfetch := hc
  rw [h.currentInstr_eq] at hfetch
  obtain ⟨b, rest, -, hd⟩ := fetchMarker_eq_ok hfetch
  obtain ⟨rfl, -⟩ := decodeMarker_eq_ok hd
  rw [stepResult_of_ok hc]
  exact enabledSide_of_dec (tailEnabled_eq_true.2 h.2) h.1 _ _

theorem BodyStep.currentInstr_of_fetchPixel {p : Pixel} (h : BodyStep s .enc) (hf : fetchPixel s = .ok p) :
    currentInstr s = .ok (selectChunk p s) := by
  rw [h.currentInstr_enc]
  exact fetchSelected_eq_ok.2 ⟨p, hf, rfl⟩

/-- The step of a pixel other than `prev` emits its chunk. -/
theorem BodyStep.stepResult_of_pixel {p : Pixel} (h : BodyStep s .enc) (hf : fetchPixel s = .ok p) (hne : p ≠ s.prev) :
    stepResult s = encodeChunk (selectChunk p s) s := by
  rw [stepResult_of_ok (h.currentInstr_of_fetchPixel hf)]
  exact meaning_chunk_enc h.2.1 h.1 h.2.2 (selectChunk_place p s) (selectChunk_ne_run hne)

/-- The step of a pixel equal to `prev` is a run step. -/
theorem BodyStep.stepResult_of_prev (h : BodyStep s .enc) (hf : fetchPixel s = .ok s.prev) :
    ∃ l, selectChunk s.prev s = .run l ∧ stepResult s = encodeRun l s := by
  refine ⟨_, selectChunk_prev s, ?_⟩
  rw [stepResult_of_ok (h.currentInstr_of_fetchPixel hf), selectChunk_prev]
  exact meaning_run_enc h.2.1 h.1 h.2.2 _

end

/-- The instruction of the header step is a header. -/
theorem place_of_currentInstr_header {s : State} {i : Instr} (hp : HdrReady s) (hc : currentInstr s = .ok i) :
    i.place = .header := by
  cases hm : s.mode with
  | enc =>
    rw [currentInstr_header_enc hp hm] at hc
    cases hc
    rfl
  | dec =>
    rw [currentInstr_header_dec hp hm] at hc
    obtain ⟨b, rest, -, hd⟩ := fetchHeader_eq_ok hc
    exact decodeAt_place hd

/-- A decoded header and the byte of its channel count. -/
theorem header_bytes (w h : BitVec 32) (c cs : Byte) :
    (encode (.header w h c cs)).take 4 = magicBytes ∧ (encode (.header w h c cs))[12]? = some c := ⟨rfl, rfl⟩

/-! The situations of R243 are the refusals of the step's result. -/

/-- A chunk at the capacity, whatever bytes it came from (60_exceptions.md R243 case 3). -/
theorem meaning_eq_refuse_of_beyond {s : State} {i : Instr} (h : DecReady s) (hi : i.place = .chunk) :
    ((∀ l, i ≠ .run l) → fits s.cfg (s.wp + bytesPerPixel s.channels) = false → meaning i s = .error .refuse) ∧
    (∀ l, i = .run l → s.px + runLength l ≤ s.npx ∨ s.cfg.overshoot = .truncate →
      fits s.cfg (s.wp + min (runLength l) (s.npx - s.px) * bytesPerPixel s.channels) = false →
      meaning i s = .error .refuse) := by
  rcases meaning_chunk_dec h hi with ⟨p, hl, hmean⟩ | ⟨l, rfl, hmean⟩ <;> rw [hmean]
  · exact ⟨fun _ => finish_eq_refuse.2, fun l hil => absurd hil (hl l)⟩
  · refine ⟨fun hl => absurd rfl (hl l), ?_⟩
    rintro l ⟨⟩ ho hf
    exact (decodeRun_eq_refuse h.2.2).2 ⟨ho, hf⟩

/-- An emission of the step that does not fit makes its result a refusal, unless a read already has. -/
theorem StepEmits.stepResult_eq {s : State} {n : Nat} (he : StepEmits s n) (hf : fits s.cfg (s.wp + n) = false)
    (hs : Inv s) : stepResult s = .error .refuse := by
  have hunread (hk : BodyStep s .enc) (h : fetchPixel s = .error .refuse) : stepResult s = .error .refuse :=
    stepResult_of_error (by rw [hk.currentInstr_enc, fetchSelected, h])
  cases he with
  | encodeHeader hp hm hc hcs hl =>
    rw [stepResult_header_enc hp hm, encodeHeaderStep_eq_refuse]
    exact .inr ⟨checkFields_eq_ok.2 ⟨hc, hcs⟩, hl, hf⟩
  | encodeChunk hk hp hne =>
    rcases fetchPixel_of_pixelAt hs hk hp with hfetch | hfetch
    · rw [hk.stepResult_of_pixel hfetch hne]
      exact (encodeChunk_eq_refuse hfetch).2 hf
    · exact hunread hk hfetch
  | encodeRun hk hp hr =>
    rcases fetchPixel_of_pixelAt hs hk hp with hfetch | hfetch
    · obtain ⟨l, hsel, hres⟩ := hk.stepResult_of_prev hfetch
      rw [hres]
      exact (encodeRun_eq_refuse hfetch hsel).2 ⟨by rw [hr]; decide, hf⟩
    · exact hunread hk hfetch
  | encodeEnd hp hm hx =>
    rw [stepResult_tail_enc ⟨hm, hp, hx⟩]
    exact encodeTail_eq_refuse.2 hf
  | decodePixel hk hi hl =>
    obtain ⟨hplace, -⟩ := streamHas_of_currentInstr_chunk hk.decReady hi
    rw [stepResult_of_ok hi]
    exact (meaning_eq_refuse_of_beyond hk.decReady hplace).1 hl hf
  | decodeRun hk hi ho =>
    rw [stepResult_of_ok hi]
    exact (meaning_eq_refuse_of_beyond hk.decReady rfl).2 _ rfl ho hf

/-- In each situation of R243 the step's result is a refusal. -/
theorem NoMeaning.stepResult_eq {s : State} (h : NoMeaning s) (hs : Inv s) (hb : busy s = true) :
    stepResult s = .error .refuse := by
  have hread {a n : Nat} (hr : StepReads s a n) (h : memRead s a n = .error .refuse) :
      stepResult s = .error .refuse := stepResult_of_error ((currentInstr_eq_refuse hs hb).2 ⟨a, n, hr, h⟩)
  cases h with
  | fieldsEncode hp hm hst h3 h4 =>
    rw [stepResult_header_enc hp hm, encodeHeaderStep_eq_refuse]
    exact .inl (checkFields_eq_refuse.2 ⟨hst, h3, h4⟩)
  | fieldsDecode hp hm hst hl hb14 hq hc h3 h4 =>
    have hmagic : s.inBuf.readBytes 0 4 = some magicBytes :=
      (Mem.readBytes_take hb14 (by omega)).trans (congrArg some hq)
    cases hf : fits s.cfg 14
    · exact hread (.header hp hm hl hmagic) (memRead_eq_refuse.2 ⟨by omega, .inl hf⟩)
    · have hfetch := fetchHeader_eq_decodeUnit hb14 hl hf hq
      rw [decodeUnit_header (Mem.readBytes_length hb14) hq, ← currentInstr_header_dec hp hm] at hfetch
      rw [stepResult_header_dec hp hm hfetch, decodeHeaderStep_eq_refuse, List.getD_eq_getElem?_getD, hc]
      exact checkFields_eq_refuse.2 ⟨hst, h3, h4⟩
  | byte hr hl hk hnone => exact hread hr (memRead_eq_refuse.2 ⟨hl, .inr (readBytes_eq_none.2 ⟨_, hk, hnone⟩)⟩)
  | readBeyond hr hl hf => exact hread hr (memRead_eq_refuse.2 ⟨hl, .inl hf⟩)
  | writeBeyond he hf => exact he.stepResult_eq hf hs

/-- A step whose result is a refusal is in a situation of R243. -/
theorem noMeaning_of_stepResult {s : State} (h : stepResult s = .error .refuse) (hs : Inv s) (hb : busy s = true) :
    NoMeaning s := by
  cases hc : currentInstr s with
  | error x =>
    rw [stepResult_of_error hc] at h
    cases h
    obtain ⟨a, n, hr, hread⟩ := (currentInstr_eq_refuse hs hb).1 hc
    exact hr.noMeaning hread
  | ok i =>
    rcases hs.step_kind hb with ⟨hp, hm⟩ | ⟨hp, hm⟩ | hk | hk | hk | hk
    · rw [stepResult_header_enc hp hm] at h
      rcases encodeHeaderStep_eq_refuse.1 h with hcf | ⟨hcf, hl, hf⟩
      · obtain ⟨hst, h3, h4⟩ := checkFields_eq_refuse.1 hcf
        exact .fieldsEncode hp hm hst h3 h4
      · obtain ⟨hch, hcs⟩ := checkFields_eq_ok.1 hcf
        exact .writeBeyond (.encodeHeader hp hm hch hcs hl) hf
    · have hplace := place_of_currentInstr_header hp hc
      obtain ⟨hl, hb14⟩ := readBytes_of_currentInstr_header hp hm hc
      cases i <;> cases hplace
      rename_i w h' c cs
      rw [stepResult_header_dec hp hm hc, decodeHeaderStep_eq_refuse, checkFields_eq_refuse] at h
      obtain ⟨hst, h3, h4⟩ := h
      obtain ⟨hq, hbyte⟩ := header_bytes w h' c cs
      exact .fieldsDecode hp hm hst hl hb14 hq hbyte h3 h4
    · have hfetch := hc
      rw [hk.currentInstr_enc] at hfetch
      obtain ⟨p, hf, -⟩ := fetchSelected_eq_ok.1 hfetch
      by_cases hne : p = s.prev
      · subst hne
        obtain ⟨l, hsel, hres⟩ := hk.stepResult_of_prev hf
        rw [hres, encodeRun_eq_refuse hf hsel] at h
        obtain ⟨hr, hfit⟩ := h
        exact .writeBeyond (.encodeRun hk (pixelAt_of_fetchPixel hf) (hs.run_eq_of_not_lt hr)) hfit
      · rw [hk.stepResult_of_pixel hf hne, encodeChunk_eq_refuse hf] at h
        exact .writeBeyond (.encodeChunk hk (pixelAt_of_fetchPixel hf) hne) h
    · obtain ⟨hplace, -⟩ := streamHas_of_currentInstr_chunk hk.decReady hc
      rw [stepResult_of_ok hc] at h
      rcases meaning_chunk_dec hk.decReady hplace with ⟨p, hl, hmean⟩ | ⟨l, rfl, hmean⟩ <;> rw [hmean] at h
      · exact .writeBeyond (.decodePixel hk hc hl) (finish_eq_refuse.1 h)
      · obtain ⟨ho, hf⟩ := (decodeRun_eq_refuse hk.2.2).1 h
        exact .writeBeyond (.decodeRun hk hc ho) hf
    · rw [stepResult_tail_enc hk] at h
      exact .writeBeyond (.encodeEnd hk.2.1 hk.1 hk.2.2) (encodeTail_eq_refuse.1 h)
    · rw [stepResult_tail_dec hk hc] at h
      cases h

end Sys2Proof.Machine
end

/-! The engine always has a step in a transaction under way (10_state.md R31), and the record of written registers decides
nothing but the mark (60_exceptions.md R243 case 2). -/

section
namespace Sys2Proof.Machine

open Sys2Proof

/-! In a state of the invariant the engine's turn answers a next state. -/

section
variable {s : State}

theorem decodeUnit_ne_noStep {place : Place} {b : List Byte} (hp : place ≠ .command) :
    decodeUnit place b ≠ .error .noStep := by
  intro h
  obtain ⟨e, he, hx⟩ := decodeUnit_eq_error h
  cases place with
  | command => exact hp rfl
  | header => rcases decodeHeader_eq_error he with rfl | rfl <;> cases hx
  | chunk => rw [decodeChunk_eq_error he] at hx; cases hx
  | marker => rcases decodeMarker_eq_error he with rfl | rfl <;> cases hx

theorem checkMagic_ne_noStep : checkMagic s ≠ .error .noStep := by
  intro h
  unfold checkMagic at h
  split_ifs at h
  split at h
  · rename_i hr
    cases h
    exact memRead_ne_noStep hr
  · split_ifs at h
    cases h

theorem fetchHeader_ne_noStep : fetchHeader s ≠ .error .noStep := by
  intro h
  unfold fetchHeader at h
  split at h
  · rename_i hr
    cases h
    exact checkMagic_ne_noStep hr
  · split_ifs at h
    · cases h
    · split at h
      · rename_i hr
        cases h
        exact memRead_ne_noStep hr
      · exact decodeUnit_ne_noStep (place := .header) nofun h

theorem fetchChunk_ne_noStep : fetchChunk s ≠ .error .noStep := by
  intro h
  unfold fetchChunk at h
  split at h
  · rename_i hr
    cases h
    exact memRead_ne_noStep hr
  · rename_i hr
    obtain ⟨-, -, hb⟩ := memRead_eq_ok.1 hr
    cases Mem.readBytes_length hb
  · split at h
    · rename_i hr
      cases h
      exact memRead_ne_noStep hr
    · exact decodeUnit_ne_noStep (place := .chunk) nofun h

theorem fetchMarker_ne_noStep : fetchMarker s ≠ .error .noStep := by
  intro h
  unfold fetchMarker at h
  split at h
  · rename_i hr
    cases h
    exact memRead_ne_noStep hr
  · exact decodeUnit_ne_noStep (place := .marker) nofun h

theorem fetchPixel_ne_noStep : fetchPixel s ≠ .error .noStep := by
  intro h
  rcases fetchPixel_eq_error h with ⟨-, hx⟩ | hx <;> cases hx

theorem checkFields_ne_noStep {p : Params} {c cs : Byte} : checkFields p c cs ≠ .error .noStep := by
  intro h
  rcases checkFields_eq_error h with ⟨-, hx, -⟩ | ⟨-, hx, -⟩ | ⟨-, hx, -⟩ <;> cases hx

theorem encodeHeaderStep_ne_noStep :
    encodeHeaderStep s.width s.height s.channels s.colorspace s ≠ .error .noStep := by
  intro h
  unfold encodeHeaderStep at h
  rw [if_pos ⟨rfl, rfl, rfl, rfl⟩] at h
  split at h
  · rename_i hc
    cases h
    exact checkFields_ne_noStep hc
  · split_ifs at h
    · cases h
    · split at h
      · rename_i he
        cases h
        cases (emit_eq_error he).1
      · cases h

theorem encodeChunk_ne_noStep {p : Pixel} (hf : fetchPixel s = .ok p) :
    encodeChunk (selectChunk p s) s ≠ .error .noStep := by
  cases hfit : fits s.cfg (s.wp + (flushBytes s.run ++ encode (selectChunk p s)).length)
  · simp [encodeChunk_beyond hf rfl hfit]
  · obtain ⟨t, ht⟩ := encodeChunk_completes hf rfl hfit
    simp [ht]

theorem encodeRun_ne_noStep {l : BitVec 6} (hf : fetchPixel s = .ok s.prev) (hsel : selectChunk s.prev s = .run l) :
    encodeRun l s ≠ .error .noStep := by
  intro h
  simp only [encodeRun, hf, if_pos hsel] at h
  split_ifs at h
  split at h
  · rename_i he
    cases h
    cases (emit_eq_error he).1
  · cases h

/-- In a state of the invariant exactly one step is enabled, and the engine asks for no other. -/
theorem stepResult_ne_noStep (hs : Inv s) (hb : busy s = true) : stepResult s ≠ .error .noStep := by
  intro h
  rcases hs.step_kind hb with ⟨hp, hm⟩ | ⟨hp, hm⟩ | hk | hk | hk | hk
  · rw [stepResult_header_enc hp hm] at h
    exact encodeHeaderStep_ne_noStep h
  · cases hc : currentInstr s with
    | error x =>
      rw [stepResult_of_error hc] at h
      cases h
      exact fetchHeader_ne_noStep (currentInstr_header_dec hp hm ▸ hc)
    | ok i =>
      have hplace := place_of_currentInstr_header hp hc
      cases i <;> cases hplace
      rw [stepResult_header_dec hp hm hc] at h
      exact checkFields_ne_noStep (decodeHeaderStep_eq_error h)
  · cases hc : currentInstr s with
    | error x =>
      rw [stepResult_of_error hc] at h
      cases h
      exact fetchPixel_ne_noStep (fetchSelected_eq_error (hk.currentInstr_enc ▸ hc))
    | ok i =>
      obtain ⟨p, hf, -⟩ := fetchSelected_eq_ok.1 (hk.currentInstr_enc ▸ hc)
      by_cases hne : p = s.prev
      · subst hne
        obtain ⟨l, hsel, hres⟩ := hk.stepResult_of_prev hf
        exact encodeRun_ne_noStep hf hsel (hres ▸ h)
      · exact encodeChunk_ne_noStep hf (hk.stepResult_of_pixel hf hne ▸ h)
  · cases hc : currentInstr s with
    | error x =>
      rw [stepResult_of_error hc] at h
      cases h
      exact fetchChunk_ne_noStep (hk.decReady.currentInstr_eq ▸ hc)
    | ok i =>
      obtain ⟨hplace, -⟩ := streamHas_of_currentInstr_chunk hk.decReady hc
      rw [stepResult_of_ok hc] at h
      rcases meaning_chunk_dec hk.decReady hplace with ⟨p, -, hmean⟩ | ⟨l, -, hmean⟩ <;> rw [hmean] at h
      · cases finish_eq_error h
      · rcases decodeRun_eq_error h with ⟨-, -, hx⟩ | hx <;> cases hx
  · rw [stepResult_tail_enc hk] at h
    cases encodeTail_eq_error h
  · cases hc : currentInstr s with
    | error x =>
      rw [stepResult_of_error hc] at h
      cases h
      exact fetchMarker_ne_noStep (hk.currentInstr_eq ▸ hc)
    | ok i =>
      rw [stepResult_tail_dec hk hc] at h
      cases h

end

theorem Inv.engineStep_answers {s : State} (hs : Inv s) : ∃ t, engineStep s = .next t := by
  by_cases hrun : busy s = true ∧ s.halted = false
  · obtain ⟨hb, hh⟩ := hrun
    rw [engineStep_eq_conclude hb hh]
    cases hr : stepResult s with
    | ok t => exact ⟨_, rfl⟩
    | error x =>
      cases x with
      | raise e => exact ⟨_, rfl⟩
      | refuse => exact ⟨_, rfl⟩
      | noStep => exact absurd hr (stepResult_ne_noStep hs hb)
  · refine ⟨s, if_neg ?_⟩
    simpa using hrun

/-! The record of written registers decides nothing but the mark (notes/assumptions/22.md). -/

/-- `s` with every register counted as written. -/
def allWritten (s : State) : State := { s with written := Written.everything }

section
variable {s : State}

@[simp] theorem allWritten_run (s : State) : (allWritten s).run = s.run := rfl
@[simp] theorem allWritten_cfg (s : State) : (allWritten s).cfg = s.cfg := rfl
@[simp] theorem allWritten_mode (s : State) : (allWritten s).mode = s.mode := rfl
@[simp] theorem allWritten_width (s : State) : (allWritten s).width = s.width := rfl
@[simp] theorem allWritten_height (s : State) : (allWritten s).height = s.height := rfl
@[simp] theorem allWritten_ph (s : State) : (allWritten s).ph = s.ph := rfl
@[simp] theorem allWritten_channels (s : State) : (allWritten s).channels = s.channels := rfl
@[simp] theorem allWritten_colorspace (s : State) : (allWritten s).colorspace = s.colorspace := rfl
@[simp] theorem allWritten_inLen (s : State) : (allWritten s).inLen = s.inLen := rfl
@[simp] theorem allWritten_commit (p : Pixel) (s : State) : commit p (allWritten s) = allWritten (commit p s) := rfl
@[simp] theorem fetchPixel_allWritten (s : State) : fetchPixel (allWritten s) = fetchPixel s := rfl
@[simp] theorem selectChunk_allWritten (p : Pixel) (s : State) : selectChunk p (allWritten s) = selectChunk p s := rfl

theorem emit_allWritten (v : List Byte) (s : State) : emit v (allWritten s) = (emit v s).map allWritten := by
  cases hf : fits s.cfg (s.wp + v.length)
  · rw [emit_eq_refuse.2 hf, (emit_eq_refuse (s := allWritten s)).2 hf]
    rfl
  · rw [emit_completes hf, emit_completes (s := allWritten s) hf]
    rfl

theorem flushRun_allWritten (s : State) : flushRun (allWritten s) = (flushRun s).map allWritten := by
  simp only [flushRun, allWritten_run, emit_allWritten]
  split_ifs
  · rfl
  · cases emit (encode (.run (s.run - 1))) s <;> rfl

theorem finish_allWritten (p : Pixel) (n : Nat) (s : State) :
    finish p n (allWritten s) = (finish p n s).map allWritten := by
  simp only [finish, outPixel, allWritten_commit, allWritten_channels, emit_allWritten]
  cases emit (pixelBytes (commit p s).channels p) (commit p s) <;> rfl

theorem outPixels_allWritten (n : Nat) (p : Pixel) (s : State) :
    outPixels n p (allWritten s) = (outPixels n p s).map allWritten := by
  induction n generalizing s with
  | zero => rfl
  | succ n ih =>
    simp only [outPixels, outPixel, allWritten_channels, emit_allWritten]
    cases emit (pixelBytes s.channels p) s with
    | error x => rfl
    | ok t => exact ih t

theorem repeatPrev_allWritten (n : Nat) (s : State) : repeatPrev n (allWritten s) = (repeatPrev n s).map allWritten := by
  have hout : outPixels n (allWritten s).prev (allWritten s) = (outPixels n s.prev s).map allWritten :=
    outPixels_allWritten n s.prev s
  simp only [repeatPrev, hout]
  cases outPixels n s.prev s <;> rfl

theorem decodeRun_allWritten (l : BitVec 6) (s : State) :
    decodeRun l (allWritten s) = (decodeRun l s).map allWritten := by
  rcases decodeRun_cases l s with ⟨hle, h⟩ | ⟨hgt, hfail, h⟩ | ⟨hgt, htrunc, h⟩ <;> rw [h]
  · rw [← repeatPrev_allWritten]
    exact if_neg (Nat.not_lt.2 hle)
  · have hgt' : (allWritten s).px + runLength l > (allWritten s).npx := hgt
    have hfail' : (allWritten s).cfg.overshoot = .fail := hfail
    simp only [decodeRun, if_pos hgt', hfail']
    rfl
  · have hgt' : (allWritten s).px + runLength l > (allWritten s).npx := hgt
    have htrunc' : (allWritten s).cfg.overshoot = .truncate := htrunc
    simp only [decodeRun, if_pos hgt', htrunc']
    exact repeatPrev_allWritten _ s

theorem encodeChunk_allWritten (i : Instr) (s : State) :
    encodeChunk i (allWritten s) = (encodeChunk i s).map allWritten := by
  simp only [encodeChunk, fetchPixel_allWritten, selectChunk_allWritten, flushRun_allWritten]
  cases fetchPixel s with
  | error x => rfl
  | ok p =>
    simp only
    split_ifs
    · cases flushRun s with
      | error x => rfl
      | ok t =>
        simp only [Except.map, emit_allWritten]
        cases emit (encode i) t <;> rfl
    · rfl

theorem encodeRun_allWritten (l : BitVec 6) (s : State) :
    encodeRun l (allWritten s) = (encodeRun l s).map allWritten := by
  simp only [encodeRun, fetchPixel_allWritten, selectChunk_allWritten, allWritten_run, emit_allWritten]
  cases fetchPixel s with
  | error x => rfl
  | ok p =>
    simp only
    split_ifs
    · rfl
    · cases emit [0xFD] s <;> rfl
    · rfl

theorem decodeHeaderStep_allWritten (w h : BitVec 32) (c cs : Byte) (s : State) :
    decodeHeaderStep w h c cs (allWritten s) = (decodeHeaderStep w h c cs s).map allWritten := by
  simp only [decodeHeaderStep, allWritten_cfg]
  cases checkFields s.cfg c cs <;> rfl

theorem encodeHeaderStep_allWritten (w h : BitVec 32) (c cs : Byte) (s : State) :
    encodeHeaderStep w h c cs (allWritten s) = (encodeHeaderStep w h c cs s).map allWritten := by
  have hnpx : { allWritten s with npx := pixelTotal w h } = allWritten { s with npx := pixelTotal w h } := rfl
  have hemit (v : List Byte) : emit v { allWritten s with npx := pixelTotal w h } =
      (emit v { s with npx := pixelTotal w h }).map allWritten := by rw [hnpx, emit_allWritten]
  by_cases hr : w = s.width ∧ h = s.height ∧ c = s.channels ∧ cs = s.colorspace
  · have hstep : encodeHeaderStep w h c cs s = _ := if_pos hr
    have hstep' : encodeHeaderStep w h c cs (allWritten s) = _ := if_pos hr
    rw [hstep, hstep', hemit, allWritten_cfg]
    generalize emit (encode (.header w h c cs)) { s with npx := pixelTotal w h } = out
    cases checkFields s.cfg c cs with
    | error x => rfl
    | ok _ =>
      by_cases hl : s.inLen = pixelTotal w h * c.toNat
      · simp only [allWritten_inLen, hl, ne_eq, not_true_eq_false, if_false]
        cases out <;> rfl
      · simp only [allWritten_inLen, ne_eq, hl, not_false_eq_true, if_true]
        rfl
  · have hstep : encodeHeaderStep w h c cs s = _ := if_neg hr
    have hstep' : encodeHeaderStep w h c cs (allWritten s) = _ := if_neg hr
    rw [hstep, hstep']
    rfl

theorem encodeTail_allWritten (s : State) : encodeTail (allWritten s) = (encodeTail s).map allWritten := by
  simp only [encodeTail, flushRun_allWritten]
  cases flushRun s with
  | error x => rfl
  | ok t =>
    simp only [Except.map, emit_allWritten]
    cases emit (encode .endMarker) t <;> rfl

theorem enabledSide_allWritten (b : Bool) (s : State) (d e d' e' : Except Stop State)
    (hd : d' = d.map allWritten) (he : e' = e.map allWritten) :
    enabledSide (allWritten s) b d' e' = (enabledSide s b d e).map allWritten := by
  subst hd he
  simp only [enabledSide, allWritten_mode]
  cases b
  · rfl
  · cases s.mode <;> rfl

theorem meaning_allWritten (i : Instr) (s : State) : meaning i (allWritten s) = (meaning i s).map allWritten := by
  cases i with
  | run l => exact enabledSide_allWritten _ s _ _ _ _ (decodeRun_allWritten l s) (encodeRun_allWritten l s)
  | header w h c cs =>
    exact enabledSide_allWritten _ s _ _ _ _ (decodeHeaderStep_allWritten w h c cs s)
      (encodeHeaderStep_allWritten w h c cs s)
  | endMarker => exact enabledSide_allWritten _ s _ _ _ _ rfl (encodeTail_allWritten s)
  | startEncode | startDecode => rfl
  | _ => exact enabledSide_allWritten _ s _ _ _ _ (finish_allWritten _ _ s) (encodeChunk_allWritten _ s)

theorem stepResult_allWritten (s : State) : stepResult (allWritten s) = (stepResult s).map allWritten := by
  have hcur : currentInstr (allWritten s) = currentInstr s := rfl
  simp only [stepResult, hcur]
  cases currentInstr s with
  | error x => rfl
  | ok i => exact meaning_allWritten i s

end

end Sys2Proof.Machine
end

/-! The mark and the end of a transaction: 60_exceptions.md R243 in both directions, and that the mark is sticky
(10_state.md R32). -/

section
namespace Sys2Proof.Machine

open Sys2Proof

section
variable {s t : State} {i : Instr}

/-- When a meaning answers, and through which side. -/
theorem enabledSide_eq_ok {b : Bool} {d e : Except Stop State} (h : enabledSide s b d e = .ok t) :
    b = true ∧ ((s.mode = .dec ∧ d = .ok t) ∨ (s.mode = .enc ∧ e = .ok t)) := by
  unfold enabledSide at h
  split_ifs at h with hb
  refine ⟨hb, ?_⟩
  cases hm : s.mode <;> rw [hm] at h
  · exact .inr ⟨rfl, h⟩
  · exact .inl ⟨rfl, h⟩

/-- A meaning that answers is a completed step. -/
theorem completed_of_meaning (h : meaning i s = .ok t) : Completed i s t := by
  have hpixel {i : Instr} {p : Pixel} {n : Nat} (hi : i.place = .chunk) (hl : ∀ l, i ≠ .run l)
      (hd : (historyOf s).chunk i = (historyOf s).single p)
      (h : enabledSide s (bodyEnabled s) (finish p (encode i).length s) (encodeChunk i s) = .ok t) :
      Completed i s t := by
    obtain ⟨hen, ⟨hm, hk⟩ | ⟨hm, hk⟩⟩ := enabledSide_eq_ok h <;> obtain ⟨hp, hx⟩ := bodyEnabled_eq_true.1 hen
    · exact .decodePixel hi hl hp hx hm hd hk
    · exact .encodePixel hi hl hp hx hm hk
  cases i with
  | startEncode | startDecode => cases h
  | run l =>
    obtain ⟨hen, ⟨hm, hk⟩ | ⟨hm, hk⟩⟩ := enabledSide_eq_ok h <;> obtain ⟨hp, hx⟩ := bodyEnabled_eq_true.1 hen
    · exact .decodeRun hp hx hm hk
    · exact .encodeRun hp hx hm hk
  | header w h' c cs =>
    obtain ⟨hen, ⟨hm, hk⟩ | ⟨hm, hk⟩⟩ := enabledSide_eq_ok h
    · exact .decodeHeader (headerEnabled_eq_true.1 hen) hm hk
    · exact .encodeHeader (headerEnabled_eq_true.1 hen) hm hk
  | endMarker =>
    obtain ⟨hen, ⟨hm, hk⟩ | ⟨hm, hk⟩⟩ := enabledSide_eq_ok h <;> obtain ⟨hp, hx⟩ := tailEnabled_eq_true.1 hen
    · exact .decodeEnd hp hx hm hk
    · exact .encodeEnd hp hx hm hk
  | _ => exact hpixel (n := 0) rfl nofun rfl h

/-- A step whose computation answers completes its instruction. -/
theorem completed_of_stepResult (h : stepResult s = .ok t) : ∃ i, Completed i s t := by
  cases hc : currentInstr s with
  | error x => rw [stepResult_of_error hc] at h; cases h
  | ok i =>
    rw [stepResult_of_ok hc] at h
    exact ⟨i, completed_of_meaning h⟩

end

/-- The engine's step is the mark alone exactly in the situations of R243. -/
theorem engineStep_eq_markRefused_iff {s : State} (hs : Inv s) (hb : busy s = true) (hh : s.halted = false) :
    NoMeaning s ↔ engineStep s = .next (markRefused s) := by
  rw [engineStep_eq_conclude hb hh]
  refine ⟨fun h => by rw [h.stepResult_eq hs hb]; rfl, fun h => ?_⟩
  rcases conclude_next h with ⟨u, hu, hmark⟩ | ⟨e, -, hmark⟩ | ⟨hr, -⟩
  · obtain ⟨i, hcomp⟩ := completed_of_stepResult hu
    have hph : s.ph = u.ph := (congrArg State.ph hmark :)
    have hpx : s.px = u.px := (congrArg State.px hmark :)
    rcases hcomp.effect.progress with hne | hlt
    · exact absurd hph.symm hne
    · omega
  · have hph : s.ph = .error := (congrArg State.ph hmark :)
    rw [busy_eq_true, hph] at hb
    simp at hb
  · exact noMeaning_of_stepResult hr hs hb

/-- The marks of every next state of a transaction under way. -/
theorem engineStep_marks {s t : State} (hs : Inv s) (hb : busy s = true) (hh : s.halted = false)
    (h : engineStep s = .next t) :
    (t.halted = true ↔ NoMeaning s ∨ Unwritten s) ∧ t.refused = (s.refused || t.halted) := by
  have hread : readsUnwritten s = true ↔ Unwritten s := readsUnwritten_eq_true
  by_cases hno : NoMeaning s
  · obtain rfl := Host.Outcome.next.inj (((engineStep_eq_markRefused_iff hs hb hh).1 hno).symm.trans h)
    simp [hno, markRefused]
  · have hnote (u : State) (hhalt : u.halted = s.halted) (href : u.refused = s.refused) (ht : t = noteReads s u) :
        (t.halted = true ↔ NoMeaning s ∨ Unwritten s) ∧ t.refused = (s.refused || t.halted) := by
      subst ht
      simp [hhalt, href, hh, hno, hread]
    rw [engineStep_eq_conclude hb hh] at h
    rcases conclude_next h with ⟨u, hu, ht⟩ | ⟨e, -, ht⟩ | ⟨hr, -⟩
    · obtain ⟨i, hcomp⟩ := completed_of_stepResult hu
      have hframe := hcomp.effect.frame
      exact hnote u (congrArg State.halted hframe :) (congrArg State.refused hframe :) ht
    · exact hnote (takeError e s) rfl rfl ht
    · exact absurd (noMeaning_of_stepResult hr hs hb) hno

/-! The record of written registers (notes/assumptions/22.md). -/

/-- `t`, a next state of `allWritten s`, with the record of `s` and the marks for what the step from `s` has read. -/
def withRecordOf (s t : State) : State :=
  { t with
    refused := t.refused || readsUnwritten s
    halted := t.halted || readsUnwritten s
    written := if s.ph = .hdr ∧ s.mode = .dec ∧ t.ph = .body then s.written.withGeometry else s.written }

/-- An outcome of `allWritten s`, with the record of `s`. -/
def outcomeWithRecordOf (s : State) : Host.Outcome State Fault Refusal → Host.Outcome State Fault Refusal
  | .next t => .next (withRecordOf s t)
  | .fault f => .fault f
  | .refused r => .refused r

theorem readsUnwritten_allWritten (s : State) : readsUnwritten (allWritten s) = false := by
  simp [readsUnwritten, operandsWritten, allWritten, Written.everything, Written.geometry]
  cases s.mode <;> simp

/-- The record after a completed step (notes/assumptions/22.md). -/
theorem written_of_stepResult {s t : State} (h : stepResult s = .ok t) :
    t.written = if s.ph = .hdr ∧ s.mode = .dec ∧ t.ph = .body then s.written.withGeometry else s.written := by
  obtain ⟨i, hcomp⟩ := completed_of_stepResult h
  simp only [hcomp.effect.written_eq, hcomp.effect.place_eq_header_iff]

theorem noteReads_eq_withRecordOf {s t : State}
    (hw : t.written = if s.ph = .hdr ∧ s.mode = .dec ∧ t.ph = .body then s.written.withGeometry else s.written) :
    noteReads s t = withRecordOf s (noteReads (allWritten s) (allWritten t)) := by
  simp only [noteReads, withRecordOf, readsUnwritten_allWritten, Bool.or_false, allWritten_ph]
  rw [← hw]
  rfl

theorem markRefused_eq_withRecordOf (s : State) : markRefused s = withRecordOf s (markRefused (allWritten s)) := by
  cases hp : s.ph <;> simp [withRecordOf, markRefused, allWritten, hp]

theorem eq_withRecordOf_of_ne_hdr {s : State} (h : s.ph ≠ .hdr) : s = withRecordOf s (allWritten s) := by
  simp [withRecordOf, allWritten, h, readsUnwritten_of_ne_hdr h]

/-- A step of the engine is the step with every register written, but for the record and the marks. -/
theorem engineStep_eq_withRecordOf {s : State} (hh : s.halted = false) :
    engineStep s = outcomeWithRecordOf s (engineStep (allWritten s)) := by
  have hh' : (allWritten s).halted = false := hh
  cases hb : busy s
  · have hb' : busy (allWritten s) = false := hb
    rw [engineStep_of_not_busy hb, engineStep_of_not_busy hb']
    exact congrArg _ (eq_withRecordOf_of_ne_hdr fun hp => by simp [busy_eq_true.2 (.inl hp)] at hb)
  · have hb' : busy (allWritten s) = true := hb
    rw [engineStep_eq_conclude hb hh, engineStep_eq_conclude hb' hh', stepResult_allWritten]
    cases hr : stepResult s with
    | ok t => exact congrArg _ (noteReads_eq_withRecordOf (written_of_stepResult hr))
    | error x =>
      cases x with
      | raise e => exact congrArg _ (noteReads_eq_withRecordOf (t := takeError e s) (by simp [takeError]))
      | refuse => exact congrArg _ (markRefused_eq_withRecordOf s)
      | noStep => rfl

/-- A decoded chunk at the capacity is refused, whatever bytes it came from. -/
theorem exec_eq_markRefused_of_beyond {s : State} {i : Instr} (hi : i.place = .chunk) (h : DecReady s) :
    ((∀ l, i ≠ .run l) → fits s.cfg (s.wp + bytesPerPixel s.channels) = false → exec i s = .next (markRefused s)) ∧
    (∀ l, i = .run l → s.px + runLength l ≤ s.npx ∨ s.cfg.overshoot = .truncate →
      fits s.cfg (s.wp + min (runLength l) (s.npx - s.px) * bytesPerPixel s.channels) = false →
      exec i s = .next (markRefused s)) := by
  have hmark (hr : meaning i s = .error .refuse) : exec i s = .next (markRefused s) := by
    rw [exec_eq_conclude (by simp [hi]), hr]
    rfl
  obtain ⟨hpixel, hrun⟩ := meaning_eq_refuse_of_beyond h hi
  exact ⟨fun hl hf => hmark (hpixel hl hf), fun l hil ho hf => hmark (hrun l hil ho hf)⟩

/-- What a move of the host does to the mark and to an ended transaction: hardware reset clears both, a START begins a
transaction with steps of its own, and nothing else touches them (notes/assumptions/13.md). -/
theorem hostMove_marks {op : HostOp} {s t : State} (hop : op ≠ .engine) (h : hostMove op s = .next t) :
    (op = .reset ∧ t = hardReset s) ∨
    (busy s = false ∧ (op = .writeCmd 1 ∨ op = .writeCmd 2) ∧ t.refused = s.refused ∧ t.halted = false) ∨
    (t.refused = s.refused ∧ t.halted = s.halted) := by
  rcases hostMove_next h with ⟨rfl, -⟩ | ⟨v, i, rfl, hv, hx⟩ | ⟨rfl, rfl⟩ | ⟨ht, -⟩
  · exact absurd rfl hop
  · have hcmd : i.place = .command ∧ (v = 1 ∨ v = 2) := by
      rcases decodeCommand_eq_some hv with ⟨rfl, rfl⟩ | ⟨rfl, rfl⟩ <;> simp [Instr.place]
    rcases exec_next hx with ⟨-, ⟨-, rfl⟩ | ⟨m, hb, rfl⟩⟩ | ⟨hi, -⟩
    · exact .inr (.inr ⟨rfl, rfl⟩)
    · exact .inr (.inl ⟨hb, by simpa using hcmd.2, rfl, rfl⟩)
    · exact absurd hcmd.1 hi
  · exact .inl ⟨rfl, rfl⟩
  · exact .inr (.inr ⟨(congrArg State.refused ht :), (congrArg State.halted ht :)⟩)

/-- Settles O50: the situations of NoMeaning are the refusals of the step's computation, read by read and emission by
emission; the record of written registers takes no part in that computation, so a step that reads an unwritten register
is the step of the state with all of them written, with the mark added. -/
theorem refusalCases : Obligations.RefusalCases := by
  unfold Obligations.RefusalCases
  refine ⟨fun s a n => ?_, fun v s => emit_eq_refuse, fun i s hi h => exec_eq_markRefused_of_beyond hi h,
    fun s u hr hs hb => ?_, fun s u t hr hs hb h => ?_, ?_, fun s t op rest hh hop h => ?_⟩
  · rw [memRead_eq_refuse, readBytes_eq_none]
  · rw [hr.1.step_eq]
    exact engineStep_eq_markRefused_iff hs hb hr.2
  · rw [hr.1.step_eq] at h
    exact engineStep_marks hs hb hr.2 h
  · intro s u s' u' hr hr' hu
    obtain rfl : u' = allWritten u := hu
    rw [hr.1.step_eq, hr'.1.step_eq, engineStep_eq_withRecordOf hr.2]
    cases engineStep (allWritten u) <;> rfl
  · rw [step_of_host hh] at h
    rcases hostMove_marks hop h with ⟨-, rfl⟩ | ⟨-, -, href, hhalt⟩ | ⟨href, hhalt⟩
    · exact ⟨nofun, nofun⟩
    · exact ⟨fun h => href ▸ h, fun h => absurd (hhalt ▸ h) nofun⟩
    · exact ⟨fun h => href ▸ h, fun h => hhalt ▸ h⟩

/-- A transaction without further steps stays as it is on the engine's turn. -/
theorem engineStep_of_halted {s : State} (h : s.halted = true) : engineStep s = .next s := if_neg (by simp [h])

/-- The engine's turn keeps the mark. -/
theorem engineStep_keeps_refused {s t : State} (h : engineStep s = .next t) (hr : s.refused = true) :
    t.refused = true := by
  rcases engineStep_cases h with ⟨-, rfl⟩ | ⟨-, -, ⟨i, u, -, hu, rfl⟩ | ⟨e, -, rfl⟩ | rfl⟩
  · exact hr
  · have href : u.refused = s.refused := (congrArg State.refused hu.effect.frame :)
    simp [href, hr]
  · simp [takeError, hr]
  · rfl

/-- A step is the engine's turn, or a move of the host other than standing aside. -/
theorem step_next_cases {s t : State} (h : step s = .next t) :
    (∃ u, EngineTurn s u ∧ engineStep u = .next t) ∨
      ∃ op rest, op ≠ .engine ∧ s.host = op :: rest ∧ hostMove op { s with host := rest } = .next t := by
  rcases step_next h with ⟨hh, he⟩ | ⟨op, rest, hh, hm⟩
  · exact .inl ⟨s, .inl ⟨hh, rfl⟩, he⟩
  · by_cases hengine : op = .engine
    · subst hengine
      exact .inl ⟨_, .inr ⟨rest, hh, rfl⟩, hm⟩
    · exact .inr ⟨op, rest, hengine, hh, hm⟩

theorem EngineTurn.marks {s u : State} (h : EngineTurn s u) : u.refused = s.refused ∧ u.halted = s.halted := by
  rcases h with ⟨-, rfl⟩ | ⟨rest, -, rfl⟩ <;> exact ⟨rfl, rfl⟩

/-- Settles O49: the moves that touch the mark or an ended transaction are hostMove_marks', and in R243's situations the
step of the invariant's state, which always answers, sets both. -/
theorem refusedIsSticky : Obligations.RefusedIsSticky := by
  unfold Obligations.RefusedIsSticky
  refine ⟨fun s t hr h => ?_, fun s u hturn hh => ?_, fun s u hrun hs hb hsit => ?_, fun s t hh h => ?_, fun s hb => ?_⟩
  · rcases step_next_cases h with ⟨u, hturn, he⟩ | ⟨op, rest, hengine, hop, hm⟩
    · obtain ⟨href, -⟩ := hturn.marks
      exact .inl (engineStep_keeps_refused he (href.trans hr))
    · rcases hostMove_marks hengine hm with ⟨rfl, -⟩ | ⟨-, -, href, -⟩ | ⟨href, -⟩
      · exact .inr ⟨rest, hop⟩
      · exact .inl (href.trans hr)
      · exact .inl (href.trans hr)
  · rw [hturn.step_eq, engineStep_of_halted hh]
  · obtain ⟨t, ht⟩ := hs.engineStep_answers
    obtain ⟨hhalt, href⟩ := engineStep_marks hs hb hrun.2 ht
    have hh : t.halted = true := hhalt.2 hsit
    refine ⟨t, hrun.1.step_eq.trans ht, by simp [href, hh], hh, fun v hv => ?_⟩
    rw [hv.step_eq, engineStep_of_halted hh]
  · rcases step_next_cases h with ⟨u, hturn, he⟩ | ⟨op, rest, hengine, hop, hm⟩
    · have hu : u.halted = true := hturn.marks.2.trans hh
      obtain rfl := Host.Outcome.next.inj ((engineStep_of_halted hu).symm.trans he)
      exact .inl hu
    · rcases hostMove_marks hengine hm with ⟨rfl, -⟩ | ⟨hb, rfl | rfl, -⟩ | ⟨-, hhalt⟩
      · exact .inr (.inl ⟨rest, hop⟩)
      · exact .inr (.inr ⟨hb, rest, .inl hop⟩)
      · exact .inr (.inr ⟨hb, rest, .inr hop⟩)
      · exact .inl (hhalt.trans hh)
  · rw [exec_startEncode, exec_startDecode, startCommand_of_not_busy (by simp [hb]),
      startCommand_of_not_busy (by simp [hb])]
    exact ⟨_, _, rfl, rfl, rfl, rfl⟩

end Sys2Proof.Machine
end

/-! A transaction ends (44_commands.md R204): every step of BODY consumes pixels or ends it. -/

section
namespace Sys2Proof.Machine

open Sys2Proof

section
variable {s t u : State}

/-- The transaction has ended: it is done, in error, or refused without further steps. -/
def Ended (s : State) : Prop := s.ph = .done ∨ s.ph = .error ∨ s.halted = true

/-- A step and then `k` more. -/
theorem run_succ {k : Nat} (h : step s = .next u) (hk : Host.Core.run Sys2Proof.core k u = .next t) :
    Host.Core.run Sys2Proof.core (k + 1) s = .next t := by
  have hstep : core.step s = .next u := h
  simp only [Host.Core.run, hstep]
  exact hk

/-- A completed step ends in BODY or DONE. -/
theorem Effect.phase {i : Instr} (h : Effect i s t) : t.ph = .body ∨ t.ph = .done := by
  cases h with
  | decodedPixel _ _ hp | encodedPixel _ _ hp | decodedRun hp | runGrown hp | runRestarted hp => exact .inl hp
  | headerRead | headerWritten => exact .inl rfl
  | decodeEnded | encodeEnded => exact .inr rfl

theorem step_of_no_host (hh : s.host = []) : step s = engineStep s := EngineTurn.step_eq (.inl ⟨hh, rfl⟩)

/-- The engine's turn leaves the host's moves. -/
theorem engineStep_keeps_host (h : engineStep s = .next t) : t.host = s.host := by
  rcases engineStep_cases h with ⟨-, rfl⟩ | ⟨-, -, ⟨i, u, -, hu, rfl⟩ | ⟨e, -, rfl⟩ | rfl⟩
  · rfl
  · exact (congrArg State.host hu.effect.frame :)
  · rfl
  · rfl

/-- A step of a transaction under way ends it, or is in BODY; from BODY it then is nearer to the pixel total. -/
theorem engineStep_advances (hb : busy s = true) (h : engineStep s = .next t) :
    (Ended t ∨ t.ph = .body) ∧ (s.ph = .body → t.npx = s.npx ∧ (Ended t ∨ s.px < t.px)) := by
  rcases engineStep_cases h with ⟨hrun, rfl⟩ | ⟨-, -, ⟨i, u, -, hu, rfl⟩ | ⟨e, -, rfl⟩ | rfl⟩
  · have hend : Ended t := .inr (.inr (hrun.resolve_left (by simp [hb])))
    exact ⟨.inl hend, fun _ => ⟨rfl, .inl hend⟩⟩
  · have heff := hu.effect
    refine ⟨heff.phase.symm.imp .inl id, fun hp => ⟨heff.keeps_npx ?_, ?_⟩⟩
    · rw [ne_eq, heff.place_eq_header_iff, hp]
      nofun
    · rcases heff.phase, heff.progress with ⟨hbody | hdone, hne | hlt⟩
      · exact absurd (hbody.trans hp.symm) hne
      · exact .inr hlt
      · exact .inl (.inl hdone)
      · exact .inl (.inl hdone)
  · exact ⟨.inl (.inr (.inl rfl)), fun _ => ⟨rfl, .inl (.inr (.inl rfl))⟩⟩
  · exact ⟨.inl (.inr (.inr rfl)), fun _ => ⟨rfl, .inl (.inr (.inr rfl))⟩⟩

end

section
variable {P : State → Prop} (hkeep : ∀ s t, Inv s → s.ph = .body → P s → engineStep s = .next t → P t)
include hkeep

/-- From BODY a transaction ends within as many steps as pixels are left and one, keeping what every step of BODY
keeps. -/
theorem exists_run_to_end_of_body {n : Nat} {s : State} (hs : Inv s) (hp : s.ph = .body) (hh : s.host = []) (hP : P s)
    (hn : s.npx < s.px + n) :
    ∃ k t, Host.Core.run Sys2Proof.core k s = .next t ∧ Ended t ∧ Inv t ∧ P t ∧ t.npx = s.npx ∧ k ≤ n := by
  induction n generalizing s with
  | zero =>
    obtain ⟨hle, -⟩ := hs.body hp
    omega
  | succ n ih =>
    obtain ⟨t, ht⟩ := hs.engineStep_answers
    have hstep := (step_of_no_host hh).trans ht
    have hst := engineStep_keeps_inv hs ht
    have hPt := hkeep s t hs hp hP ht
    obtain ⟨hend, hbody⟩ := engineStep_advances (busy_eq_true.2 (.inr hp)) ht
    obtain ⟨hnpx, hpx⟩ := hbody hp
    by_cases he : Ended t
    · exact ⟨1, t, run_succ hstep rfl, he, hst, hPt, hnpx, by omega⟩
    · have hlt := hpx.resolve_left he
      obtain ⟨k, u, hrun, hend, hu, hPu, hnpx', hk⟩ :=
        ih hst (hend.resolve_left he) ((engineStep_keeps_host ht).trans hh) hPt (by omega)
      exact ⟨k + 1, u, run_succ hstep hrun, hend, hu, hPu, hnpx'.trans hnpx, by omega⟩

end

/-- Settles O55: the header step is one, and every step of BODY but the last consumes a pixel. -/
theorem transactionTerminates : Obligations.TransactionTerminates := by
  unfold Obligations.TransactionTerminates
  have hbody {s : State} (hs : Inv s) (hp : s.ph = .body) (hh : s.host = []) :
      ∃ k t, Host.Core.run Sys2Proof.core k s = .next t ∧ Ended t ∧ k ≤ t.npx + 1 := by
    obtain ⟨k, t, hrun, hend, -, -, hnpx, hk⟩ := exists_run_to_end_of_body (P := fun _ => True) (n := s.npx + 1)
      (fun _ _ _ _ _ _ => trivial) hs hp hh trivial (by omega)
    exact ⟨k, t, hrun, hend, hnpx ▸ hk⟩
  refine ⟨fun s u hturn hu => ?_, fun s hs hb hh => ?_⟩
  · rw [hturn.step_eq]
    exact hu.engineStep_answers
  · rcases busy_eq_true.1 hb with hp | hp
    · obtain ⟨t, ht⟩ := hs.engineStep_answers
      have hstep := (step_of_no_host hh).trans ht
      by_cases he : Ended t
      · exact ⟨1, t, run_succ hstep rfl, he, by omega⟩
      · obtain ⟨hend, -⟩ := engineStep_advances hb ht
        obtain ⟨k, u, hrun, hend, hk⟩ :=
          hbody (engineStep_keeps_inv hs ht) (hend.resolve_left he) ((engineStep_keeps_host ht).trans hh)
        exact ⟨k + 1, u, run_succ hstep hrun, hend, by omega⟩
    · obtain ⟨k, t, hrun, hend, hk⟩ := hbody hs hp hh
      exact ⟨k, t, hrun, hend, by omega⟩

end Sys2Proof.Machine
end

/-! The round trip (43_chunk_decoder.md R183): an encode with nothing to stop it reaches DONE, and so does a decode of
what it surfaced, and gives the data back. -/

section
namespace Sys2Proof.Machine

open Sys2Proof

/-! Buffers and pixels. -/

theorem fits_of_unbounded {p : Params} (h : p.bufMax = none) (n : Nat) : fits p n = true := by simp [fits, h]

/-- The two parts of a string read from a buffer. -/
theorem Mem.readBytes_of_append {m : Mem} {a n : Nat} {xs ys : List Byte} (h : m.readBytes a n = some (xs ++ ys)) :
    m.readBytes a xs.length = some xs ∧ m.readBytes (a + xs.length) ys.length = some ys := by
  obtain ⟨hl, hread⟩ := (Mem.readBytes_eq_some _ _ _ _).1 h
  rw [List.length_append] at hl
  refine ⟨?_, (Mem.readBytes_eq_some _ _ _ _).2 ⟨rfl, fun k hk => ?_⟩⟩
  · simpa using Mem.readBytes_take h (k := xs.length) (by omega)
  · rw [Nat.add_assoc, hread _ (by omega), List.getElem?_append_right (by omega), Nat.add_sub_cancel_left]

/-- The bytes a pixel is read from are the bytes it is written as (20_memory.md R59). -/
theorem pixelBytes_of_pixelOfBytes {c : Byte} {bs : List Byte} {p : Pixel} (h : pixelOfBytes c bs = some p) :
    pixelBytes c p = bs := by
  unfold pixelOfBytes at h
  split at h
  · split_ifs at h with hc
    cases h
    simp [pixelBytes, hc]
  · split_ifs at h with hc
    cases h
    simp [pixelBytes, hc]
  · cases h

/-- A raw buffer that begins with the pixels `ps` begins with their bytes. -/
theorem RawPixels.readBytes {m : Mem} {c : Byte} {ps : List Pixel} (h : RawPixels m c ps) :
    m.readBytes 0 (ps.length * c.toNat) = some (ps.flatMap (pixelBytes c)) := by
  induction ps using List.reverseRecOn with
  | nil => simp
  | append_singleton ps p ih =>
    have hinit : RawPixels m c ps := by
      intro k q hk
      obtain ⟨hlt, -⟩ := List.getElem?_eq_some_iff.1 hk
      exact h k q ((List.getElem?_append_left hlt).trans hk)
    have hlast : rawPixel m c ps.length = some p := h ps.length p (by simp)
    unfold rawPixel at hlast
    split at hlast
    · rename_i bs hbs
      rw [List.length_append, List.length_singleton, Nat.add_mul, Nat.one_mul, List.flatMap_append]
      refine Mem.readBytes_add _ _ _ _ _ _ (ih hinit) ?_
      simpa [pixelBytes_of_pixelOfBytes hlast] using hbs
    · cases hlast

/-! A transaction that nothing stops. -/

/-- `e` is a step boundary in BODY or at DONE of the transaction whose first state in BODY is `s`, with the host standing
aside and no refusal. -/
structure UnderWay (s e : State) : Prop where
  ph : e.ph = .body ∨ e.ph = .done
  halted : e.halted = false
  host : e.host = []
  mode : e.mode = s.mode
  inBuf : e.inBuf = s.inBuf
  inLen : e.inLen = s.inLen
  cfg : e.cfg = s.cfg
  geometry : SameGeometry s e

section
variable {s e t : State} {i : Instr}

theorem UnderWay.of_completed (h : UnderWay s e) (hp : e.ph = .body) (hc : Completed i e t) : UnderWay s t := by
  have heff := hc.effect
  have hframe := heff.frame
  have hi : i.place ≠ .header := by rw [ne_eq, heff.place_eq_header_iff, hp]; nofun
  obtain ⟨hw, hh, hch, hcs⟩ := heff.keeps_geometry (.inr hi)
  obtain ⟨hw', hh', hch', hcs'⟩ := h.geometry
  exact ⟨heff.phase, (congrArg State.halted hframe :).trans h.halted, (congrArg State.host hframe :).trans h.host,
    (congrArg State.mode hframe :).trans h.mode, (congrArg State.inBuf hframe :).trans h.inBuf,
    (congrArg State.inLen hframe :).trans h.inLen, (congrArg State.cfg hframe :).trans h.cfg,
    hw.trans hw', hh.trans hh', hch.trans hch', hcs.trans hcs'⟩

/-- Where such a transaction has ended it is done. -/
theorem UnderWay.done_of_ended (h : UnderWay s e) (he : Ended e) : e.ph = .done := by
  rcases he with hd | herr | hh
  · exact hd
  · rcases h.ph with hb | hd
    · rw [hb] at herr; cases herr
    · exact hd
  · rw [h.halted] at hh; cases hh

/-- A body step with a meaning and without an error completes. -/
theorem completed_of_engineStep (hs : Inv e) (hp : e.ph = .body) (hh : e.halted = false) (hno : ¬ NoMeaning e)
    (hraise : ∀ x, ¬ StepRaises e x) (h : engineStep e = .next t) : ∃ i, Completed i e t := by
  have hb := busy_eq_true.2 (.inr hp)
  rcases engineStep_cases h with ⟨hrun, -⟩ | ⟨-, -, ⟨i, u, -, hu, rfl⟩ | ⟨x, hx, -⟩ | rfl⟩
  · simp [hb, hh] at hrun
  · exact ⟨i, by rwa [noteReads_of_ne_hdr (by simp [hp])]⟩
  · exact absurd hx (hraise x)
  · exact absurd ((engineStep_eq_markRefused_iff hs hb hh).2 h) hno

/-- With every byte written and the buffers unbounded, each step of BODY has a meaning. -/
theorem not_noMeaning_of_body (hp : e.ph = .body) (hcap : e.cfg.bufMax = none)
    (hin : ∀ a < e.inLen, e.inBuf.read a ≠ none) : ¬ NoMeaning e := by
  have hfits := fits_of_unbounded hcap
  have hhdr : e.ph ≠ .hdr := by simp [hp]
  intro h
  cases h with
  | fieldsEncode h | fieldsDecode h => exact hhdr h
  | byte _ hl hk hnone => exact hin _ (by omega) hnone
  | readBeyond _ _ hf | writeBeyond _ hf => rw [hfits] at hf; cases hf

/-- The body steps of an encode raise nothing: the data is there (20_memory.md R52). -/
theorem not_stepRaises_of_encode (hs : Inv e) (hp : e.ph = .body) (hm : e.mode = .enc) (x : Err) :
    ¬ StepRaises e x := by
  have hhdr : e.ph ≠ .hdr := by simp [hp]
  intro h
  cases h with
  | encodeHeader h | decodeHeader h => exact hhdr h
  | decodeChunk _ _ hdec | overflow _ _ hdec | decodeEnd _ _ hdec => exact not_dec_of_enc hm hdec
  | encodePixel _ hx _ hl => exact absurd (hs.encode_pixel_le_inLen hm hp hx) (Nat.not_le.2 hl)

end

/-! The encode. -/

/-- An encode with nothing to stop it reaches DONE, and has surfaced its header, chunks that read as the pixels of the
data, and the marker. -/
theorem exists_run_to_encodedWhole {s : State} (hs : Inv s) (hp : HdrReady s) (hm : s.mode = .enc) (hh : s.host = [])
    (hhalt : s.halted = false) (hw : operandsWritten s = true) (hcap : s.cfg.bufMax = none)
    (hfields : checkFields s.cfg s.channels s.colorspace = .ok ())
    (hl : s.inLen = pixelTotal s.width s.height * s.channels.toNat)
    (hin : ∀ a < s.inLen, s.inBuf.read a ≠ none) :
    ∃ k t, Host.Core.run Sys2Proof.core k s = .next t ∧ UnderWay (withHeader s) t ∧ t.ph = .done ∧
      t.npx = pixelTotal s.width s.height ∧ EncodedWhole t := by
  have hstep : step s = .next (withHeader s) :=
    (step_of_currentInstr hh (busy_eq_true.2 (.inl hp)) hhalt (currentInstr_header_enc hp hm)).trans
      (exec_header_enc_completes hp hm hw hfields hl (fits_of_unbounded hcap _))
  have hengine := (step_of_no_host hh).symm.trans hstep
  have hstream : EncoderStream s := fun _ => ⟨by rw [hp]; nofun, by rw [hp]; nofun⟩
  have hkeep (e t : State) (he : Inv e) (hbody : e.ph = .body) (hP : UnderWay (withHeader s) e ∧ EncoderStream e)
      (ht : engineStep e = .next t) : UnderWay (withHeader s) t ∧ EncoderStream t := by
    obtain ⟨hway, hstream⟩ := hP
    have hno : ¬ NoMeaning e := not_noMeaning_of_body hbody (by rw [hway.cfg]; exact hcap)
      (by rw [hway.inLen, hway.inBuf]; exact hin)
    obtain ⟨i, hc⟩ := completed_of_engineStep he hbody hway.halted hno
      (not_stepRaises_of_encode he hbody (hway.mode.trans hm)) ht
    exact ⟨hway.of_completed hbody hc, engineStep_keeps_encoderStream he hstream ht⟩
  obtain ⟨k, t, hrun, hend, -, ⟨hway, hstream⟩, hnpx, -⟩ := exists_run_to_end_of_body
    (P := fun e => UnderWay (withHeader s) e ∧ EncoderStream e) hkeep (engineStep_keeps_inv hs hengine) rfl hh
    ⟨⟨.inl rfl, hhalt, hh, rfl, rfl, rfl, rfl, rfl, rfl, rfl, rfl⟩, engineStep_keeps_encoderStream hs hstream hengine⟩
    (Nat.lt_of_lt_of_le (Nat.lt_succ_self _) (Nat.le_add_left _ _))
  have hdone := hway.done_of_ended hend
  exact ⟨k + 1, t, run_succ hstep hrun, hway, hdone, hnpx, (hstream (hway.mode.trans hm)).2 hdone⟩

/-! The decode: what lies ahead of `pc` in its input. -/

/-- From `pc` to the end of `IN` lie the chunks `rest`, which read as the pixels `ps` still to come, and the marker. -/
structure StreamAhead (s : State) (rest : List Byte) (ps : List Pixel) : Prop where
  bytes : s.inBuf.readBytes s.pc (rest ++ endMarkerBytes).length = some (rest ++ endMarkerBytes)
  length : s.pc + (rest ++ endMarkerBytes).length = s.inLen
  pixels : s.px + ps.length = s.npx
  reads : ∃ n h, decodeChunks n (historyOf s) rest = some (ps, h)

section
variable {e t : State} {i : Instr}

/-- The bytes next ahead stand at `pc`. -/
theorem StreamAhead.streamHas {v w rest : List Byte} {ps : List Pixel} (h : StreamAhead e rest ps)
    (hcap : e.cfg.bufMax = none) (hv : rest ++ endMarkerBytes = v ++ w) : StreamHas e v := by
  obtain ⟨hbytes, hlen, -, -⟩ := h
  rw [hv] at hbytes hlen
  obtain ⟨hread, -⟩ := Mem.readBytes_of_append hbytes
  rw [List.length_append] at hlen
  exact ⟨hread, by omega, fits_of_unbounded hcap _⟩

/-- A chunk gives at least one pixel. -/
theorem History.chunk_length_pos (h : History) (hi : i.place = .chunk) : 0 < (h.chunk i).1.length := by
  cases i with
  | header | endMarker | startEncode | startDecode => cases hi
  | run l => simp [History.chunk, runLength]
  | _ => exact Nat.one_pos

/-- Without a capacity, a chunk with its pixels left to produce completes. -/
theorem exists_completed_chunk (hready : DecReady e) (hi : i.place = .chunk) (hcap : e.cfg.bufMax = none)
    (hx : e.px + ((historyOf e).chunk i).1.length ≤ e.npx) : ∃ t, exec i e = .next t ∧ Completed i e t := by
  have hfits := fits_of_unbounded hcap
  obtain ⟨-, hp, -⟩ := id hready
  obtain ⟨t, ht⟩ : ∃ t, meaning i e = .ok t := by
    rcases meaning_chunk_dec hready hi with ⟨p, -, hmean⟩ | ⟨l, rfl, hmean⟩ <;> rw [hmean]
    · exact ⟨_, finish_eq_ok.2 ⟨hfits _, rfl⟩⟩
    · have hrun : e.px + runLength l ≤ e.npx := by simpa [History.chunk] using hx
      rcases decodeRun_cases l e with ⟨-, h⟩ | ⟨hgt, -⟩ | ⟨hgt, -⟩
      · rw [h]
        exact repeatPrev_completes (hfits _)
      · omega
      · omega
  exact ⟨t, by rw [exec_eq_conclude (by simp [hi]), ht, conclude_ok_of_body hp], completed_of_meaning ht⟩

/-- What a completed chunk of a decode, not cut short, moves. -/
theorem Effect.chunk_moves (h : Effect i e t) (hi : i.place = .chunk) (hm : e.mode = .dec)
    (hx : e.px + ((historyOf e).chunk i).1.length ≤ e.npx) :
    t.ph = .body ∧ t.pc = e.pc + (encode i).length ∧ t.px = e.px + ((historyOf e).chunk i).1.length ∧
      historyOf t = ((historyOf e).chunk i).2 := by
  cases h with
  | encodedPixel _ _ _ _ henc | runGrown _ _ henc | runRestarted _ _ henc => exact absurd hm (not_dec_of_enc henc)
  | headerRead | headerWritten | decodeEnded | encodeEnded => cases hi
  | decodedPixel _ _ hp _ _ hd =>
    rw [hd]
    exact ⟨hp, rfl, rfl, rfl⟩
  | @decodedRun l _ n hp _ _ hle _ hcut =>
    have hlen : ((historyOf e).chunk (.run l)).1.length = runLength l := List.length_replicate ..
    rw [hlen] at hx ⊢
    have hn : n = runLength l := by
      by_contra hne
      obtain ⟨heq, -⟩ := hcut (by omega)
      omega
    subst hn
    exact ⟨hp, by rw [encode_run]; rfl, rfl, rfl⟩

/-- A step of a decode whose stream lies ahead completes, with the rest of the stream ahead or nothing left. -/
theorem StreamAhead.step {rest : List Byte} {ps : List Pixel} (h : StreamAhead e rest ps) (hp : e.ph = .body)
    (hm : e.mode = .dec) (hh : e.host = []) (hhalt : e.halted = false) (hcap : e.cfg.bufMax = none) :
    ∃ i t, engineStep e = .next t ∧ Completed i e t ∧
      ((t.ph = .body ∧ ∃ rest ps, StreamAhead t rest ps) ∨ (t.ph = .done ∧ t.pc = t.inLen)) := by
  have hruns : EngineRuns e e := ⟨.inl ⟨hh, rfl⟩, hhalt⟩
  obtain ⟨hbytes, hlen, hpixels, n, hist, hread⟩ := id h
  cases rest with
  | nil =>
    obtain ⟨rfl, -⟩ : [] = ps ∧ historyOf e = hist := by simpa using hread
    have htail : TailReady e .dec := ⟨hm, hp, hpixels⟩
    obtain ⟨hmarker, hle, hf⟩ := h.streamHas hcap (v := endMarkerBytes) (w := []) (by simp)
    obtain ⟨-, -, hend⟩ := stepRunsDecodedInstruction e e .endMarker endMarkerBytes hruns hm
    have hstep := (hend hp hpixels hmarker hle hf rfl).trans (exec_end_dec htail)
    rw [step_of_no_host hh] at hstep
    exact ⟨_, _, hstep, .decodeEnd hp hpixels hm rfl, .inr ⟨rfl, hlen⟩⟩
  | cons b bs =>
    obtain ⟨m, i, rest, qs, -, hd, hrest, rfl⟩ := decodeChunks_cons_eq_some.1 hread
    have hi : i.place = .chunk := decodeAt_place (place := .chunk) (b := b :: bs) hd
    obtain ⟨hwf, henc, -⟩ := decodeChunk_eq_ok hd
    rw [← henc, List.append_assoc] at hbytes hlen
    rw [List.length_append] at hpixels
    have hpos := (historyOf e).chunk_length_pos hi
    have hready : DecReady e := ⟨hm, hp, by omega⟩
    obtain ⟨t, ht, hc⟩ := exists_completed_chunk hready hi hcap (by omega)
    have hstep := (hready.step_eq_exec hruns hi hwf (h.streamHas hcap (by rw [← henc, List.append_assoc]))).trans ht
    rw [step_of_no_host hh] at hstep
    have hframe := hc.effect.frame
    obtain ⟨hbody, hpc, hpx, hhist⟩ := hc.effect.chunk_moves hi hm (by omega)
    refine ⟨i, t, hstep, hc, .inl ⟨hbody, rest, qs, ?_, ?_, ?_, m, hist, hhist ▸ hrest⟩⟩
    · rw [hpc, (congrArg State.inBuf hframe :)]
      exact (Mem.readBytes_of_append hbytes).2
    · rw [hpc, (congrArg State.inLen hframe :), ← hlen, List.length_append (as := encode i)]
      omega
    · rw [hpx, hc.effect.keeps_npx (by simp [hi])]
      omega

end

/-- What a decode with nothing to stop it keeps from its header on. -/
structure DecodesAhead (s e : State) : Prop where
  way : UnderWay s e
  stream : DecoderStream e
  ahead : e.ph = .body → ∃ rest ps, StreamAhead e rest ps
  atEnd : e.ph = .done → e.pc = e.inLen

theorem DecodesAhead.step {s e t : State} (hm : s.mode = .dec) (hcap : s.cfg.bufMax = none) (he : Inv e)
    (hp : e.ph = .body) (h : DecodesAhead s e) (ht : engineStep e = .next t) : DecodesAhead s t := by
  obtain ⟨hway, hstream, hahead, -⟩ := h
  obtain ⟨rest, ps, hahead⟩ := hahead hp
  obtain ⟨i, u, hu, hc, hnext⟩ :=
    hahead.step hp (hway.mode.trans hm) hway.host hway.halted (by rw [hway.cfg]; exact hcap)
  obtain rfl := Host.Outcome.next.inj (hu.symm.trans ht)
  refine ⟨hway.of_completed hp hc, engineStep_keeps_decoderStream he hstream ht, ?_, ?_⟩
  · rcases hnext with ⟨-, hnext⟩ | ⟨hd, -⟩
    · exact fun _ => hnext
    · exact fun hb => absurd (hd.symm.trans hb) nofun
  · rcases hnext with ⟨hb, -⟩ | ⟨-, hnext⟩
    · exact fun hd => absurd (hb.symm.trans hd) nofun
    · exact fun _ => hnext

/-- What the header step of a decode leaves where nothing stops it (43_chunk_decoder.md R170). -/
def withFields (w h : BitVec 32) (c cs : Byte) (s : State) : State :=
  { s with
    width := w, height := h, channels := c, colorspace := cs, written := s.written.withGeometry
    npx := pixelTotal w h, pc := 14, ph := .body }

/-- The header step of a decode whose `IN` begins with a header with good fields. -/
theorem engineStep_of_header {d : State} {w h : BitVec 32} {c cs : Byte} (hp : HdrReady d) (hm : d.mode = .dec)
    (hh : d.host = []) (hhalt : d.halted = false) (hw : operandsWritten d = true) (hcap : d.cfg.bufMax = none)
    (hb : d.inBuf.readBytes 0 14 = some (encode (.header w h c cs))) (hl : 14 ≤ d.inLen)
    (hfields : checkFields d.cfg c cs = .ok ()) : engineStep d = .next (withFields w h c cs d) := by
  have hdecode : decodeAt .header (encode (.header w h c cs)) = .ok (.header w h c cs, []) := by
    simpa [decodeAt] using decodeHeader_encode w h c cs []
  obtain ⟨hheader, -⟩ := stepRunsDecodedInstruction d d (.header w h c cs) _ ⟨.inl ⟨hh, rfl⟩, hhalt⟩ hm
  rw [← step_of_no_host hh]
  exact (hheader hp hb hl (fits_of_unbounded hcap _) hdecode).trans (exec_header_dec_completes hp hm hw hfields)

/-- The parts of a buffer that holds a header and `bs`. -/
theorem Mem.readBytes_of_header_append {m : Mem} {n : Nat} {w h : BitVec 32} {c cs : Byte} {bs : List Byte}
    (hb : m.readBytes 0 n = some (encode (.header w h c cs) ++ bs)) :
    m.readBytes 0 14 = some (encode (.header w h c cs)) ∧ m.readBytes 14 bs.length = some bs ∧ 14 + bs.length = n := by
  obtain ⟨hheader, hrest⟩ := Mem.readBytes_of_append hb
  have hlen := Mem.readBytes_length hb
  rw [List.length_append] at hlen
  exact ⟨hheader, hrest, hlen⟩

/-- At DONE of a decode whose `IN` is a header, the chunks `bs` and the marker, `OUT` is the pixels they read as. -/
theorem DecodedWhole.readBytes_out {u : State} {w h : BitVec 32} {c cs : Byte} {bs : List Byte} {ps : List Pixel}
    {hist : History} (hu : DecodedWhole u) (hend : u.pc = u.inLen)
    (hin : u.inBuf.readBytes 0 u.inLen = some (encode (.header w h c cs) ++ (bs ++ endMarkerBytes)))
    (hread : streamPixels bs = some (ps, hist)) (hpixels : ps.length = u.npx) :
    u.outBuf.readBytes 0 u.outLen = some (ps.flatMap (pixelBytes u.channels)) := by
  obtain ⟨-, -, -, bs', ps', hbs, hread', -, -, hout⟩ := hu
  obtain ⟨-, hrest, hlen⟩ := Mem.readBytes_of_header_append hin
  obtain ⟨hchunks, -⟩ := Mem.readBytes_of_append hrest
  simp only [List.length_append, endMarkerBytes, List.length_cons, List.length_nil] at hlen
  rw [hend, show u.inLen - 8 - 14 = bs.length by omega, hchunks] at hbs
  obtain rfl := Option.some.inj hbs
  rw [hread] at hread'
  obtain ⟨rfl, -⟩ := Prod.mk.inj (Option.some.inj hread')
  rwa [← hpixels, List.take_length] at hout

/-- A decode of a header, chunks that read as its pixels, and the marker reaches DONE with nothing to stop it, the
header's fields in the registers and the pixels in `OUT`. -/
theorem exists_run_to_decodedWhole {d : State} {w h : BitVec 32} {c cs : Byte} {bs : List Byte} {ps : List Pixel}
    {hist : History} (hs : Inv d) (hp : HdrReady d) (hm : d.mode = .dec) (hh : d.host = []) (hhalt : d.halted = false)
    (hw : operandsWritten d = true) (hcap : d.cfg.bufMax = none) (hfields : checkFields d.cfg c cs = .ok ())
    (hin : d.inBuf.readBytes 0 d.inLen = some (encode (.header w h c cs) ++ (bs ++ endMarkerBytes)))
    (hread : streamPixels bs = some (ps, hist)) (hpixels : ps.length = pixelTotal w h) :
    ∃ k u, Host.Core.run Sys2Proof.core k d = .next u ∧ u.ph = .done ∧ SameGeometry (withFields w h c cs d) u ∧
      u.outBuf.readBytes 0 u.outLen = some (ps.flatMap (pixelBytes c)) := by
  obtain ⟨hheader, hrest, hlen⟩ := Mem.readBytes_of_header_append hin
  obtain ⟨-, -, hpx, -, hhist⟩ := hs.hdr hp
  have hengine := engineStep_of_header hp hm hh hhalt hw hcap hheader (by omega) hfields
  have hstream : DecoderStream d := fun _ => ⟨by rw [hp]; nofun, by rw [hp]; nofun⟩
  have hahead : StreamAhead (withFields w h c cs d) bs ps :=
    ⟨hrest, hlen, by simp [withFields, hpx, hpixels], bs.length, hist, hhist ▸ hread⟩
  have hstart : DecodesAhead (withFields w h c cs d) (withFields w h c cs d) :=
    ⟨⟨.inl rfl, hhalt, hh, rfl, rfl, rfl, rfl, rfl, rfl, rfl, rfl⟩, engineStep_keeps_decoderStream hs hstream hengine,
      fun _ => ⟨bs, ps, hahead⟩, nofun⟩
  obtain ⟨k, u, hrun, hend, -, hu, hnpx, -⟩ := exists_run_to_end_of_body (P := DecodesAhead (withFields w h c cs d))
    (fun _ _ he hbody hP ht => hP.step hm hcap he hbody ht) (engineStep_keeps_inv hs hengine) rfl hh hstart
    (Nat.lt_of_lt_of_le (Nat.lt_succ_self _) (Nat.le_add_left _ _))
  obtain ⟨hway, hstream', -, hpc⟩ := hu
  have hdone := hway.done_of_ended hend
  obtain ⟨hwid, hhei, hch, hcs⟩ := hway.geometry
  have hout := ((hstream' (hway.mode.trans hm)).2 hdone).readBytes_out (hpc hdone)
    (by rw [hway.inBuf, hway.inLen]; exact hin) hread (hpixels.trans hnpx.symm)
  rw [hch] at hout
  exact ⟨k + 1, u, run_succ ((step_of_no_host hh).trans hengine) hrun, hdone, ⟨hwid, hhei, hch, hcs⟩, hout⟩

/-- Settles O60: the encode surfaces chunks that read as the pixels of the data (O58), the decode of any such stream
gives its pixels (O59), and neither meets anything that stops it before DONE (O55). -/
theorem roundTrip : Obligations.RoundTrip := by
  unfold Obligations.RoundTrip
  intro s data hs hp hm hh hhalt hw hcap hc hcs hl hdata
  have hread : ∀ a < s.inLen, s.inBuf.read a ≠ none := by
    intro a ha hnone
    have := readBytes_eq_none.2 ⟨a, ha, (Nat.zero_add a).symm ▸ hnone⟩
    simp [hdata] at this
  obtain ⟨k, t, hrun, hway, hdone, hnpx, bs, ps, hout, hstream, hlen, hraw⟩ :=
    exists_run_to_encodedWhole hs hp hm hh hhalt hw hcap (checkFields_eq_ok.2 ⟨hc, hcs⟩) hl hread
  obtain ⟨hwid, hhei, hch, hcol⟩ := hway.geometry
  have hpixels : ps.length = pixelTotal s.width s.height := hlen.trans hnpx
  have hbytes : ps.flatMap (pixelBytes s.channels) = data := by
    rw [hway.inBuf, hch] at hraw
    have hpix := RawPixels.readBytes hraw
    have hinLen : ps.length * s.channels.toNat = s.inLen := by rw [hpixels, hl]; rfl
    exact Option.some.inj ((hinLen ▸ hpix).symm.trans hdata)
  refine ⟨k, t, hrun, hdone, fun d hd hdp hdm hdh hdhalt hdw hdcap hstrict hdl hdin => ?_⟩
  have hinput : d.inBuf.readBytes 0 d.inLen =
      some (encode (.header s.width s.height s.channels s.colorspace) ++ (bs ++ endMarkerBytes)) := by
    rw [hdin, hout, hwid, hhei, hch, hcol, List.append_assoc]
    rfl
  obtain ⟨k', u, hrun', hdone', ⟨hw', hh', hc', hcs'⟩, hout'⟩ :=
    exists_run_to_decodedWhole hd hdp hdm hdh hdhalt hdw hdcap (checkFields_eq_ok.2 ⟨hc, hstrict ▸ hcs⟩) hinput hstream
      hpixels
  rw [hbytes] at hout'
  exact ⟨k', u, hrun', hdone', hw', hh', hc', hcs', (Mem.readBytes_length hout').symm, hout'⟩

end Sys2Proof.Machine
end
